-- ==== Sys2Proof/Word.lean ====
section
/-! DEFINITION. The word types of the T6963C protocol engine (00_scope.md rule R12: bus data, status,
command and display-mode bytes are 8 bits; display addresses are 16 bits; 30_encoding.md rule R90: a
request word is 32 bits). -/

namespace Sys2Proof

/-- A bus data value, status byte, command byte or display-mode byte (R12). -/
abbrev Byte := BitVec 8

/-- A display-memory address, a row pitch, a burst length or a count: 16 bits, unsigned (R12). -/
abbrev Addr := BitVec 16

/-- A host request word (R90). -/
abbrev Word := BitVec 32

end Sys2Proof
end

