-- ==== Sys2Proof/Config.lean ====
section
/-! DEFINITION. What the build of the block fixes (00_scope.md rules R6 to R11, 10_state.md rule R38) and the
free values: opaque constants without a body, so that no proof can see a value of them. -/

namespace Sys2Proof

/-- `AUTO_EXIT_POLL` (R10): the condition polled before the auto-reset that ends a burst. -/
inductive ExitPoll where
  | commandReady
  | autoCondition
  deriving DecidableEq, Repr

/-- The implementation parameters that R6, R8, R9 and R10 leave to the model as arguments. They are fixed
when the block is built and no request writes them (R38). They stand in State as plain data, so that a
statement about every state is a statement about every value of them. -/
structure Params where
  /-- `RETRY_LIMIT`, 0..65535 (R6). -/
  retryLimit : BitVec 16
  /-- `ADDR_SPACE`, at most 0x10000 (R8); the range starts at 1, and at 0 no layout is valid. -/
  addrSpace : Fin 0x10001
  /-- `CFG_ROWS` (R9). -/
  cfgRows : Byte
  /-- `CFG_COLS` (R9). -/
  cfgCols : Byte
  /-- `AUTO_EXIT_POLL` (R10). -/
  exitPoll : ExitPoll
  deriving DecidableEq, Repr

/-- `TEXT_BASE`: the constant a reset writes into the text base register (R7, R202). -/
def Config.textBase : Addr := 0x0002

/-- `TEXT_OFFSET`: what a text burst subtracts from each byte (R11, R186). -/
def Config.textOffset : Byte := 0x20

/-- `RETRY_LIMIT`'s default (R6). -/
def Config.retryLimit : BitVec 16 := 255

/-- `ADDR_SPACE`'s default (R8). -/
def Config.addrSpace : Fin 0x10001 := ⟨0x10000, by decide⟩

/-- `CFG_ROWS` has no default (R9, U17): the implementation decides. Assumption 3. -/
opaque Config.cfgRows : Byte

/-- `CFG_COLS` has no default (R9, U17): the implementation decides. Assumption 3. -/
opaque Config.cfgCols : Byte

/-- `T_SETTLE`, the adapter's settle delay (R11): open, and no rule depends on it (R330). Assumption 4. -/
opaque Config.settleDelay : Nat

/-- The parameters of the block at power-on: the defaults of R6, R8 and R10, and R9's open values. -/
def Config.params : Params where
  retryLimit := Config.retryLimit
  addrSpace := Config.addrSpace
  cfgRows := Config.cfgRows
  cfgCols := Config.cfgCols
  exitPoll := .commandReady

/-- FREE VALUE. The status byte the bus peer answers where nothing in State says it (R5, U1). Assumption 5. -/
opaque Config.freeStatus : Nat → Byte

/-- FREE VALUE. The byte a data read returns where nothing in State says it (R5, U2, U3). Assumption 5. -/
opaque Config.freeData : Nat → Byte

/-- FREE VALUE. The argument of a command the reference device carries out with fewer than two latched
bytes (R70 names no value). Assumption 6. -/
opaque Config.freeLatch : Nat → Addr

/-- FREE VALUE. Which of several pending requests the engine takes (R5, R305, U14). Assumption 7. -/
opaque Config.freeGrant : Nat → Nat

end Sys2Proof
end

