-- ==== Sys2Proof/Syntax.lean ====
section
/-! DEFINITION. The instructions: the ten host requests of 44_control_surface.md and the ten bus commands of
41_transfer.md rules R167 to R176, one constructor for each row of spec/opcode_table.json; and the two forms an
instruction is spelled in, a request pair (R97) and a command with the data bytes sent before it (R102). -/

namespace Sys2Proof

/-- `ENTRY_MODE` (R27): `Text` (0) or `Graphics` (1). -/
inductive EntryMode where
  | text
  | graphics
  deriving DecidableEq, Repr

/-- A display flag, named by its bit of `DISPLAY_MODE` (R25, R94). -/
inductive Flag where
  | blink
  | cursor
  | text
  | graphics
  deriving DecidableEq, Repr

/-- A display-memory region (R62, R94). -/
inductive Region where
  | text
  | graphics
  deriving DecidableEq, Repr

/-- A status condition a poll can wait for (R131, R132, R133). -/
inductive PollCond where
  | commandReady
  | autoWriteReady
  | autoReadReady
  deriving DecidableEq, Repr

/-- The instructions: one constructor per row of spec/opcode_table.json. -/
inductive Instr where
  /-- `OPEN` (R251). -/
  | openReq
  /-- `WRITE` with `ARG = n` and its payload (R252, R97). -/
  | write (n : BitVec 16) (payload : List Byte)
  /-- `READ` with `ARG = n` (R253). -/
  | read (n : BitVec 16)
  /-- `CTRL.RESET rows, cols` (R254). -/
  | ctrlReset (rows cols : Byte)
  /-- `CTRL.SETENTRY` (R255). -/
  | ctrlSetEntry (m : EntryMode)
  /-- `CTRL.SETADP addr` (R256). -/
  | ctrlSetAdp (a : Addr)
  /-- `CTRL.SETFLAG flag, ON | OFF` (R257). -/
  | ctrlSetFlag (f : Flag) (on : Bool)
  /-- `CTRL.SETBASE region, addr` (R258). -/
  | ctrlSetBase (r : Region) (a : Addr)
  /-- `CTRL.CLEAR region` (R259). -/
  | ctrlClear (r : Region)
  /-- `CTRL.GETSTATUS` (R260). -/
  | ctrlGetStatus
  /-- `SET_ADP(a)` (R167). -/
  | setAdp (a : Addr)
  /-- `TXT_HOME(a)` (R168). -/
  | txtHome (a : Addr)
  /-- `TXT_AREA(p)` (R169). -/
  | txtArea (p : BitVec 16)
  /-- `GFX_HOME(a)` (R170). -/
  | gfxHome (a : Addr)
  /-- `GFX_AREA(p)` (R171). -/
  | gfxArea (p : BitVec 16)
  /-- `MODE_XOR` (R172). -/
  | modeXor
  /-- `DISPLAY_MODE(m)`, `m[3:0]` (R173). -/
  | displayMode (m : BitVec 4)
  /-- `AUTO_WRITE` (R174). -/
  | autoWrite
  /-- `AUTO_READ` (R175). -/
  | autoRead
  /-- `AUTO_RESET(cond)` (R176). -/
  | autoReset (cond : PollCond)
  deriving DecidableEq, Repr

/-- What a host submits: the request word and its payload (R90, R97). -/
structure Submission where
  word : Word
  payload : List Byte
  deriving DecidableEq, Repr

/-- What the dispatch mux is given: a command byte, the data bytes sent before it in order (R102), and the
condition its strobe polls (R159). -/
structure BusFrame where
  op : Byte
  data : List Byte
  cond : PollCond
  deriving DecidableEq, Repr

/-- The two spellings of an instruction: on the host request port or on the mux's command port. -/
inductive Frame where
  | request (r : Submission)
  | command (c : BusFrame)
  deriving DecidableEq, Repr

end Sys2Proof
end

