-- ==== Sys2Proof/Machine/State.lean ====
section
/-! DEFINITION. The state of the machine as plain data: the engine's registers (10_state.md), its control state,
its bus port and the peer behind it, and its host request port; the reasons a step can stop; the state at
power-on. INVENTORY.md lists each field with its rule. -/

namespace Sys2Proof.Machine

/-! ### The engine's registers -/

/-- `LIFE` (R22). Its codes are 0, 1 and 2; the value 3 is never written and has no constructor (U12). -/
inductive Life where
  | uninitialized
  | configuring
  | ready
  deriving DecidableEq, Repr

/-- The registers the requests read and write (R22 to R27). A register's `held` mark is false while the register
holds `⊥` (R35); its value field is then a value the model names and no rule reads (assumption 1). -/
structure Regs where
  /-- `LIFE` (R22). -/
  life : Life
  /-- `ROWS` (R23). -/
  rows : Byte
  /-- `COLS` (R23). -/
  cols : Byte
  /-- `ROW_WIDTH` (R23). -/
  rowWidth : BitVec 16
  /-- `TEXT_BASE_REG` (R23). -/
  textBase : Addr
  /-- `GFX_BASE` (R23). -/
  gfxBase : Addr
  /-- `DISPLAY_MODE` (R25). -/
  displayMode : Byte
  /-- `ADP_SHADOW` (R26). -/
  adpShadow : Addr
  /-- `ENTRY_MODE` (R27). -/
  entryMode : EntryMode
  /-- The five layout registers hold a value (R35). -/
  layoutHeld : Bool
  /-- `DISPLAY_MODE` holds a value (R35). -/
  displayModeHeld : Bool
  /-- `ADP_SHADOW` holds a value (R35). -/
  adpShadowHeld : Bool
  deriving DecidableEq, Repr

/-- The engine's control state. Between requests it is idle: R21, R29, R30 and R31 give every field a value only
while a composite operation is in progress. -/
structure Ctl where
  /-- The bus lock (R31). -/
  lock : Bool
  /-- The current step (R21): `none` is idle, `some n` is after `n` bus cycles and register writes. -/
  pos : Option Nat
  /-- The retry counter (R29): a value only inside a poll. -/
  retry : Option (BitVec 16)
  /-- The burst counter (R30): a value only inside a burst. -/
  burst : Option (BitVec 16)
  deriving DecidableEq, Repr

/-- The control state between requests (R21, R29, R30, R31). -/
def Ctl.idle : Ctl := ⟨false, none, none, none⟩

/-! ### The bus port -/

/-- `DIR` (R32). -/
inductive Dir where
  | output
  | input
  deriving DecidableEq, Repr

/-- `CD`, the command/data select (R32). -/
inductive Select where
  | data
  | command
  deriving DecidableEq, Repr

/-- The level of a strobe (R32). -/
inductive Level where
  | asserted
  | deasserted
  deriving DecidableEq, Repr

/-- The outputs of the bus port (R32). -/
structure Lines where
  /-- `DIR`. -/
  dir : Dir
  /-- `DATA_OUT`. -/
  dataOut : Byte
  /-- `CD`. -/
  cd : Select
  /-- `WR`. -/
  wr : Level
  /-- `RD`. -/
  rd : Level
  /-- `CE`. -/
  ce : Level
  deriving DecidableEq, Repr

/-- A call of the bus adapter's interface (R150). `sampleData` carries the byte it returned. -/
inductive AdapterCall where
  | setDirection (d : Dir)
  | driveData (v : Byte)
  | sampleData (v : Byte)
  | setCD (c : Select)
  | setWR (l : Level)
  | setRD (l : Level)
  | setCE (l : Level)
  | settle
  deriving DecidableEq, Repr

/-- A bus cycle with the byte it carried (R151). -/
inductive BusCycle where
  /-- `S→s`. -/
  | statusRead (s : Byte)
  /-- `D→v`. -/
  | dataRead (v : Byte)
  /-- `D←v`. -/
  | dataWrite (v : Byte)
  /-- `C←op`. -/
  | commandWrite (op : Byte)
  deriving DecidableEq, Repr

/-- One status byte, decoded (R130). Transient: no field of State has this type (R28). -/
structure DeviceStatus where
  commandDone : Bool
  readWriteReady : Bool
  autoReadReady : Bool
  autoWriteReady : Bool
  controllerReady : Bool
  blinkPhase : Bool
  deriving DecidableEq, Repr

/-! ### The bus peer -/

/-- Display memory (R61): address and byte, addresses strictly rising, no entry equal to what an unlisted
address reads as (`Memory.wf`). -/
abbrev Memory := List Host.Cell

/-- `AUTO` of the reference device (R70). -/
inductive AutoMode where
  | off
  | write
  | read
  deriving DecidableEq, Repr

/-- The reference device (R70). -/
structure RefDevice where
  /-- `MEM`. -/
  mem : Memory
  /-- `ADP`, the controller's own address pointer. -/
  adp : Addr
  /-- `AUTO`. -/
  auto : AutoMode
  /-- `LATCH`, at most two bytes. -/
  latch : List Byte
  /-- `TH`. -/
  th : Addr
  /-- `TA`. -/
  ta : BitVec 16
  /-- `GH`. -/
  gh : Addr
  /-- `GA`. -/
  ga : BitVec 16
  /-- `MODE`. -/
  mode : Byte
  /-- `DMODE`. -/
  dmode : Byte
  deriving DecidableEq, Repr

/-- The bus peer as the engine meets it (R5, R34): the bytes it will answer, as far as State says them, and the
reference device where one is attached. -/
structure Peer where
  /-- The bytes the next status reads answer, in order (a scripted oracle, R71). -/
  statusScript : List Byte
  /-- What a status read answers once the script is used up (`READY` is 0x0F, `NEVER` is 0x00, R71); with `none`
  each answer is a free value. -/
  statusConst : Option Byte
  /-- The bytes the next data reads answer where the reference device does not, in order. -/
  dataScript : List Byte
  /-- The reference device is the peer. -/
  attached : Bool
  /-- The reference device's state. -/
  device : RefDevice
  /-- How many free values have been drawn for the peer. -/
  draws : Nat
  deriving DecidableEq, Repr

/-- The bus side: the outputs (R32), the bus cycles issued so far, oldest first (the observation of R151), and
the peer. -/
structure Bus where
  lines : Lines
  trace : List BusCycle
  peer : Peer
  deriving DecidableEq, Repr

/-! ### The host request port -/

/-- The result codes (R99). -/
inductive Code where
  | ok
  | handshakeTimeout
  | notReady
  | unsupportedOperation
  | invalidLayout
  deriving DecidableEq, Repr

/-- A response: `CODE`, `COUNT` and `DATA` (R98). -/
structure Response where
  code : Code
  count : BitVec 16
  data : List Byte
  deriving DecidableEq, Repr

/-- What the port shows its hosts: the response of a request (R98), or that a malformed pair was refused at the
port (R97). -/
inductive PortEvent where
  | response (r : Response)
  | refusedPair
  deriving DecidableEq, Repr

/-- The request port and the mux's command port. -/
structure Port where
  /-- The requests submitted by the hosts and not yet taken (R304). -/
  pending : List Submission
  /-- Which of several pending requests is taken next, as far as State says it (R305). -/
  grants : List Nat
  /-- How many free values have been drawn for the choice among pending requests. -/
  picks : Nat
  /-- What the port has shown, oldest first (R98, R97). -/
  log : List PortEvent
  /-- A command given to the dispatch mux by itself (assumption 8). -/
  mux : Option BusFrame
  /-- The result that the last command given to the mux by itself returned (assumption 8). -/
  muxResult : Option Code
  deriving DecidableEq, Repr

end Sys2Proof.Machine

namespace Sys2Proof.Machine

/-! ### The state -/

/-- The state of the machine. -/
structure State where
  params : Params
  regs : Regs
  ctl : Ctl
  bus : Bus
  port : Port
  deriving DecidableEq, Repr

/-- Why the machine stops with a fault. The engine has none: an error ends its request with a response and the
machine goes on (R297), and no other failure exists (R290). -/
inductive Fault where
  deriving DecidableEq, Repr

/-- Why the machine has no meaning for what it was given. -/
inductive Refusal where
  /-- Raised by exec's arm of an instruction that has no meaning yet; no arm is left so. Safe: the machine stops. -/
  | notModelled (mnemonic : String)
  /-- Raised by step when the mux's command port holds a command byte, or a command form, outside R102: a model
  refuses it (R104, U10). No host request leads to it. Safe: the machine stops. -/
  | noSuchCommand (op : Byte)
  deriving DecidableEq, Repr

/-! ### Power-on -/

/-- The registers at power-on (R35): `LIFE`, `ENTRY_MODE` and the `⊥` marks are the spec's; the values beneath
`⊥` are assumption 1. -/
def Regs.reset : Regs where
  life := .uninitialized
  rows := 0
  cols := 0
  rowWidth := 0
  textBase := 0
  gfxBase := 0
  displayMode := 0
  adpShadow := 0
  entryMode := .graphics
  layoutHeld := false
  displayModeHeld := false
  adpShadowHeld := false

/-- The idle outputs (R32, R35); `DATA_OUT` is unspecified there and assumption 2 names its value. -/
def Lines.reset : Lines := ⟨.output, 0, .data, .deasserted, .deasserted, .deasserted⟩

/-- The reference device's fields while it is not attached (assumption 9). -/
def RefDevice.reset : RefDevice := ⟨[], 0, .off, [], 0, 0, 0, 0, 0, 0⟩

/-- The peer at power-on is unknown (R34, R35): every answer is a free value. -/
def Peer.reset : Peer where
  statusScript := []
  statusConst := none
  dataScript := []
  attached := false
  device := RefDevice.reset
  draws := 0

/-- No request is pending and nothing has been answered (R320: the engine waits for its first request). -/
def Port.reset : Port := ⟨[], [], 0, [], none, none⟩

/-- The machine at power-on (R35, R320). -/
def State.reset : State where
  params := Config.params
  regs := Regs.reset
  ctl := Ctl.idle
  bus := ⟨Lines.reset, [], Peer.reset⟩
  port := Port.reset

end Sys2Proof.Machine
end

