-- ==== Sys2Proof/Machine/Flags.lean ====
section
/-! DEFINITION. The flags: the status byte's decoding and the three conditions a poll tests (40_handshake.md), the
codes of the named registers, and the display-mode byte (10_state.md rule R25, 30_encoding.md rule R101). -/

namespace Sys2Proof.Machine

/-- `decode(s)` (R130, at the bit positions of R100); bits 4 and 6 are not decoded. -/
def decodeStatus (s : Byte) : DeviceStatus where
  commandDone := s.getLsbD 0
  readWriteReady := s.getLsbD 1
  autoReadReady := s.getLsbD 2
  autoWriteReady := s.getLsbD 3
  controllerReady := s.getLsbD 5
  blinkPhase := s.getLsbD 7

/-- The condition holds of a decoded status (R131, R132, R133). -/
def condHolds (c : PollCond) (st : DeviceStatus) : Bool :=
  match c with
  | .commandReady => st.commandDone && st.readWriteReady
  | .autoWriteReady => st.autoWriteReady
  | .autoReadReady => st.autoReadReady

/-- A status byte meets a condition. -/
def meets (c : PollCond) (s : Byte) : Bool := condHolds c (decodeStatus s)

/-- The code of `LIFE` (R22). -/
def lifeCode : Life → BitVec 2
  | .uninitialized => 0
  | .configuring => 1
  | .ready => 2

/-- The code of `ENTRY_MODE` (R27). -/
def entryCode : EntryMode → BitVec 1
  | .text => 0
  | .graphics => 1

/-- The number of a result code (R99). -/
def codeNumber : Code → BitVec 3
  | .ok => 0
  | .handshakeTimeout => 1
  | .notReady => 2
  | .unsupportedOperation => 3
  | .invalidLayout => 4

/-- A flag's bit in `DISPLAY_MODE` (R25). -/
def flagBit : Flag → Nat
  | .blink => 0
  | .cursor => 1
  | .text => 2
  | .graphics => 3

/-- `DISPLAY_MODE` as it reads: bits 7:4 are hardwired 0 (R25). -/
def modeByte (m : Byte) : Byte := m &&& 0x0F

/-- `DISPLAY_MODE` with bit `f` set to `on` (R209). -/
def withFlag (m : Byte) (f : Flag) (on : Bool) : Byte :=
  if on then m ||| (1#8 <<< flagBit f) else m &&& ~~~(1#8 <<< flagBit f)

/-- The mode command byte, `0x90 | m[3:0]` (R101, R173). -/
def modeCommand (m : BitVec 4) : Byte := 0x90#8 ||| m.setWidth 8

/-- The condition polled before the auto-reset that ends a burst whose own condition is `own` (R184). -/
def exitCond (p : ExitPoll) (own : PollCond) : PollCond :=
  match p with
  | .commandReady => .commandReady
  | .autoCondition => own

end Sys2Proof.Machine
end

