-- ==== Sys2Proof/Machine/Operands.lean ====
section
/-! DEFINITION. The operands the requests compute: the two bytes of a 16-bit value (20_memory.md rule R65), the
byte a text burst sends (42_auto_burst.md rule R186), and the layout arithmetic and its check, exact over the
naturals (43_layout_mode.md rules R200 to R205). -/

namespace Sys2Proof.Machine

/-- `lo8(a)` (00_scope.md §4). -/
def lo8 (a : Addr) : Byte := a.extractLsb' 0 8

/-- `hi8(a)` (00_scope.md §4). -/
def hi8 (a : Addr) : Byte := a.extractLsb' 8 8

/-- The byte a write burst puts on the bus: less 0x20 modulo 256 in text mode, unchanged otherwise (R186, R187). -/
def sentByte (text : Bool) (b : Byte) : Byte := if text then b - Config.textOffset else b

/-- `rw = ceil(c / 8) * 8` (R201). -/
def rowWidthOf (c : Nat) : Nat := (c + 7) / 8 * 8

/-- `gb = tb + r*c + 2*c` with `tb = TEXT_BASE` (R202, R203). -/
def gfxBaseOf (r c : Nat) : Nat := Config.textBase.toNat + r * c + 2 * c

/-- `TEXT_LEN = r * c` (R204, R62). -/
def textLen (r c : Nat) : Nat := r * c

/-- `GFX_LEN = 2 * r * rw * 8` (R204, R62). -/
def gfxLen (r rw : Nat) : Nat := 2 * r * rw * 8

/-- `Valid(tb, gb, r, c)` for an address space of `space` bytes, conditions 1 to 5 in order (R205). -/
abbrev LayoutValid (space tb gb r c : Nat) : Prop :=
  1 ≤ c ∧ tb < gb ∧ tb + textLen r c ≤ gb ∧ gb < space ∧ gb + gfxLen r (rowWidthOf c) ≤ space

/-- The layout check of a reset (R215). -/
abbrev ResetValid (p : Params) (r c : Byte) : Prop :=
  LayoutValid p.addrSpace.val Config.textBase.toNat (gfxBaseOf r.toNat c.toNat) r.toNat c.toNat

/-- `n` zero bytes (R214). -/
def zeros (n : Nat) : List Byte := List.replicate n 0

/-- A region's base address (R214, R62). -/
def regionBase (r : Regs) : Region → Addr
  | .text => r.textBase
  | .graphics => r.gfxBase

/-- A region's length, from the layout registers (R214, R62). -/
def regionLen (r : Regs) : Region → Nat
  | .text => textLen r.rows.toNat r.cols.toNat
  | .graphics => gfxLen r.rows.toNat r.rowWidth.toNat

end Sys2Proof.Machine
end

