-- ==== Sys2Proof/Machine/Peer.lean ====
section
/-! DEFINITION. Display memory and the bus peer: the reference device's answer to each bus cycle (20_memory.md
rule R70), and the oracle that answers where State does not say the byte (00_scope.md rule R5, R71). -/

namespace Sys2Proof.Machine

/-! ### Display memory -/

/-- What an address that the list leaves out reads as (assumption 9). -/
def Memory.unlisted : Byte := 0x00

/-- The byte at an address. -/
def Memory.read : Memory → Nat → Byte
  | [], _ => Memory.unlisted
  | (k, v) :: rest, a => if a = k then v else Memory.read rest a

/-- The memory with `b` at address `a`; a byte equal to what an unlisted address reads as is not listed. -/
def Memory.write : Memory → Nat → Byte → Memory
  | [], a, b => if b = Memory.unlisted then [] else [(a, b)]
  | (k, v) :: rest, a, b =>
    if a < k then if b = Memory.unlisted then (k, v) :: rest else (a, b) :: (k, v) :: rest
    else if a = k then if b = Memory.unlisted then rest else (a, b) :: rest
    else (k, v) :: Memory.write rest a b

/-- The canonical form: addresses of the display space (R61) strictly rising, no entry equal to what an unlisted
address reads as. -/
def Memory.wf : Memory → Bool
  | [] => true
  | (k, v) :: rest =>
    v != Memory.unlisted && decide (k < 0x10000) && rest.all (fun c => decide (k < c.1)) && Memory.wf rest

/-! ### The reference device -/

/-- `last2` (R70). -/
def lastTwo (l : List Byte) : List Byte := l.drop (l.length - 2)

/-- `a <- {LATCH[1], LATCH[0]}`, where two bytes are latched (R70: low byte sent first). -/
def latchedAddr : List Byte → Option Addr
  | [lo, hi] => some (hi ++ lo)
  | _ => none

/-- `DataWrite(v)` (R70). -/
def RefDevice.dataWrite (v : Byte) (d : RefDevice) : RefDevice :=
  match d.auto with
  | .write => { d with mem := Memory.write d.mem d.adp.toNat v, adp := d.adp + 1 }
  | .read | .off => { d with latch := lastTwo (d.latch ++ [v]) }

/-- The pointer's advance of a `DataRead` in auto-read mode (R70). -/
def RefDevice.dataRead (d : RefDevice) : RefDevice :=
  match d.auto with
  | .read => { d with adp := d.adp + 1 }
  | .write | .off => d

/-- The case table of `CommandWrite(op)` with the argument `a` (R70). -/
def RefDevice.carryOut (op : Byte) (a : Addr) (d : RefDevice) : RefDevice :=
  if op = 0x24 then { d with adp := a }
  else if op = 0x40 then { d with th := a }
  else if op = 0x41 then { d with ta := a }
  else if op = 0x42 then { d with gh := a }
  else if op = 0x43 then { d with ga := a }
  else if op.extractLsb' 4 4 = 0x8 then { d with mode := op }
  else if op.extractLsb' 4 4 = 0x9 then { d with dmode := op }
  else if op = 0xB0 then { d with auto := .write }
  else if op = 0xB1 then { d with auto := .read }
  else if op = 0xB2 then { d with auto := .off }
  else d

/-- `CommandWrite(op)` (R70): the case table, then `LATCH <- []`. -/
def RefDevice.commandWrite (op : Byte) (a : Addr) (d : RefDevice) : RefDevice :=
  { RefDevice.carryOut op a d with latch := [] }

/-! ### The peer -/

/-- The byte the next status read answers (R5, R71). -/
def Peer.statusAnswer (p : Peer) : Byte :=
  match p.statusScript with
  | b :: _ => b
  | [] =>
    match p.statusConst with
    | some b => b
    | none => Config.freeStatus p.draws

/-- The peer after a status read, which has no side effect on the controller (R68). -/
def Peer.afterStatusRead (p : Peer) : Peer :=
  match p.statusScript with
  | _ :: rest => { p with statusScript := rest }
  | [] =>
    match p.statusConst with
    | some _ => p
    | none => { p with draws := p.draws + 1 }

/-- The reference device answers data reads: it is attached and in auto-read mode (R70). -/
def Peer.deviceReads (p : Peer) : Bool := p.attached && p.device.auto == .read

/-- The byte the next data read returns (R70, R5): the device's where it reads, else any byte. -/
def Peer.dataAnswer (p : Peer) : Byte :=
  if p.deviceReads then Memory.read p.device.mem p.device.adp.toNat
  else
    match p.dataScript with
    | b :: _ => b
    | [] => Config.freeData p.draws

/-- The peer after a data read (R68, R70). -/
def Peer.afterDataRead (p : Peer) : Peer :=
  if p.deviceReads then { p with device := p.device.dataRead }
  else
    match p.dataScript with
    | _ :: rest => { p with dataScript := rest }
    | [] => { p with draws := p.draws + 1 }

/-- The peer after a data write (R68, R70). -/
def Peer.afterDataWrite (v : Byte) (p : Peer) : Peer :=
  if p.attached then { p with device := p.device.dataWrite v } else p

/-- The peer after a command write (R68, R70). An argument the device takes with fewer than two latched bytes is
a free value (assumption 6). -/
def Peer.afterCommandWrite (op : Byte) (p : Peer) : Peer :=
  if p.attached then
    { p with
      device := p.device.commandWrite op ((latchedAddr p.device.latch).getD (Config.freeLatch p.draws))
      draws := p.draws + 1 }
  else p

/-- The peer after a bus cycle. -/
def Peer.after (p : Peer) : BusCycle → Peer
  | .statusRead _ => p.afterStatusRead
  | .dataRead _ => p.afterDataRead
  | .dataWrite v => p.afterDataWrite v
  | .commandWrite op => p.afterCommandWrite op

end Sys2Proof.Machine
end

