-- ==== Sys2Proof/Machine/Ops.lean ====
section
/-! DEFINITION. The shared operations: the adapter calls and the four bus cycles (41_transfer.md rules R150 to
R156), the registers' writes, the sequencing of steps (60_exceptions.md rule R296), and taking a request,
answering it and returning to idle. The engine has no trap: a request that fails is answered with its code, saves
nothing and enters no handler (R297), and there is no return from one (R298). -/

namespace Sys2Proof.Machine

/-! ### Bus cycles -/

/-- One adapter call on the outputs (R150); `sampleData` and `settle` change no line. -/
def Lines.call (l : Lines) : AdapterCall → Lines
  | .setDirection d => { l with dir := d }
  | .driveData v => { l with dataOut := v }
  | .sampleData _ => l
  | .setCD c => { l with cd := c }
  | .setWR v => { l with wr := v }
  | .setRD v => { l with rd := v }
  | .setCE v => { l with ce := v }
  | .settle => l

/-- The adapter calls of a bus cycle, in order (R152, R153, R154, R155). -/
def BusCycle.calls : BusCycle → List AdapterCall
  | .statusRead s =>
    [.setDirection .input, .setCD .command, .setRD .asserted, .setCE .asserted, .settle, .sampleData s,
     .setCE .deasserted, .setRD .deasserted, .setCD .data, .setDirection .output]
  | .dataRead v =>
    [.setDirection .input, .setRD .asserted, .setCE .asserted, .settle, .sampleData v,
     .setCE .deasserted, .setRD .deasserted, .setDirection .output]
  | .dataWrite v =>
    [.setCD .data, .driveData v, .setWR .asserted, .setCE .asserted, .settle, .setCE .deasserted,
     .setWR .deasserted]
  | .commandWrite op =>
    [.setCD .command, .driveData op, .setWR .asserted, .setCE .asserted, .settle, .setCE .deasserted,
     .setWR .deasserted, .setCD .data]

/-- The outputs are at their idle values (R32, R156); `DATA_OUT` may hold any byte. -/
def Lines.idle (l : Lines) : Bool :=
  l.dir == .output && l.cd == .data && l.wr == .deasserted && l.rd == .deasserted && l.ce == .deasserted

/-- One bus cycle on the bus side: its calls on the outputs, itself on the trace, and the peer's reaction. -/
def Bus.cycle (b : Bus) (c : BusCycle) : Bus where
  lines := c.calls.foldl Lines.call b.lines
  trace := b.trace ++ [c]
  peer := b.peer.after c

/-- The current step moves on by one (R21). -/
def State.tick (s : State) : State := { s with ctl := { s.ctl with pos := s.ctl.pos.map (· + 1) } }

/-- One bus cycle of the engine. -/
def State.cycle (c : BusCycle) (s : State) : State := { s with bus := s.bus.cycle c }.tick

/-- `BusStatusRead()` (R152): the byte is the peer's answer. -/
def busStatusRead (s : State) : State × Byte :=
  (s.cycle (.statusRead s.bus.peer.statusAnswer), s.bus.peer.statusAnswer)

/-- `BusDataRead()` (R153). -/
def busDataRead (s : State) : State × Byte :=
  (s.cycle (.dataRead s.bus.peer.dataAnswer), s.bus.peer.dataAnswer)

/-- `BusDataWrite(v)` (R154). -/
def busDataWrite (v : Byte) (s : State) : State := s.cycle (.dataWrite v)

/-- `BusCommandWrite(op)` (R155). -/
def busCommandWrite (op : Byte) (s : State) : State := s.cycle (.commandWrite op)

/-! ### Registers -/

/-- A write of one of the engine's registers, which moves the current step on (R21). -/
def State.writeRegs (f : Regs → Regs) (s : State) : State := { s with regs := f s.regs }.tick

/-- `LIFE <- v` (R22). -/
def Regs.setLife (v : Life) (r : Regs) : Regs := { r with life := v }

/-- `ROWS <- r` (R215, R226). -/
def Regs.setRows (v : Byte) (r : Regs) : Regs := { r with rows := v }

/-- `COLS <- c` (R215, R226). -/
def Regs.setCols (v : Byte) (r : Regs) : Regs := { r with cols := v }

/-- `ROW_WIDTH <- rw` (R215, R226). -/
def Regs.setRowWidth (v : BitVec 16) (r : Regs) : Regs := { r with rowWidth := v }

/-- `TEXT_BASE_REG <- tb` (R215, R226). -/
def Regs.setTextBase (v : Addr) (r : Regs) : Regs := { r with textBase := v }

/-- `GFX_BASE <- gb` of a reset (R215, R226): the last of the five layout registers, which all hold a value now. -/
def Regs.setGfxBase (v : Addr) (r : Regs) : Regs := { r with gfxBase := v, layoutHeld := true }

/-- The base register of a region `<- a` (R212). -/
def Regs.setBase (region : Region) (a : Addr) (r : Regs) : Regs :=
  match region with
  | .text => { r with textBase := a }
  | .graphics => { r with gfxBase := a }

/-- `DISPLAY_MODE <- m`; bits 7:4 are hardwired 0 (R25). -/
def Regs.setMode (m : Byte) (r : Regs) : Regs := { r with displayMode := modeByte m, displayModeHeld := true }

/-- `DISPLAY_MODE <- old`, where `old` may be `⊥` (R208). -/
def Regs.restoreMode (old : Regs) (r : Regs) : Regs :=
  { r with displayMode := old.displayMode, displayModeHeld := old.displayModeHeld }

/-- `ADP_SHADOW <- a` (R211). -/
def Regs.setShadow (a : Addr) (r : Regs) : Regs := { r with adpShadow := a, adpShadowHeld := true }

/-- `ENTRY_MODE <- m` (R255). -/
def Regs.setEntry (m : EntryMode) (r : Regs) : Regs := { r with entryMode := m }

/-! ### Transient counters -/

/-- The retry counter starts at 0 (R134). -/
def State.startPoll (s : State) : State := { s with ctl := { s.ctl with retry := some 0 } }

/-- One more status read that did not meet the condition (R134). -/
def State.countRetry (s : State) : State := { s with ctl := { s.ctl with retry := s.ctl.retry.map (· + 1) } }

/-- The retry counter has no value outside a poll (R29). -/
def State.endPoll (s : State) : State := { s with ctl := { s.ctl with retry := none } }

/-- `k <- 0` (R181). -/
def State.startBurst (s : State) : State := { s with ctl := { s.ctl with burst := some 0 } }

/-- `k <- k + 1` (R181). -/
def State.countByte (s : State) : State := { s with ctl := { s.ctl with burst := s.ctl.burst.map (· + 1) } }

/-- `k`, the count a burst reports (R30). -/
def State.burstCount (s : State) : BitVec 16 := s.ctl.burst.getD 0

/-- The burst counter has no value outside a burst (R30). -/
def State.endBurst (s : State) : State := { s with ctl := { s.ctl with burst := none } }

/-! ### Sequencing -/

/-- A step of a composite operation: the state it leaves, and `ok` or the error it raises. -/
abbrev Action := State → State × Code

/-- Carry out `f`, then `g` if `f` raised nothing (R296). -/
def Action.andThen (f g : Action) : Action := fun s =>
  match f s with
  | (t, .ok) => g t
  | (t, e) => (t, e)

/-- Carry out the steps in order; the first that raises ends the sequence (R296). -/
def inOrder : List Action → Action
  | [] => fun s => (s, .ok)
  | f :: rest => Action.andThen f (inOrder rest)

/-- A register write as a step, which raises nothing. -/
def writing (f : Regs → Regs) : Action := fun s => (s.writeRegs f, .ok)

/-! ### Taking a request and answering it -/

/-- The lock is set and the current step is the first (R250, R21). -/
def State.acquire (s : State) : State := { s with ctl := ⟨true, some 0, none, none⟩ }

/-- The lock is cleared and the engine is idle (R297, R306). -/
def State.release (s : State) : State := { s with ctl := Ctl.idle }

/-- The response is sent (R98). -/
def State.respond (r : Response) (s : State) : State :=
  { s with port := { s.port with log := s.port.log ++ [.response r] } }

/-- A response with a code alone: `(code, 0, [])`. -/
def Response.plain (c : Code) : Response := ⟨c, 0, []⟩

/-- Set the lock, carry out the request, send the response, clear the lock (R250). Every error is answered here
and nowhere else: the response is sent, the lock is clear, nothing else is saved or changed (R297, R306). -/
def answer (body : State → State × Response) (s : State) : Host.Outcome State Fault Refusal :=
  .next ((body s.acquire).1.respond (body s.acquire).2).release

/-- The lifecycle check of the prologue (R250, R292): carry out the request only when `LIFE = Ready`. -/
def whenReady (body : State → State × Response) (s : State) : State × Response :=
  if s.regs.life = .ready then body s else (s, Response.plain .notReady)

/-- A request whose rule raises or returns `(Ok, 0, [])`. -/
def plainResult (a : Action) (s : State) : State × Response := ((a s).1, Response.plain (a s).2)

/-- A command given to the mux by itself: a full `sendCommand` is a composite operation of its own (R31), whose
result goes to the port's `muxResult` (assumption 8). -/
def runCommand (a : Action) (s : State) : Host.Outcome State Fault Refusal :=
  .next { (a s.acquire).1.release with
    port := { (a s.acquire).1.port with muxResult := some (a s.acquire).2 } }

/-- A word that decodes as unsupported: answered before any check of `LIFE`, with no bus cycle (R261, R293). -/
def rejectUnsupported (s : State) : State :=
  ((s.acquire).respond (Response.plain .unsupportedOperation)).release

/-- A malformed pair is refused at the request port: it spells no request, so the engine does not take it, and it
gets no response (R97; assumption 10). -/
def refusePair (s : State) : State := { s with port := { s.port with log := s.port.log ++ [.refusedPair] } }

end Sys2Proof.Machine
end

