-- ==== Sys2Proof/Machine/Handshake.lean ====
section
/-! DEFINITION. The status-polling handshake controller (40_handshake.md). -/

namespace Sys2Proof.Machine

/-- The loop of `pollUntil` with `n` status reads left in the budget (R134). Each status byte comes from a read of
this poll and is dropped after its one test (R138, R28). -/
def pollLoop (c : PollCond) : Nat → Action
  | 0 => fun s => (s, .handshakeTimeout)
  | n + 1 => fun s =>
    match busStatusRead s with
    | (t, b) => if meets c b then (t, .ok) else pollLoop c n t.countRetry

/-- `pollUntil(cond)` (R134): at most `RETRY_LIMIT` status reads, none with a limit of 0. -/
def pollUntil (c : PollCond) : Action := fun s =>
  match pollLoop c s.params.retryLimit.toNat s.startPoll with
  | (t, e) => (t.endPoll, e)

end Sys2Proof.Machine
end

