-- ==== Sys2Proof/Machine/Transfer.lean ====
section
/-! DEFINITION. The transfer primitives and the command/data dispatch mux (41_transfer.md). Every step re-polls,
and a poll that times out ends the command before its strobe (R160, R165). -/

namespace Sys2Proof.Machine

/-- `writeByte(v)` (R157). -/
def writeByte (v : Byte) : Action :=
  Action.andThen (pollUntil .commandReady) (fun s => (busDataWrite v s, .ok))

/-- `readByte()` (R158): the byte read, where the poll succeeded. No request uses it. -/
def readByte (s : State) : State × Code × Option Byte :=
  match pollUntil .commandReady s with
  | (t, .ok) => ((busDataRead t).1, .ok, some (busDataRead t).2)
  | (t, e) => (t, e, none)

/-- `strobeCommand(op, cond)` (R159). -/
def strobeCommand (op : Byte) (cond : PollCond) : Action :=
  Action.andThen (pollUntil cond) (fun s => (busCommandWrite op s, .ok))

/-- The data of a command (R160). -/
inductive CommandData where
  | none
  | one (d1 : Byte)
  | two (d1 d2 : Byte)
  | addr (a : Addr)
  deriving DecidableEq, Repr

/-- The data bytes in the order they are sent; a 16-bit value goes low byte first (R160, R164, R65). -/
def CommandData.bytes : CommandData → List Byte
  | .none => []
  | .one d1 => [d1]
  | .two d1 d2 => [d1, d2]
  | .addr a => [lo8 a, hi8 a]

/-- `sendCommand(op, data)` (R160): each data byte by `writeByte`, then the strobe, whose poll condition is
ready-for-command except at the end of a burst (R159, R176). -/
def sendCommand (op : Byte) (data : CommandData) (cond : PollCond := .commandReady) : Action :=
  inOrder (data.bytes.map writeByte ++ [strobeCommand op cond])

/-- `sendCommand0(op)` (R161). -/
def sendCommand0 (op : Byte) : Action := sendCommand op .none

/-- `sendCommand1(op, d1)` (R162). No request uses it (R103). -/
def sendCommand1 (op d1 : Byte) : Action := sendCommand op (.one d1)

/-- `sendCommand2(op, d1, d2)` (R163). -/
def sendCommand2 (op d1 d2 : Byte) : Action := sendCommand op (.two d1 d2)

/-- `sendCommandAddr(op, a)` (R164). -/
def sendCommandAddr (op : Byte) (a : Addr) : Action := sendCommand op (.addr a)

/-! ### The ten commands the mux emits (R166) -/

/-- `SET_ADP(a)` (R167). -/
def muxSetAdp (a : Addr) : Action := sendCommandAddr 0x24 a

/-- `TXT_HOME(a)` (R168). -/
def muxTxtHome (a : Addr) : Action := sendCommandAddr 0x40 a

/-- `TXT_AREA(p)` (R169). -/
def muxTxtArea (p : BitVec 16) : Action := sendCommandAddr 0x41 p

/-- `GFX_HOME(a)` (R170). -/
def muxGfxHome (a : Addr) : Action := sendCommandAddr 0x42 a

/-- `GFX_AREA(p)` (R171). -/
def muxGfxArea (p : BitVec 16) : Action := sendCommandAddr 0x43 p

/-- `MODE_XOR` (R172). -/
def muxModeXor : Action := sendCommand0 0x81

/-- `DISPLAY_MODE(m)` (R173). -/
def muxDisplayMode (m : BitVec 4) : Action := sendCommand0 (modeCommand m)

/-- `AUTO_WRITE` (R174). -/
def muxAutoWrite : Action := sendCommand0 0xB0

/-- `AUTO_READ` (R175). -/
def muxAutoRead : Action := sendCommand0 0xB1

/-- `AUTO_RESET(cond)` (R176). -/
def muxAutoReset (cond : PollCond) : Action := sendCommand 0xB2 .none cond

end Sys2Proof.Machine
end

