-- ==== Sys2Proof/Machine/Commands.lean ====
section
/-! DEFINITION. The meanings of the ten bus commands, each given to the dispatch mux by itself (41_transfer.md
rules R167 to R176; assumption 8). None of them writes an engine register (R166). -/

namespace Sys2Proof.Machine

/-- `SET_ADP` (R167). -/
def execSetAdp (a : Addr) (s : State) : Host.Outcome State Fault Refusal := runCommand (muxSetAdp a) s

/-- `TXT_HOME` (R168). -/
def execTxtHome (a : Addr) (s : State) : Host.Outcome State Fault Refusal := runCommand (muxTxtHome a) s

/-- `TXT_AREA` (R169). -/
def execTxtArea (p : BitVec 16) (s : State) : Host.Outcome State Fault Refusal := runCommand (muxTxtArea p) s

/-- `GFX_HOME` (R170). -/
def execGfxHome (a : Addr) (s : State) : Host.Outcome State Fault Refusal := runCommand (muxGfxHome a) s

/-- `GFX_AREA` (R171). -/
def execGfxArea (p : BitVec 16) (s : State) : Host.Outcome State Fault Refusal := runCommand (muxGfxArea p) s

/-- `MODE_XOR` (R172). -/
def execModeXor (s : State) : Host.Outcome State Fault Refusal := runCommand muxModeXor s

/-- `DISPLAY_MODE` (R173). -/
def execDisplayMode (m : BitVec 4) (s : State) : Host.Outcome State Fault Refusal :=
  runCommand (muxDisplayMode m) s

/-- `AUTO_WRITE` (R174). -/
def execAutoWrite (s : State) : Host.Outcome State Fault Refusal := runCommand muxAutoWrite s

/-- `AUTO_READ` (R175). -/
def execAutoRead (s : State) : Host.Outcome State Fault Refusal := runCommand muxAutoRead s

/-- `AUTO_RESET` (R176). -/
def execAutoReset (cond : PollCond) (s : State) : Host.Outcome State Fault Refusal :=
  runCommand (muxAutoReset cond) s

end Sys2Proof.Machine
end

