-- ==== Sys2Proof/Machine/Burst.lean ====
section
/-! DEFINITION. The auto-burst transfer framer (42_auto_burst.md). -/

namespace Sys2Proof.Machine

/-- The body of a write burst (R181): a poll and a data write for each byte, ending at the first poll that times
out (R185). -/
def writeBody (text : Bool) : List Byte → Action
  | [] => fun s => (s, .ok)
  | b :: rest => fun s =>
    match pollUntil .autoWriteReady s with
    | (t, .ok) => writeBody text rest (busDataWrite (sentByte text b) t).countByte
    | (t, e) => (t, e)

/-- The body of a read burst (R182): the bytes read, in order. -/
def readBody : Nat → State → State × Code × List Byte
  | 0, s => (s, .ok, [])
  | n + 1, s =>
    match pollUntil .autoReadReady s with
    | (t, .ok) =>
      match readBody n (busDataRead t).1.countByte with
      | (u, e, out) => (u, e, (busDataRead t).2 :: out)
    | (t, e) => (t, e, [])

/-- The exit of a burst after a body that ended with `e` (R184, R189): the auto-reset always runs, and a timeout of
its poll is the burst's error. The count is the one the body reached. -/
def burstExit (own : PollCond) (e : Code) (out : List Byte) (s : State) : State × Response :=
  match muxAutoReset (exitCond s.params.exitPoll own) s with
  | (t, .ok) => (t.endBurst, ⟨e, s.burstCount, out⟩)
  | (t, e') => (t.endBurst, ⟨e', s.burstCount, out⟩)

/-- `burstWrite(bytes, text)` (R181, R183, R188). -/
def burstWrite (bytes : List Byte) (text : Bool) (s : State) : State × Response :=
  if bytes = [] then (s, Response.plain .ok)
  else
    match muxAutoWrite s with
    | (t, .ok) =>
      match writeBody text bytes t.startBurst with
      | (u, e) => burstExit .autoWriteReady e [] u
    | (t, e) => (t, Response.plain e)

/-- `burstRead(N)` (R182, R183, R188). -/
def burstRead (n : Nat) (s : State) : State × Response :=
  if n = 0 then (s, Response.plain .ok)
  else
    match muxAutoRead s with
    | (t, .ok) =>
      match readBody n t.startBurst with
      | (u, e, out) => burstExit .autoReadReady e out u
    | (t, e) => (t, Response.plain e)

end Sys2Proof.Machine
end

