-- ==== Sys2Proof/Machine/Layout.lean ====
section
/-! DEFINITION. The mode register, the address pointer and base addresses, the clears, and the initialization
sequencer (43_layout_mode.md). -/

namespace Sys2Proof.Machine

/-- `setMode(m)` (R208): `DISPLAY_MODE` is written, the mode command issued, and the old value, which may be `⊥`,
restored if the command fails. -/
def setMode (m : Byte) : Action := fun s =>
  match muxDisplayMode (m.extractLsb' 0 4) (s.writeRegs (Regs.setMode m)) with
  | (t, .ok) => (t, .ok)
  | (t, e) => (t.writeRegs (Regs.restoreMode s.regs), e)

/-- `setDisplayFlag(f, en)` (R209). -/
def setDisplayFlag (f : Flag) (on : Bool) : Action := fun s =>
  setMode (withFlag (modeByte s.regs.displayMode) f on) s

/-- `setAddressPointer(a)` (R211). -/
def setAddressPointer (a : Addr) : Action := Action.andThen (muxSetAdp a) (writing (Regs.setShadow a))

/-- The home command of a region (R212, R168, R170). -/
def muxHome (region : Region) (a : Addr) : Action :=
  match region with
  | .text => muxTxtHome a
  | .graphics => muxGfxHome a

/-- The check of `setBaseAddress` (R212, R213): R205 with the new pair and the present `ROWS` and `COLS`. -/
abbrev BaseValid (s : State) (region : Region) (a : Addr) : Prop :=
  LayoutValid s.params.addrSpace.val (Regs.setBase region a s.regs).textBase.toNat
    (Regs.setBase region a s.regs).gfxBase.toNat s.regs.rows.toNat s.regs.cols.toNat

/-- `setBaseAddress(region, a)` (R212). -/
def setBaseAddress (region : Region) (a : Addr) : Action := fun s =>
  if BaseValid s region a then
    Action.andThen (muxHome region a) (writing (Regs.setBase region a)) s
  else (s, .invalidLayout)

/-- `clearRegion(region)` (R214): the address-set, then a raw burst of zero bytes. -/
def clearRegion (region : Region) (s : State) : State × Response :=
  match setAddressPointer (regionBase s.regs region) s with
  | (t, .ok) => burstWrite (zeros (regionLen s.regs region)) false t
  | (t, e) => (t, Response.plain e)

/-- `clearRegion` as a step of the reset. -/
def clearStep (region : Region) : Action := fun s =>
  match clearRegion region s with
  | (t, r) => (t, r.code)

/-- Steps 1 to 8 of the reset with the layout in the registers (R215 to R222), then `LIFE <- Ready` (R223). -/
def resetSteps (gb rw tb c : BitVec 16) : List Action :=
  [muxAutoReset .commandReady,
   setMode 0x00,
   muxGfxHome gb, muxGfxArea rw,
   muxTxtHome tb, muxTxtArea c,
   muxModeXor,
   clearStep .text,
   clearStep .graphics,
   setDisplayFlag .cursor true, setDisplayFlag .blink false,
   setDisplayFlag .text false, setDisplayFlag .graphics true,
   writing (Regs.setLife .ready)]

/-- `ROWS <- r ; COLS <- c ; ROW_WIDTH <- rw ; TEXT_BASE_REG <- tb ; GFX_BASE <- gb` (R215, R226): five register
writes, each a step of its own (R21), and each value cut to its register's width, within which the check has put it. -/
def layoutCommit (rows cols : Byte) : List Action :=
  [writing (Regs.setRows rows), writing (Regs.setCols cols),
   writing (Regs.setRowWidth (BitVec.ofNat 16 (rowWidthOf cols.toNat))),
   writing (Regs.setTextBase Config.textBase),
   writing (Regs.setGfxBase (BitVec.ofNat 16 (gfxBaseOf rows.toNat cols.toNat)))]

/-- `reset(r, c)` (R215): the layout check before any bus cycle and any write (R206), `LIFE <- Configuring` and the
layout commit (R226), then the steps. -/
def resetEngine (rows cols : Byte) : Action := fun s =>
  if ResetValid s.params rows cols then
    inOrder
      (writing (Regs.setLife .configuring) :: layoutCommit rows cols ++
        resetSteps (BitVec.ofNat 16 (gfxBaseOf rows.toNat cols.toNat))
          (BitVec.ofNat 16 (rowWidthOf cols.toNat)) Config.textBase (cols.setWidth 16)) s
  else (s, .invalidLayout)

end Sys2Proof.Machine
end

