-- ==== Sys2Proof/Machine/Requests.lean ====
section
/-! DEFINITION. The meanings of the ten host requests (44_control_surface.md rules R251 to R260), each inside the
common prologue and epilogue of rule R250. -/

namespace Sys2Proof.Machine

/-- The rule of `OPEN` (R251): one attempt at a reset, any failure of which is `NotReady`. -/
def openBody (s : State) : State × Response :=
  if s.regs.life = .ready then (s, Response.plain .ok)
  else
    match resetEngine s.params.cfgRows s.params.cfgCols s with
    | (t, .ok) => (t, Response.plain .ok)
    | (t, _) => (t, Response.plain .notReady)

/-- `OPEN` (R251). -/
def execOpen (s : State) : Host.Outcome State Fault Refusal := answer openBody s

/-- The rule of `WRITE` (R252). -/
def writeRule (payload : List Byte) (s : State) : State × Response :=
  burstWrite payload (s.regs.entryMode == .text) s

/-- `WRITE` (R252). A pair whose payload has another length than `ARG` spells no request and is refused at the port
(R97; assumption 10). -/
def execWrite (n : BitVec 16) (payload : List Byte) (s : State) : Host.Outcome State Fault Refusal :=
  if payload.length = n.toNat then answer (whenReady (writeRule payload)) s else .next (refusePair s)

/-- `READ` (R253). -/
def execRead (n : BitVec 16) (s : State) : Host.Outcome State Fault Refusal :=
  answer (whenReady (burstRead n.toNat)) s

/-- `CTRL.RESET` (R254). It is accepted in every `LIFE` state (R224). -/
def execCtrlReset (rows cols : Byte) (s : State) : Host.Outcome State Fault Refusal :=
  answer (plainResult (resetEngine rows cols)) s

/-- `CTRL.SETENTRY` (R255). -/
def execCtrlSetEntry (m : EntryMode) (s : State) : Host.Outcome State Fault Refusal :=
  answer (whenReady (plainResult (writing (Regs.setEntry m)))) s

/-- `CTRL.SETADP` (R256). -/
def execCtrlSetAdp (a : Addr) (s : State) : Host.Outcome State Fault Refusal :=
  answer (whenReady (plainResult (setAddressPointer a))) s

/-- `CTRL.SETFLAG` (R257). -/
def execCtrlSetFlag (f : Flag) (on : Bool) (s : State) : Host.Outcome State Fault Refusal :=
  answer (whenReady (plainResult (setDisplayFlag f on))) s

/-- `CTRL.SETBASE` (R258). -/
def execCtrlSetBase (r : Region) (a : Addr) (s : State) : Host.Outcome State Fault Refusal :=
  answer (whenReady (plainResult (setBaseAddress r a))) s

/-- `CTRL.CLEAR` (R259). -/
def execCtrlClear (r : Region) (s : State) : Host.Outcome State Fault Refusal :=
  answer (whenReady (clearRegion r)) s

/-- The rule of `CTRL.GETSTATUS` (R260): exactly one status read, no poll, and the byte is not kept. -/
def statusRule (s : State) : State × Response :=
  ((busStatusRead s).1, ⟨.ok, 0, [(busStatusRead s).2]⟩)

/-- `CTRL.GETSTATUS` (R260). -/
def execCtrlGetStatus (s : State) : Host.Outcome State Fault Refusal := answer (whenReady statusRule) s

end Sys2Proof.Machine
end

