-- ==== Sys2Proof/Machine/Dispatch.lean ====
section
/-! DEFINITION. One arm per instruction (44_control_surface.md rule R250, 41_transfer.md rule R166). -/

namespace Sys2Proof.Machine

/-- The meaning of an instruction. -/
def exec (i : Instr) (s : State) : Host.Outcome State Fault Refusal :=
  match i with
  | .openReq => Sys2Proof.Machine.execOpen s
  | .write n payload => Sys2Proof.Machine.execWrite n payload s
  | .read n => Sys2Proof.Machine.execRead n s
  | .ctrlReset rows cols => Sys2Proof.Machine.execCtrlReset rows cols s
  | .ctrlSetEntry m => Sys2Proof.Machine.execCtrlSetEntry m s
  | .ctrlSetAdp a => Sys2Proof.Machine.execCtrlSetAdp a s
  | .ctrlSetFlag f on => Sys2Proof.Machine.execCtrlSetFlag f on s
  | .ctrlSetBase r a => Sys2Proof.Machine.execCtrlSetBase r a s
  | .ctrlClear r => Sys2Proof.Machine.execCtrlClear r s
  | .ctrlGetStatus => Sys2Proof.Machine.execCtrlGetStatus s
  | .setAdp a => Sys2Proof.Machine.execSetAdp a s
  | .txtHome a => Sys2Proof.Machine.execTxtHome a s
  | .txtArea p => Sys2Proof.Machine.execTxtArea p s
  | .gfxHome a => Sys2Proof.Machine.execGfxHome a s
  | .gfxArea p => Sys2Proof.Machine.execGfxArea p s
  | .modeXor => Sys2Proof.Machine.execModeXor s
  | .displayMode m => Sys2Proof.Machine.execDisplayMode m s
  | .autoWrite => Sys2Proof.Machine.execAutoWrite s
  | .autoRead => Sys2Proof.Machine.execAutoRead s
  | .autoReset cond => Sys2Proof.Machine.execAutoReset cond s

end Sys2Proof.Machine
end

