-- ==== Sys2Proof/WellFormed.lean ====
section
/-! DEFINITION. Which terms of Instr are instructions: a `WRITE`'s payload length equals its `ARG` (30_encoding.md
rule R97). Every other operand is held at its exact width or as a named alternative, so any value of it will do. -/

namespace Sys2Proof

/-- R97: the pair is well-formed only when the payload length equals `ARG`. -/
def WellFormed : Instr → Bool
  | .write n payload => payload.length == n.toNat
  | .openReq => true
  | .read _ => true
  | .ctrlReset _ _ => true
  | .ctrlSetEntry _ => true
  | .ctrlSetAdp _ => true
  | .ctrlSetFlag _ _ => true
  | .ctrlSetBase _ _ => true
  | .ctrlClear _ => true
  | .ctrlGetStatus => true
  | .setAdp _ => true
  | .txtHome _ => true
  | .txtArea _ => true
  | .gfxHome _ => true
  | .gfxArea _ => true
  | .modeXor => true
  | .displayMode _ => true
  | .autoWrite => true
  | .autoRead => true
  | .autoReset _ => true

end Sys2Proof
end

