-- ==== Sys2Proof/Decode.lean ====
section
/-! DEFINITION. The decoder, total on any request pair and on any command frame, rejecting by name; the encoder;
and the mask and match rows of 30_encoding.md rule R96 and of spec/opcode_table.json. -/

namespace Sys2Proof

/-- Why a frame spells no instruction. -/
inductive Reject where
  /-- A word outside the request table: it raises `UnsupportedOperation` (R96, R293). -/
  | unsupported
  /-- A request word of the table with a payload of another length than it says (R97). -/
  | malformedPair
  /-- A command byte outside R102: a model has no meaning for it (R104, U10). -/
  | unknownCommand
  /-- A command of R102 with other data bytes, or another poll condition, than its rule gives it (R103, R159). -/
  | wrongArguments
  deriving DecidableEq, Repr

/-! ### The request word -/

/-- The four fields of a request word (R91). -/
structure Fields where
  op : BitVec 4
  cmd : BitVec 4
  sel : BitVec 8
  arg : BitVec 16
  deriving DecidableEq, Repr

/-- The fields read from a word: `OP` 31:28, `CMD` 27:24, `SEL` 23:16, `ARG` 15:0 (R91). -/
def Fields.ofWord (w : Word) : Fields where
  op := w.extractLsb' 28 4
  cmd := w.extractLsb' 24 4
  sel := w.extractLsb' 16 8
  arg := w.extractLsb' 0 16

/-- The word that holds the four fields (R91). -/
def Fields.toWord (f : Fields) : Word := f.op ++ f.cmd ++ f.sel ++ f.arg

/-- `SEL` as a one-bit choice: 0x00 and 0x01 only (R94). -/
def bySel {α : Type} (sel : BitVec 8) (zero one : α) : Option α :=
  if sel = 0 then some zero else if sel = 1 then some one else none

/-- The flag that `SEL[1:0]` names (R94). -/
def flagOfBits (b : BitVec 2) : Flag :=
  if b = 0 then .blink else if b = 1 then .cursor else if b = 2 then .text else .graphics

/-- `CTRL.SETFLAG`'s selector: `SEL[7]` the value, `SEL[1:0]` the flag, `SEL[6:2]` zero (R94). -/
def flagOfSel (sel : BitVec 8) : Option Instr :=
  if sel.extractLsb' 2 5 = 0 then
    some (.ctrlSetFlag (flagOfBits (sel.extractLsb' 0 2)) (sel.getLsbD 7))
  else none

/-- The control requests by `CMD` (R93), each with the `SEL` and `ARG` its row allows (R94, R95). -/
def controlOfFields (f : Fields) : Option Instr :=
  if f.cmd = 0x0 then
    if f.sel = 0 then some (.ctrlReset (f.arg.extractLsb' 8 8) (f.arg.extractLsb' 0 8)) else none
  else if f.cmd = 0x1 then
    if f.arg = 0 then (bySel f.sel EntryMode.text .graphics).map .ctrlSetEntry else none
  else if f.cmd = 0x2 then
    if f.sel = 0 then some (.ctrlSetAdp f.arg) else none
  else if f.cmd = 0x3 then
    if f.arg = 0 then flagOfSel f.sel else none
  else if f.cmd = 0x4 then
    (bySel f.sel Region.text .graphics).map (fun r => .ctrlSetBase r f.arg)
  else if f.cmd = 0x5 then
    if f.arg = 0 then (bySel f.sel Region.text .graphics).map .ctrlClear else none
  else if f.cmd = 0x6 then
    if f.sel = 0 ∧ f.arg = 0 then some .ctrlGetStatus else none
  else none

/-- The request a word's fields spell, by `OP` (R92); `none` is unsupported. -/
def requestOfFields (f : Fields) (payload : List Byte) : Option Instr :=
  if f.op = 0x0 then
    if f.cmd = 0 ∧ f.sel = 0 ∧ f.arg = 0 then some .openReq else none
  else if f.op = 0x1 then
    if f.cmd = 0 ∧ f.sel = 0 then some (.write f.arg payload) else none
  else if f.op = 0x2 then
    if f.cmd = 0 ∧ f.sel = 0 then some (.read f.arg) else none
  else if f.op = 0x3 then controlOfFields f
  else none

/-- How many payload bytes a request word takes: `ARG` for `WRITE`, none otherwise (R90). -/
def payloadLength (f : Fields) : Nat := if f.op = 0x1 then f.arg.toNat else 0

/-- Decode a request pair: first the word (R96), then the payload's length (R97). -/
def decodeRequest (r : Submission) : Except Reject Instr :=
  match requestOfFields (Fields.ofWord r.word) r.payload with
  | none => .error .unsupported
  | some i =>
    if r.payload.length = payloadLength (Fields.ofWord r.word) then .ok i else .error .malformedPair

/-! ### The bus command -/

/-- A command with a 16-bit argument, low byte first (R65, R103). -/
def addrForm (mk : Addr → Instr) (c : BusFrame) : Except Reject Instr :=
  match c.data with
  | [lo, hi] => if c.cond = .commandReady then .ok (mk (hi ++ lo)) else .error .wrongArguments
  | _ => .error .wrongArguments

/-- A command with no data byte, polled for ready-for-command (R161). -/
def plainForm (i : Instr) (c : BusFrame) : Except Reject Instr :=
  if c.data = [] ∧ c.cond = .commandReady then .ok i else .error .wrongArguments

/-- Decode a command frame by its command byte (R102). -/
def decodeCommand (c : BusFrame) : Except Reject Instr :=
  if c.op = 0x24 then addrForm .setAdp c
  else if c.op = 0x40 then addrForm .txtHome c
  else if c.op = 0x41 then addrForm .txtArea c
  else if c.op = 0x42 then addrForm .gfxHome c
  else if c.op = 0x43 then addrForm .gfxArea c
  else if c.op = 0x81 then plainForm .modeXor c
  else if c.op.extractLsb' 4 4 = 0x9 then plainForm (.displayMode (c.op.extractLsb' 0 4)) c
  else if c.op = 0xB0 then plainForm .autoWrite c
  else if c.op = 0xB1 then plainForm .autoRead c
  else if c.op = 0xB2 then
    if c.data = [] then .ok (.autoReset c.cond) else .error .wrongArguments
  else .error .unknownCommand

/-- The decoder. -/
def decode : Frame → Except Reject Instr
  | .request r => decodeRequest r
  | .command c => decodeCommand c

/-! ### The encoder -/

/-- The request word of the four fields, with no payload. -/
def plainRequest (op cmd : BitVec 4) (sel : BitVec 8) (arg : BitVec 16) : Frame :=
  .request ⟨Fields.toWord ⟨op, cmd, sel, arg⟩, []⟩

/-- A flag's code in `SEL[1:0]` (R94). -/
def flagBits : Flag → BitVec 2
  | .blink => 0
  | .cursor => 1
  | .text => 2
  | .graphics => 3

/-- A region's selector (R94). -/
def regionSel : Region → BitVec 8
  | .text => 0
  | .graphics => 1

/-- An entry mode's selector (R94). -/
def entrySel : EntryMode → BitVec 8
  | .text => 0
  | .graphics => 1

/-- A command frame with a 16-bit argument, low byte first (R65, R102). -/
def addrCommand (op : Byte) (a : Addr) : Frame :=
  .command ⟨op, [a.extractLsb' 0 8, a.extractLsb' 8 8], .commandReady⟩

/-- A command frame with no data byte (R102). -/
def plainCommand (op : Byte) : Frame := .command ⟨op, [], .commandReady⟩

/-- The spelling of an instruction (R91 to R95, R102). -/
def encode : Instr → Frame
  | .openReq => plainRequest 0x0 0x0 0 0
  | .write n payload => .request ⟨Fields.toWord ⟨0x1, 0x0, 0, n⟩, payload⟩
  | .read n => plainRequest 0x2 0x0 0 n
  | .ctrlReset rows cols => plainRequest 0x3 0x0 0 (rows ++ cols)
  | .ctrlSetEntry m => plainRequest 0x3 0x1 (entrySel m) 0
  | .ctrlSetAdp a => plainRequest 0x3 0x2 0 a
  | .ctrlSetFlag f on => plainRequest 0x3 0x3 (BitVec.ofBool on ++ 0#5 ++ flagBits f) 0
  | .ctrlSetBase r a => plainRequest 0x3 0x4 (regionSel r) a
  | .ctrlClear r => plainRequest 0x3 0x5 (regionSel r) 0
  | .ctrlGetStatus => plainRequest 0x3 0x6 0 0
  | .setAdp a => addrCommand 0x24 a
  | .txtHome a => addrCommand 0x40 a
  | .txtArea p => addrCommand 0x41 p
  | .gfxHome a => addrCommand 0x42 a
  | .gfxArea p => addrCommand 0x43 p
  | .modeXor => plainCommand 0x81
  | .displayMode m => plainCommand (0x9#4 ++ m)
  | .autoWrite => plainCommand 0xB0
  | .autoRead => plainCommand 0xB1
  | .autoReset cond => .command ⟨0xB2, [], cond⟩

/-! ### The rows of the opcode table -/

/-- A row of spec/opcode_table.json; a bus command's 8-bit match and mask stand in the low byte. -/
structure Row where
  mnemonic : String
  pattern : Word
  mask : Word
  deriving DecidableEq, Repr

/-- The word meets the row (R96: `(word & mask) = match`). -/
abbrev Row.Meets (row : Row) (w : Word) : Prop := w &&& row.mask = row.pattern

/-- The rows of the ten host requests (R96). -/
def requestRows : List Row :=
  [⟨"OPEN", 0x00000000, 0xFFFFFFFF⟩, ⟨"WRITE", 0x10000000, 0xFFFF0000⟩, ⟨"READ", 0x20000000, 0xFFFF0000⟩,
   ⟨"CTRL.RESET", 0x30000000, 0xFFFF0000⟩, ⟨"CTRL.SETENTRY", 0x31000000, 0xFFFEFFFF⟩,
   ⟨"CTRL.SETADP", 0x32000000, 0xFFFF0000⟩, ⟨"CTRL.SETFLAG", 0x33000000, 0xFF7CFFFF⟩,
   ⟨"CTRL.SETBASE", 0x34000000, 0xFFFE0000⟩, ⟨"CTRL.CLEAR", 0x35000000, 0xFFFEFFFF⟩,
   ⟨"CTRL.GETSTATUS", 0x36000000, 0xFFFFFFFF⟩]

/-- The rows of the ten bus commands (R102). -/
def commandRows : List Row :=
  [⟨"SET_ADP", 0x24, 0xFF⟩, ⟨"TXT_HOME", 0x40, 0xFF⟩, ⟨"TXT_AREA", 0x41, 0xFF⟩, ⟨"GFX_HOME", 0x42, 0xFF⟩,
   ⟨"GFX_AREA", 0x43, 0xFF⟩, ⟨"MODE_XOR", 0x81, 0xFF⟩, ⟨"DISPLAY_MODE", 0x90, 0xF0⟩,
   ⟨"AUTO_WRITE", 0xB0, 0xFF⟩, ⟨"AUTO_READ", 0xB1, 0xFF⟩, ⟨"AUTO_RESET", 0xB2, 0xFF⟩]

/-- The row of an instruction. -/
def Instr.row : Instr → Row
  | .openReq => ⟨"OPEN", 0x00000000, 0xFFFFFFFF⟩
  | .write _ _ => ⟨"WRITE", 0x10000000, 0xFFFF0000⟩
  | .read _ => ⟨"READ", 0x20000000, 0xFFFF0000⟩
  | .ctrlReset _ _ => ⟨"CTRL.RESET", 0x30000000, 0xFFFF0000⟩
  | .ctrlSetEntry _ => ⟨"CTRL.SETENTRY", 0x31000000, 0xFFFEFFFF⟩
  | .ctrlSetAdp _ => ⟨"CTRL.SETADP", 0x32000000, 0xFFFF0000⟩
  | .ctrlSetFlag _ _ => ⟨"CTRL.SETFLAG", 0x33000000, 0xFF7CFFFF⟩
  | .ctrlSetBase _ _ => ⟨"CTRL.SETBASE", 0x34000000, 0xFFFE0000⟩
  | .ctrlClear _ => ⟨"CTRL.CLEAR", 0x35000000, 0xFFFEFFFF⟩
  | .ctrlGetStatus => ⟨"CTRL.GETSTATUS", 0x36000000, 0xFFFFFFFF⟩
  | .setAdp _ => ⟨"SET_ADP", 0x24, 0xFF⟩
  | .txtHome _ => ⟨"TXT_HOME", 0x40, 0xFF⟩
  | .txtArea _ => ⟨"TXT_AREA", 0x41, 0xFF⟩
  | .gfxHome _ => ⟨"GFX_HOME", 0x42, 0xFF⟩
  | .gfxArea _ => ⟨"GFX_AREA", 0x43, 0xFF⟩
  | .modeXor => ⟨"MODE_XOR", 0x81, 0xFF⟩
  | .displayMode _ => ⟨"DISPLAY_MODE", 0x90, 0xF0⟩
  | .autoWrite => ⟨"AUTO_WRITE", 0xB0, 0xFF⟩
  | .autoRead => ⟨"AUTO_READ", 0xB1, 0xFF⟩
  | .autoReset _ => ⟨"AUTO_RESET", 0xB2, 0xFF⟩

/-- The bits of a frame that its row's match and mask speak of: the request word, or the command byte. -/
def Frame.bits : Frame → Word
  | .request r => r.word
  | .command c => c.op.setWidth 32

/-! ### Words numbered as the table numbers them -/

/-- Byte `k` of a number, byte 0 the least significant. -/
def byteOf (w k : Nat) : Byte := BitVec.ofNat 8 (w / 2 ^ (8 * k))

/-- The first `n` payload bytes that follow a request word in a table number. -/
def payloadOf (w n : Nat) : List Byte := (List.range n).map (fun k => byteOf w (k + 4))

/-- Whether a command byte takes a 16-bit argument (R102). -/
def takesAddr (op : Byte) : Bool :=
  op == 0x24 || op == 0x40 || op == 0x41 || op == 0x42 || op == 0x43

/-- The frame of a table number: with 32 bits or more a request word and its payload bytes, with fewer a
command byte and, where the command takes them, its two data bytes. A bit at or above `nbits` is 0. The table
gives no bits to the poll condition; it is ready-for-command, as for every strobe but a burst's exit (R159). -/
def tableFrame (nbits w : Nat) : Frame :=
  let v := w % 2 ^ nbits
  if 32 ≤ nbits then
    let word := BitVec.ofNat 32 v
    .request ⟨word, payloadOf v (payloadLength (Fields.ofWord word))⟩
  else
    let op := byteOf v 0
    .command ⟨op, if takesAddr op then [byteOf v 1, byteOf v 2] else [], .commandReady⟩

/-- The instruction the decoder reads from a table number (the host's question about a row). -/
def decodeTableWord (nbits w : Nat) : Option Instr :=
  match decode (tableFrame nbits w) with
  | .ok i => some i
  | .error _ => none

end Sys2Proof
end

