-- ==== Sys2Proof/Machine/Fetch.lean ====
section
/-! DEFINITION. Taking the next work: a command at the mux's command port, else one of the pending requests
(44_control_surface.md rule R250, 60_exceptions.md rules R302 and R305). -/

namespace Sys2Proof.Machine

/-- The next choice among several pending requests: the granted one where State says it, else a free value
(R305, U14). -/
def Port.choice (p : Port) : Nat × Port :=
  match p.grants with
  | g :: rest => (g, { p with grants := rest })
  | [] => (Config.freeGrant p.picks, { p with picks := p.picks + 1 })

/-- Take a pending request (R305): the only one, or one of several. -/
def Port.take (p : Port) : Option (Submission × Port) :=
  match p.pending with
  | [] => none
  | [r] => some (r, { p with pending := [] })
  | r :: r' :: rest =>
    let k := p.choice.1 % (rest.length + 2)
    some ((p.pending).getD k r, { p.choice.2 with pending := (r :: r' :: rest).eraseIdx k })

/-- What the engine finds to do. -/
inductive Work where
  /-- Nothing: the lock is set (R31), or no request is pending (R320). -/
  | idle
  /-- An instruction, and the state with it taken. -/
  | run (i : Instr) (s : State)
  /-- A request word outside the table. -/
  | unsupported (s : State)
  /-- A malformed pair. -/
  | malformed (s : State)
  /-- A command the mux has no meaning for. -/
  | noCommand (op : Byte)
  deriving DecidableEq, Repr

/-- What a taken request pair comes to. -/
def workOfRequest (r : Submission) (s : State) : Work :=
  match decode (.request r) with
  | .ok i => .run i s
  | .error .malformedPair => .malformed s
  | .error _ => .unsupported s

/-- What a command at the mux's port comes to. -/
def workOfCommand (c : BusFrame) (s : State) : Work :=
  match decode (.command c) with
  | .ok i => .run i { s with port := { s.port with mux := none } }
  | .error _ => .noCommand c.op

/-- The engine's next work. It takes a request only while the lock is clear (R31, R250). -/
def nextWork (s : State) : Work :=
  if s.ctl.lock then .idle
  else
    match s.port.mux with
    | some c => workOfCommand c s
    | none =>
      match s.port.take with
      | none => .idle
      | some (r, p) => workOfRequest r { s with port := p }

/-- The port with a frame as the only work: the request alone pending, or the command at the mux's port. -/
def Port.withFrame (p : Port) (f : Frame) : Port :=
  match f with
  | .request r => { p with pending := [r], mux := none }
  | .command c => { p with mux := some c }

end Sys2Proof.Machine
end

