-- ==== Sys2Proof/Machine/Step.lean ====
section
/-! DEFINITION. One step of the machine: one composite operation from its start to its end (00_scope.md rule R5,
60_exceptions.md rule R305), or nothing while there is no work. -/

namespace Sys2Proof.Machine

/-- One step. -/
def step (s : State) : Host.Outcome State Fault Refusal :=
  match nextWork s with
  | .idle => .next s
  | .run i t => exec i t
  | .unsupported t => .next (rejectUnsupported t)
  | .malformed t => .next (refusePair t)
  | .noCommand op => .refused (.noSuchCommand op)

/-- `s` with the instruction of a table number as the next work (assumption 11): the request pair alone pending, or
the command at the mux's port, and the lock clear, since the engine takes work only then. -/
def State.withFetchWord (s : State) (nbits w : Nat) : State :=
  { s with
    ctl := { s.ctl with lock := false }
    port := s.port.withFrame (tableFrame nbits w) }

end Sys2Proof.Machine
end

