-- ==== Sys2Proof/Machine/Assembly.lean ====
section
/-! DEFINITION. The written form of requests and of traces (30_encoding.md rule R106): one request a line to the pair
it submits, and a bus cycle to its trace notation. -/

namespace Sys2Proof.Machine

/-- A token of a line: a keyword or number, or the text between double quotes. -/
inductive Token where
  | plain (cs : List Char)
  | quoted (cs : List Char)
  deriving DecidableEq, Repr

/-- The token read so far, where there is one. -/
def flush (cur : List Char) (rest : List Token) : List Token :=
  if cur = [] then rest else .plain cur.reverse :: rest

/-- The tokens of a line. Blanks and commas part them; a comment runs from `;` to the end of the line, and a `;`
between double quotes is text. `quoting` says whether a quote is open. -/
def tokens (quoting : Bool) (cur : List Char) : List Char → Option (List Token)
  | [] => if quoting then none else some (flush cur [])
  | c :: rest =>
    if quoting then
      if c = '"' then (tokens false [] rest).map (.quoted cur.reverse :: ·)
      else tokens true (c :: cur) rest
    else if c = ';' then some (flush cur [])
    else if c = '"' then (tokens true [] rest).map (flush cur)
    else if c = ' ' ∨ c = '\t' ∨ c = ',' then (tokens false [] rest).map (flush cur)
    else tokens false (c :: cur) rest

/-- A hexadecimal digit's value. -/
def digitValue (c : Char) : Option Nat :=
  if '0' ≤ c ∧ c ≤ '9' then some (c.toNat - '0'.toNat)
  else if 'a' ≤ c ∧ c ≤ 'f' then some (c.toNat - 'a'.toNat + 10)
  else if 'A' ≤ c ∧ c ≤ 'F' then some (c.toNat - 'A'.toNat + 10)
  else none

/-- The number that digits spell in a base, after what has been read. -/
def digitsValue (base : Nat) : List Char → Nat → Option Nat
  | [], n => some n
  | c :: rest, n =>
    match digitValue c with
    | some d => if d < base then digitsValue base rest (base * n + d) else none
    | none => none

/-- A number, decimal or hexadecimal with `0x`, below a bound. -/
def numberBelow (bound : Nat) : Token → Option Nat
  | .plain ('0' :: 'x' :: c :: cs) => (digitsValue 16 (c :: cs) 0).filter (· < bound)
  | .plain (c :: cs) => (digitsValue 10 (c :: cs) 0).filter (· < bound)
  | .plain [] => none
  | .quoted _ => none

/-- A payload byte. -/
def byteToken (t : Token) : Option Byte := (numberBelow 256 t).map (BitVec.ofNat 8)

/-- The ASCII bytes of a text. -/
def textBytes (cs : List Char) : Option (List Byte) :=
  if cs.all (fun c => c.toNat < 128) then some (cs.map (fun c => BitVec.ofNat 8 c.toNat)) else none

/-- A payload: listed bytes, or a text. -/
def payloadTokens : List Token → Option (List Byte)
  | [.quoted cs] => textBytes cs
  | ts => ts.mapM byteToken

/-- `TEXT | GRAPHICS` as a region or an entry mode's selector. -/
def planeToken {α : Type} (text graphics : α) : Token → Option α
  | .plain ['T', 'E', 'X', 'T'] => some text
  | .plain ['G', 'R', 'A', 'P', 'H', 'I', 'C', 'S'] => some graphics
  | _ => none

/-- `BLINK | CURSOR | TEXT | GRAPHICS`. -/
def flagToken : Token → Option Flag
  | .plain ['B', 'L', 'I', 'N', 'K'] => some .blink
  | .plain ['C', 'U', 'R', 'S', 'O', 'R'] => some .cursor
  | t => planeToken Flag.text .graphics t

/-- `ON | OFF`. -/
def onToken : Token → Option Bool
  | .plain ['O', 'N'] => some true
  | .plain ['O', 'F', 'F'] => some false
  | _ => none

/-- The control command after `CTRL.`. -/
def controlLine (name : List Char) (args : List Token) : Option Instr :=
  match args with
  | [] => if name = ['G', 'E', 'T', 'S', 'T', 'A', 'T', 'U', 'S'] then some .ctrlGetStatus else none
  | [a] =>
    if name = ['S', 'E', 'T', 'E', 'N', 'T', 'R', 'Y'] then
      (planeToken EntryMode.text .graphics a).map .ctrlSetEntry
    else if name = ['S', 'E', 'T', 'A', 'D', 'P'] then
      (numberBelow 0x10000 a).map (fun n => .ctrlSetAdp (BitVec.ofNat 16 n))
    else if name = ['C', 'L', 'E', 'A', 'R'] then (planeToken Region.text .graphics a).map .ctrlClear
    else none
  | [a, b] =>
    if name = ['R', 'E', 'S', 'E', 'T'] then
      match byteToken a, byteToken b with
      | some rows, some cols => some (.ctrlReset rows cols)
      | _, _ => none
    else if name = ['S', 'E', 'T', 'F', 'L', 'A', 'G'] then
      match flagToken a, onToken b with
      | some f, some on => some (.ctrlSetFlag f on)
      | _, _ => none
    else if name = ['S', 'E', 'T', 'B', 'A', 'S', 'E'] then
      match planeToken Region.text .graphics a, numberBelow 0x10000 b with
      | some r, some n => some (.ctrlSetBase r (BitVec.ofNat 16 n))
      | _, _ => none
    else none
  | _ => none

/-- The request that a line's tokens spell. -/
def requestLine : List Token → Option Instr
  | [.plain ['O', 'P', 'E', 'N']] => some .openReq
  | .plain ['W', 'R', 'I', 'T', 'E'] :: ts =>
    (payloadTokens ts).bind (fun bs =>
      if bs.length < 0x10000 then some (.write (BitVec.ofNat 16 bs.length) bs) else none)
  | [.plain ['R', 'E', 'A', 'D'], n] => (numberBelow 0x10000 n).map (fun k => .read (BitVec.ofNat 16 k))
  | .plain ('C' :: 'T' :: 'R' :: 'L' :: '.' :: name) :: args => controlLine name args
  | _ => none

/-- A line of requests, as its characters, to the frame it submits (R106). -/
def assemble (line : List Char) : Option Frame := (tokens false [] line).bind (fun ts => (requestLine ts).map encode)

/-- A hexadecimal digit. -/
def hexDigit (n : Nat) : Char := ['0', '1', '2', '3', '4', '5', '6', '7', '8', '9', 'A', 'B', 'C', 'D', 'E', 'F'].getD n '?'

/-- A byte as `0x` and two digits. -/
def hexByte (b : Byte) : List Char := ['0', 'x', hexDigit (b.toNat / 16), hexDigit (b.toNat % 16)]

/-- A bus cycle in trace notation (R106). -/
def cycleText : BusCycle → List Char
  | .statusRead s => 'S' :: '→' :: hexByte s
  | .dataWrite v => 'D' :: '←' :: hexByte v
  | .dataRead v => 'D' :: '→' :: hexByte v
  | .commandWrite op => 'C' :: '←' :: hexByte op

end Sys2Proof.Machine
end

