-- ==== Sys2Proof/Safety.lean ====
section
/-! DEFINITION. The terms the statements use: what a request leaves when it is done, the cycles it issues, the test
oracles of 20_memory.md rule R71, and the invariants of the machine. -/

namespace Sys2Proof.Machine

/-! ### What a request leaves -/

/-- The bus side after a list of bus cycles: the outputs, the trace and the peer are all functions of it. -/
def Bus.run (b : Bus) (cycles : List BusCycle) : Bus := cycles.foldl Bus.cycle b

/-- The state a host request leaves: its registers, the bus side after its cycles, its one response, the lock clear
and the engine idle; the parameters and the rest of the port as they were. -/
def State.done (s : State) (regs : Regs) (cycles : List BusCycle) (r : Response) : State where
  params := s.params
  regs := regs
  ctl := Ctl.idle
  bus := s.bus.run cycles
  port := { s.port with log := s.port.log ++ [.response r] }

/-- The state a bus command given to the mux by itself leaves: no register written (R166). -/
def State.commandDone (s : State) (cycles : List BusCycle) (c : Code) : State where
  params := s.params
  regs := s.regs
  ctl := Ctl.idle
  bus := s.bus.run cycles
  port := { s.port with muxResult := some c }

/-! ### Cycles -/

/-- The cycle moves a data byte or a command byte; the others are status reads. -/
def BusCycle.isTransfer : BusCycle → Bool
  | .statusRead _ => false
  | .dataRead _ => true
  | .dataWrite _ => true
  | .commandWrite _ => true

/-- The data and command cycles of a list, in order. -/
def transfers (l : List BusCycle) : List BusCycle := l.filter BusCycle.isTransfer

/-- The given cycles, each after one status read that answers 0x0F: what `READY` makes of them (R225). -/
def readyCycles (l : List BusCycle) : List BusCycle := l.flatMap (fun c => [.statusRead 0x0F, c])

/-- The transfers of a command with a 16-bit value, low byte first (R163, R164). -/
def addrCycles (op : Byte) (a : Addr) : List BusCycle :=
  [.dataWrite (a.extractLsb' 0 8), .dataWrite (a.extractLsb' 8 8), .commandWrite op]

/-- The transfers of a whole write burst of the bytes as sent (R180, R183). -/
def burstCycles (sent : List Byte) : List BusCycle :=
  if sent = [] then [] else .commandWrite 0xB0 :: sent.map .dataWrite ++ [.commandWrite 0xB2]

/-- The transfers end inside a burst: a write burst's entry and data writes, and no exit (R180). -/
def InsideBurst (p : List BusCycle) : Prop :=
  ∃ (q : List BusCycle) (sent : List Byte), p = q ++ .commandWrite 0xB0 :: sent.map .dataWrite

/-- The transfers of a whole clear: the address-set, then a burst of zero bytes (R214). -/
def clearCycles (base : Addr) (len : Nat) : List BusCycle :=
  addrCycles 0x24 base ++ burstCycles (List.replicate len 0)

/-- The transfers of a whole reset, in the order of R216 to R222. -/
def resetCycles (rows cols : Byte) : List BusCycle :=
  let gb := BitVec.ofNat 16 (gfxBaseOf rows.toNat cols.toNat)
  let rw := rowWidthOf cols.toNat
  [.commandWrite 0xB2, .commandWrite 0x90] ++ addrCycles 0x42 gb ++ addrCycles 0x43 (BitVec.ofNat 16 rw) ++
    addrCycles 0x40 0x0002 ++ addrCycles 0x41 (cols.setWidth 16) ++ [.commandWrite 0x81] ++
    clearCycles 0x0002 (textLen rows.toNat cols.toNat) ++ clearCycles gb (gfxLen rows.toNat rw) ++
    [.commandWrite 0x92, .commandWrite 0x92, .commandWrite 0x92, .commandWrite 0x9A]

/-- The registers after a successful reset (R36). -/
def resetRegs (rows cols : Byte) (r : Regs) : Regs where
  life := .ready
  rows := rows
  cols := cols
  rowWidth := BitVec.ofNat 16 (rowWidthOf cols.toNat)
  textBase := 0x0002
  gfxBase := BitVec.ofNat 16 (gfxBaseOf rows.toNat cols.toNat)
  displayMode := 0x0A
  adpShadow := BitVec.ofNat 16 (gfxBaseOf rows.toNat cols.toNat)
  entryMode := r.entryMode
  layoutHeld := true
  displayModeHeld := true
  adpShadowHeld := true

/-- The bytes that `n` data reads of the peer return, one after the other. -/
def readBytes : Nat → Peer → List Byte
  | 0, _ => []
  | n + 1, p => p.dataAnswer :: readBytes n p.afterDataRead

/-- The bytes that `n` status reads of the peer answer, one after the other. -/
def statusBytes : Nat → Peer → List Byte
  | 0, _ => []
  | n + 1, p => p.statusAnswer :: statusBytes n p.afterStatusRead

/-- The bytes of a list's data write cycles, in order. -/
def bytesWritten (l : List BusCycle) : List Byte :=
  l.filterMap (fun c =>
    match c with
    | .dataWrite v => some v
    | .statusRead _ => none
    | .dataRead _ => none
    | .commandWrite _ => none)

/-- The bytes of a list's data read cycles, in order. -/
def bytesRead (l : List BusCycle) : List Byte :=
  l.filterMap (fun c =>
    match c with
    | .dataRead v => some v
    | .statusRead _ => none
    | .dataWrite _ => none
    | .commandWrite _ => none)

/-- The transfers of a bus command (R102, R167 to R176); a host request is none of them. -/
def commandTransfers : Instr → List BusCycle
  | .setAdp a => addrCycles 0x24 a
  | .txtHome a => addrCycles 0x40 a
  | .txtArea p => addrCycles 0x41 p
  | .gfxHome a => addrCycles 0x42 a
  | .gfxArea p => addrCycles 0x43 p
  | .modeXor => [.commandWrite 0x81]
  | .displayMode m => [.commandWrite (0x90 ||| m.setWidth 8)]
  | .autoWrite => [.commandWrite 0xB0]
  | .autoRead => [.commandWrite 0xB1]
  | .autoReset _ => [.commandWrite 0xB2]
  | .openReq => []
  | .write _ _ => []
  | .read _ => []
  | .ctrlReset _ _ => []
  | .ctrlSetEntry _ => []
  | .ctrlSetAdp _ => []
  | .ctrlSetFlag _ _ => []
  | .ctrlSetBase _ _ => []
  | .ctrlClear _ => []
  | .ctrlGetStatus => []

/-- The command bytes the engine emits (R102). -/
def emittedBytes : List Byte :=
  [0x24, 0x40, 0x41, 0x42, 0x43, 0x81, 0x90, 0x91, 0x92, 0x93, 0x94, 0x95, 0x96, 0x97, 0x98, 0x99, 0x9A, 0x9B,
   0x9C, 0x9D, 0x9E, 0x9F, 0xB0, 0xB1, 0xB2]

/-- The byte of the last display-mode command of a trace (R25). -/
def lastModeCommand (l : List BusCycle) : Option Byte :=
  (l.filterMap (fun c =>
    match c with
    | .commandWrite op => if op.extractLsb' 4 4 = 0x9 then some op else none
    | .statusRead _ => none
    | .dataRead _ => none
    | .dataWrite _ => none)).getLast?

/-- What the bus cycles `l` say of `DISPLAY_MODE` (R25, R208): it is as before where no mode command was strobed, and
else what the last one carried. -/
def ModeAfter (r : Regs) (l : List BusCycle) (r' : Regs) : Prop :=
  match lastModeCommand l with
  | none => r'.displayMode = r.displayMode ∧ r'.displayModeHeld = r.displayModeHeld
  | some op => r'.displayMode = op &&& 0x0F ∧ r'.displayModeHeld = true

/-- What the bus cycles `l` say of `ADP_SHADOW` (R26, R211), where the addresses `as` are the ones to be set, in order: it
is as before where no address-set was strobed, and else the address of the last one. -/
def ShadowAfter (as : List Addr) (r : Regs) (l : List BusCycle) (r' : Regs) : Prop :=
  l.count (.commandWrite 0x24) ≤ as.length ∧
    match (as.take (l.count (.commandWrite 0x24))).getLast? with
    | none => r'.adpShadow = r.adpShadow ∧ r'.adpShadowHeld = r.adpShadowHeld
    | some a => r'.adpShadow = a ∧ r'.adpShadowHeld = true

/-! ### Oracles -/

/-- Every status read answers `b`. -/
def Answers (b : Byte) (s : State) : Prop :=
  s.bus.peer.statusScript = [] ∧ s.bus.peer.statusConst = some b

/-- `READY` (R71), with a retry limit that allows a status read. -/
def ReadyOracle (s : State) : Prop := Answers 0x0F s ∧ s.params.retryLimit ≠ 0

/-- The first `n` status reads answer 0x0F and every later one `b` (the scripts of 95_test_vectors.md). -/
def ReadyThen (n : Nat) (b : Byte) (s : State) : Prop :=
  s.bus.peer.statusScript = List.replicate n 0x0F ∧ s.bus.peer.statusConst = some b ∧ s.params.retryLimit ≠ 0

/-! ### Requests and memory -/

/-- The instruction is a host request. -/
def isRequest : Instr → Bool
  | .openReq => true
  | .write _ _ => true
  | .read _ => true
  | .ctrlReset _ _ => true
  | .ctrlSetEntry _ => true
  | .ctrlSetAdp _ => true
  | .ctrlSetFlag _ _ => true
  | .ctrlSetBase _ _ => true
  | .ctrlClear _ => true
  | .ctrlGetStatus => true
  | .setAdp _ => false
  | .txtHome _ => false
  | .txtArea _ => false
  | .gfxHome _ => false
  | .gfxArea _ => false
  | .modeXor => false
  | .displayMode _ => false
  | .autoWrite => false
  | .autoRead => false
  | .autoReset _ => false

/-- The reference device's display memory at an address. -/
def displayByte (s : State) (a : Nat) : Byte := Memory.read s.bus.peer.device.mem a

/-- Where the next data write but `k` stores, at the controller's pointer advanced by `k` (R177, R70). -/
def pointerAfter (s : State) (k : Nat) : Nat := (s.bus.peer.device.adp + BitVec.ofNat 16 k).toNat

/-- Data writes sent as command arguments store to display memory: the attached device was left in auto-write mode
(R189, R70). -/
def StoresArguments (s : State) : Prop := s.bus.peer.attached = true ∧ s.bus.peer.device.auto = .write

/-! ### Invariants -/

/-- R24 with R35: on a `Ready` engine every register holds a value and the layout registers meet R205. -/
def LayoutInv (s : State) : Prop :=
  s.regs.life = .ready →
    s.regs.layoutHeld = true ∧ s.regs.displayModeHeld = true ∧ s.regs.adpShadowHeld = true ∧
    s.regs.rowWidth.toNat = rowWidthOf s.regs.cols.toNat ∧
    LayoutValid s.params.addrSpace.val s.regs.textBase.toNat s.regs.gfxBase.toNat
      s.regs.rows.toNat s.regs.cols.toNat

/-- The engine is idle with its lock clear (R21, R29, R30, R31, R306) and its bus at the idle values (R156). -/
def Quiet (s : State) : Prop := s.ctl = Ctl.idle ∧ s.bus.lines.idle = true

/-- The peer's data keep their form: display memory canonical, at most two latched bytes (R70). -/
def PeerInv (s : State) : Prop :=
  Memory.wf s.bus.peer.device.mem = true ∧ s.bus.peer.device.latch.length ≤ 2

/-- The invariant of the machine between two steps. -/
def MachineInv (s : State) : Prop :=
  Quiet s ∧ LayoutInv s ∧ modeByte s.regs.displayMode = s.regs.displayMode ∧ PeerInv s

/-- R25: `DISPLAY_MODE` is what the last mode command strobed carried. -/
def ModeAgrees (s : State) : Prop :=
  s.regs.displayModeHeld = true → lastModeCommand s.bus.trace = some (0x90 ||| s.regs.displayMode)

end Sys2Proof.Machine
end

