-- ==== Sys2Proof/Certificates/Slice0/Obligations.lean ====
section
/-! DEFINITION. The statements for the provers, in the order of OBLIGATIONS.json. A statement about an outcome
`exec i s = .next t` with `t` written out says the whole next state: the registers, the bus side after the listed
cycles (the outputs, the trace and the peer with its display memory are functions of them, `Bus.run`), the port with
the one response added, the control state idle and the parameters unchanged (`State.done`, `State.commandDone`). -/

open Sys2Proof Sys2Proof.Machine

/-! ### Encodings -/

/-- Every well-formed instruction is what its spelling decodes to. -/
def Obligations.DecodeOfEncodeIsTheInstruction : Prop :=
  ∀ i : Instr, WellFormed i = true → decode (encode i) = .ok i

/-- A frame that decodes is the spelling of the instruction it decodes to, and that instruction is well-formed. -/
def Obligations.EncodeOfDecodeIsTheFrame : Prop :=
  ∀ (f : Frame) (i : Instr), decode f = .ok i → encode i = f ∧ WellFormed i = true

/-- R96: a request word is supported exactly where it meets a row of the table, no word meets two rows, and the
instruction it decodes to is the one whose row it meets. -/
def Obligations.RequestWordsAreTheTableRows : Prop :=
  ∀ w : Word,
    ((∃ payload i, decode (.request ⟨w, payload⟩) = .ok i) ↔ ∃ row ∈ requestRows, row.Meets w) ∧
    (∀ row ∈ requestRows, ∀ row' ∈ requestRows, row.Meets w → row'.Meets w → row = row') ∧
    (∀ payload i, decode (.request ⟨w, payload⟩) = .ok i → i.row ∈ requestRows ∧ i.row.Meets w) ∧
    ((∀ row ∈ requestRows, ¬ row.Meets w) → ∀ payload, decode (.request ⟨w, payload⟩) = .error .unsupported)

/-- R102, R104: a command byte has a meaning exactly where it meets a bus-command row; any other is refused. -/
def Obligations.CommandBytesAreTheTableRows : Prop :=
  ∀ op : Byte,
    ((∃ data cond i, decode (.command ⟨op, data, cond⟩) = .ok i) ↔
      ∃ row ∈ commandRows, row.Meets (op.setWidth 32)) ∧
    ((∀ row ∈ commandRows, ¬ row.Meets (op.setWidth 32)) →
      ∀ data cond, decode (.command ⟨op, data, cond⟩) = .error .unknownCommand)

/-- Words written out from R91 to R95, R102 and R106 decode to the instruction they stand for. -/
def Obligations.SpecWordsDecode : Prop :=
  decode (.request ⟨0x00000000, []⟩) = .ok .openReq ∧
  decode (.request ⟨0x10000002, [0x48, 0x49]⟩) = .ok (.write 2 [0x48, 0x49]) ∧
  decode (.request ⟨0x20000001, []⟩) = .ok (.read 1) ∧
  decode (.request ⟨0x3000051E, []⟩) = .ok (.ctrlReset 5 30) ∧
  decode (.request ⟨0x31010000, []⟩) = .ok (.ctrlSetEntry .graphics) ∧
  decode (.request ⟨0x33010000, []⟩) = .ok (.ctrlSetFlag .cursor false) ∧
  decode (.request ⟨0x33800000, []⟩) = .ok (.ctrlSetFlag .blink true) ∧
  decode (.request ⟨0x34010098, []⟩) = .ok (.ctrlSetBase .graphics 0x0098) ∧
  decode (.command ⟨0x24, [0x34, 0x12], .commandReady⟩) = .ok (.setAdp 0x1234) ∧
  decode (.command ⟨0x9A, [], .commandReady⟩) = .ok (.displayMode 0xA) ∧
  decode (.command ⟨0xB2, [], .autoReadReady⟩) = .ok (.autoReset .autoReadReady)

/-- R106: lines written in the request notation assemble to the words the rule gives. -/
def Obligations.WrittenRequestsAssemble : Prop :=
  assemble "CTRL.SETFLAG CURSOR, OFF".toList = some (.request ⟨0x33010000, []⟩) ∧
  assemble "CTRL.RESET 5, 30 ; a comment".toList = some (.request ⟨0x3000051E, []⟩) ∧
  assemble "WRITE \"HI\"".toList = some (.request ⟨0x10000002, [0x48, 0x49]⟩) ∧
  assemble "WRITE 0x48, 0x49".toList = some (.request ⟨0x10000002, [0x48, 0x49]⟩) ∧
  assemble "CTRL.SETBASE GRAPHICS, 0x0098".toList = some (.request ⟨0x34010098, []⟩)

/-! ### Steps -/

/-- Where the lock is clear, the pending request that the port takes and that decodes is run, taken from the pending
ones; and a command at the mux's own command port that decodes is run, taken from that port, before any pending request.
That port and its precedence are the model's choice (assumption 8). -/
def Obligations.StepRunsTheDecodedInstruction : Prop :=
  ∀ (s : State) (i : Instr), s.ctl.lock = false →
    (∀ c, s.port.mux = some c → decode (.command c) = .ok i →
      step s = exec i { s with port := { s.port with mux := none } }) ∧
    (∀ r p, s.port.mux = none → s.port.take = some (r, p) → decode (.request r) = .ok i →
      step s = exec i { s with port := p })

/-- R261: a word that decodes as unsupported is answered `(UnsupportedOperation, 0, [])` in every `LIFE` state, with
no bus cycle and no register written; the rule's four example words are such words. The premise that nothing stands at
the mux's own command port is about a port of the model's choice (assumption 8). -/
def Obligations.UnsupportedWordIsAnswered : Prop :=
  (∀ (s : State) (r : Submission) (p : Port), s.ctl.lock = false → s.port.mux = none →
    s.port.take = some (r, p) → decode (.request r) = .error .unsupported →
    step s = .next (({ s with port := p } : State).done s.regs [] ⟨.unsupportedOperation, 0, []⟩)) ∧
  (∀ w ∈ ([0x37000000, 0x40000000, 0x31020000, 0x00000001] : List Word), ∀ payload,
    decode (.request ⟨w, payload⟩) = .error .unsupported)

/-- R97: a `WRITE` word's pair decodes, with its payload whole and in order, exactly where the payload's length is
`ARG`; any other pair spells no request and the port refuses it, the engine untouched. That the refused pair is
dropped without a response is the model's choice (assumption 10), as is the mux's own command port, at which nothing
stands (assumption 8). -/
def Obligations.MalformedPairIsRefusedAtThePort : Prop :=
  (∀ (n : BitVec 16) (payload : List Byte),
    (payload.length = n.toNat →
      decode (.request ⟨0x1000#16 ++ n, payload⟩) = .ok (.write n payload)) ∧
    (payload.length ≠ n.toNat → decode (.request ⟨0x1000#16 ++ n, payload⟩) = .error .malformedPair)) ∧
  (∀ (s : State) (r : Submission) (p : Port), s.ctl.lock = false → s.port.mux = none →
    s.port.take = some (r, p) → decode (.request r) = .error .malformedPair →
    step s = .next { s with port := { p with log := p.log ++ [.refusedPair] } })

/-- R31: with the lock set the engine takes nothing; and with nothing to take, no request and nothing at the mux's own
command port, which is the model's choice (assumption 8), it waits. -/
def Obligations.NothingIsTakenWhileLocked : Prop :=
  ∀ s : State,
    (s.ctl.lock = true → step s = .next s) ∧
    (s.port.mux = none → s.port.pending = [] → step s = .next s)

/-- R305: the request taken is one of the pending ones and the others stay pending, whatever the choice; and each
pending request is the one taken under some choice. What the port has shown stays, and so does the mux's own command
port, which is the model's choice (assumption 8). -/
def Obligations.AnyPendingRequestMayBeNext : Prop :=
  (∀ (p q : Port) (r : Submission), p.take = some (r, q) →
    (∃ k, p.pending[k]? = some r ∧ q.pending = p.pending.eraseIdx k) ∧
    q.log = p.log ∧ q.mux = p.mux ∧ q.muxResult = p.muxResult) ∧
  (∀ (p : Port) (k : Nat) (r : Submission), p.pending[k]? = some r →
    ∃ q, ({ p with grants := k :: p.grants } : Port).take = some (r, q))

/-! ### Invariants -/

/-- Every step keeps the machine's invariant: idle control state and idle outputs, the layout of R24 on a `Ready`
engine, the hardwired zeros of `DISPLAY_MODE`, canonical display memory. -/
def Obligations.StepKeepsTheMachineInvariant : Prop :=
  ∀ s t : State, MachineInv s → step s = .next t → MachineInv t

/-- Power-on meets the machine's invariant and the agreement of `DISPLAY_MODE` with the mode commands strobed. Nothing
stands at the mux's own command port at power-on: that port, and that it is empty at reset, are the model's choice
(assumption 8), as are the zero beneath `⊥` in `DISPLAY_MODE` (assumption 1) and the reference device's fields
(assumption 9), of which the invariant speaks. -/
def Obligations.PowerOnMeetsTheInvariants : Prop :=
  MachineInv State.reset ∧ ModeAgrees State.reset ∧ State.reset.port.mux = none

/-- R25, R328: after every step `DISPLAY_MODE`, once it holds a value, is the one the last mode command strobed
carried; on a machine whose hosts alone give it work: nothing stands at the mux's own command port, which is the model's
choice (assumption 8), and the step puts nothing there. -/
def Obligations.StepKeepsTheModeAgreement : Prop :=
  ∀ s t : State, s.port.mux = none → ModeAgrees s → step s = .next t → ModeAgrees t ∧ t.port.mux = none

/-- R35, R320: the state at power-on, where no register under `⊥` is spoken of; and the engine then waits, with no
bus cycle, for its first request. -/
def Obligations.PowerOnState : Prop :=
  State.reset.regs.life = .uninitialized ∧ State.reset.regs.entryMode = .graphics ∧
  State.reset.regs.layoutHeld = false ∧ State.reset.regs.displayModeHeld = false ∧
  State.reset.regs.adpShadowHeld = false ∧
  State.reset.ctl = ⟨false, none, none, none⟩ ∧ State.reset.bus.lines.idle = true ∧
  State.reset.bus.trace = [] ∧
  State.reset.bus.peer.statusScript = [] ∧ State.reset.bus.peer.statusConst = none ∧
  State.reset.bus.peer.dataScript = [] ∧ State.reset.bus.peer.attached = false ∧
  State.reset.port.pending = [] ∧ State.reset.port.log = [] ∧
  step State.reset = .next State.reset

/-- R22 to R27, R33: outside a reset only the named requests write a register: `LIFE` none, a base `CTRL.SETBASE`,
`DISPLAY_MODE` `CTRL.SETFLAG`, `ADP_SHADOW` `CTRL.SETADP` and `CTRL.CLEAR`; `ENTRY_MODE` is written by
`CTRL.SETENTRY` alone, not by a reset; nothing writes a parameter (R38). -/
def Obligations.RegistersChangeOnlyByTheirWriters : Prop :=
  ∀ (i : Instr) (s t : State), exec i s = .next t →
    t.params = s.params ∧
    ((∀ m, i ≠ .ctrlSetEntry m) → t.regs.entryMode = s.regs.entryMode) ∧
    (i ≠ .openReq → (∀ r c, i ≠ .ctrlReset r c) →
      t.regs.life = s.regs.life ∧ t.regs.rows = s.regs.rows ∧ t.regs.cols = s.regs.cols ∧
      t.regs.rowWidth = s.regs.rowWidth ∧ t.regs.layoutHeld = s.regs.layoutHeld ∧
      ((∀ r a, i ≠ .ctrlSetBase r a) →
        t.regs.textBase = s.regs.textBase ∧ t.regs.gfxBase = s.regs.gfxBase) ∧
      ((∀ f on, i ≠ .ctrlSetFlag f on) →
        t.regs.displayMode = s.regs.displayMode ∧ t.regs.displayModeHeld = s.regs.displayModeHeld) ∧
      ((∀ a, i ≠ .ctrlSetAdp a) → (∀ r, i ≠ .ctrlClear r) →
        t.regs.adpShadow = s.regs.adpShadow ∧ t.regs.adpShadowHeld = s.regs.adpShadowHeld))

/-- R207: how `LIFE` moves: a reset whose layout check fails leaves it, one that succeeds ends `Ready`, one that times
out ends `Configuring`; and no step leads to `Uninitialized` from another state. -/
def Obligations.LifecycleTransitions : Prop :=
  (∀ (rows cols : Byte) (s : State),
    (¬ ResetValid s.params rows cols → ∃ t, exec (.ctrlReset rows cols) s = .next t ∧ t.regs.life = s.regs.life) ∧
    (ResetValid s.params rows cols → ∃ t c, exec (.ctrlReset rows cols) s = .next t ∧
      t.port.log = s.port.log ++ [.response ⟨c, 0, []⟩] ∧
      ((c = .ok ∧ t.regs.life = .ready) ∨ (c = .handshakeTimeout ∧ t.regs.life = .configuring)))) ∧
  (∀ s t : State, step s = .next t → t.regs.life = .uninitialized → s.regs.life = .uninitialized)

/-- R102, R104: every command byte that any step strobes is one of the ten commands', and a command byte outside them
at the mux's own command port, which is the model's choice (assumption 8), is refused. -/
def Obligations.EngineEmitsOnlyItsCommandBytes : Prop :=
  (∀ s t : State, step s = .next t →
    ∃ l, t.bus.trace = s.bus.trace ++ l ∧ ∀ op, .commandWrite op ∈ l → op ∈ emittedBytes) ∧
  (∀ (s : State) (c : BusFrame), s.ctl.lock = false → s.port.mux = some c → c.op ∉ emittedBytes →
    step s = .refused (.noSuchCommand c.op))

/-! ### Bus cycles and polls -/

/-- R156 with the table of R151: from the idle outputs, each cycle at its settle point selects command or data,
drives its byte or turns the bus to input, and asserts its one strobe and the chip enable; it ends at the idle outputs
with the last byte driven still on `DATA_OUT`. -/
def Obligations.BusCyclesDriveTheirLines : Prop :=
  ∀ (l : Lines) (v : Byte), l.idle = true →
    let at_settle (c : BusCycle) := (c.calls.takeWhile (· != .settle)).foldl Lines.call l
    let at_end (c : BusCycle) := c.calls.foldl Lines.call l
    at_settle (.statusRead v) = ⟨.input, l.dataOut, .command, .deasserted, .asserted, .asserted⟩ ∧
    at_settle (.dataRead v) = ⟨.input, l.dataOut, .data, .deasserted, .asserted, .asserted⟩ ∧
    at_settle (.dataWrite v) = ⟨.output, v, .data, .asserted, .deasserted, .asserted⟩ ∧
    at_settle (.commandWrite v) = ⟨.output, v, .command, .asserted, .deasserted, .asserted⟩ ∧
    at_end (.statusRead v) = l ∧ at_end (.dataRead v) = l ∧
    at_end (.dataWrite v) = { l with dataOut := v } ∧ at_end (.commandWrite v) = { l with dataOut := v }

/-- R131, R132, R133, with R137: what each condition tests, and that bits 4 to 7 never matter. -/
def Obligations.ConditionsTestTheirBits : Prop :=
  ∀ b : Byte,
    (meets .commandReady b = true ↔ b.getLsbD 0 = true ∧ b.getLsbD 1 = true) ∧
    (meets .autoWriteReady b = true ↔ b.getLsbD 3 = true) ∧
    (meets .autoReadReady b = true ↔ b.getLsbD 2 = true) ∧
    (∀ c, meets c (b &&& 0x0F) = meets c b)

/-- R134: a poll reads the peer's status bytes, each fresh, until the first that meets its condition, or
`RETRY_LIMIT` of them, none of which does; it does nothing else. -/
def Obligations.PollReadsUntilTheFirstMatch : Prop :=
  ∀ (c : PollCond) (s : State), ∃ n,
    (pollUntil c s).1.bus = s.bus.run ((statusBytes n s.bus.peer).map .statusRead) ∧
    (pollUntil c s).1.regs = s.regs ∧ (pollUntil c s).1.port = s.port ∧
    (pollUntil c s).1.params = s.params ∧ (pollUntil c s).1.ctl.retry = none ∧
    (((pollUntil c s).2 = .ok ∧ n ≤ s.params.retryLimit.toNat ∧
        ∃ early last, statusBytes n s.bus.peer = early ++ [last] ∧ meets c last = true ∧
          ∀ b ∈ early, meets c b = false) ∨
      ((pollUntil c s).2 = .handshakeTimeout ∧ n = s.params.retryLimit.toNat ∧
        ∀ b ∈ statusBytes n s.bus.peer, meets c b = false))

/-- R157, R158: the single-byte primitives move their byte after a poll for ready-for-command that succeeds within its
budget; on a timeout they have issued exactly `RETRY_LIMIT` status reads and no data or command cycle. They write no
register of the engine. -/
def Obligations.SingleBytePrimitives : Prop :=
  ∀ (s : State) (v : Byte), ∃ n,
    let answers := statusBytes n s.bus.peer
    let polled := s.bus.run (answers.map .statusRead)
    ((n ≤ s.params.retryLimit.toNat ∧
        (∃ early last, answers = early ++ [last] ∧ meets .commandReady last = true ∧
          ∀ b ∈ early, meets .commandReady b = false) ∧
        (writeByte v s).2 = .ok ∧ (writeByte v s).1.bus = polled.run [.dataWrite v] ∧
        (readByte s).2 = (.ok, some polled.peer.dataAnswer) ∧
        (readByte s).1.bus = polled.run [.dataRead polled.peer.dataAnswer]) ∨
      (n = s.params.retryLimit.toNat ∧ (∀ b ∈ answers, meets .commandReady b = false) ∧
        (writeByte v s).2 = .handshakeTimeout ∧ (readByte s).2 = (.handshakeTimeout, none) ∧
        (writeByte v s).1.bus = polled ∧ (readByte s).1.bus = polled)) ∧
    (writeByte v s).1.regs = s.regs ∧ (readByte s).1.regs = s.regs

/-! ### Bus commands, each given to the mux by itself: that form of running one is the model's choice (assumption 8) -/

/-- R164, R167 to R171: under `READY` each address command, given to the mux by itself (assumption 8), is its low byte,
its high byte and its strobe, each after one status read, and it changes no register. -/
def Obligations.AddressCommandsComplete : Prop :=
  ∀ (s : State) (a : Addr), ReadyOracle s →
    let sent (op : Byte) := readyCycles
      [.dataWrite (BitVec.ofNat 8 (a.toNat % 256)), .dataWrite (BitVec.ofNat 8 (a.toNat / 256)), .commandWrite op]
    exec (.setAdp a) s = .next (s.commandDone (sent 0x24) .ok) ∧
    exec (.txtHome a) s = .next (s.commandDone (sent 0x40) .ok) ∧
    exec (.txtArea a) s = .next (s.commandDone (sent 0x41) .ok) ∧
    exec (.gfxHome a) s = .next (s.commandDone (sent 0x42) .ok) ∧
    exec (.gfxArea a) s = .next (s.commandDone (sent 0x43) .ok)

/-- R161, R172 to R176: under `READY` each command without data, given to the mux by itself (assumption 8), is its strobe
after one status read, and it changes no register; the auto-reset with any condition. -/
def Obligations.PlainCommandsComplete : Prop :=
  ∀ (s : State), ReadyOracle s →
    let sent (op : Byte) : List BusCycle := [.statusRead 0x0F, .commandWrite op]
    exec .modeXor s = .next (s.commandDone (sent 0x81) .ok) ∧
    (∀ m : BitVec 4, exec (.displayMode m) s = .next (s.commandDone (sent (BitVec.ofNat 8 (0x90 + m.toNat))) .ok)) ∧
    exec .autoWrite s = .next (s.commandDone (sent 0xB0) .ok) ∧
    exec .autoRead s = .next (s.commandDone (sent 0xB1) .ok) ∧
    (∀ c, exec (.autoReset c) s = .next (s.commandDone (sent 0xB2) .ok))

/-- R165, R166: whatever the peer answers, a bus command given to the mux by itself (assumption 8) changes no register; it
sends its data bytes in order and strobes its command byte last, or it times out with data bytes sent but its command
byte not strobed. -/
def Obligations.TimedOutCommandIsNotStrobed : Prop :=
  ∀ (i : Instr) (s : State), isRequest i = false → ∃ l c, exec i s = .next (s.commandDone l c) ∧
    ((c = .ok ∧ transfers l = commandTransfers i) ∨
      (c = .handshakeTimeout ∧ ∃ part, transfers l = part ∧ part <+: (commandTransfers i).dropLast))

/-- R70, R167 to R171: under `READY`, outside auto-write mode, an address command given to the mux by itself (assumption 8)
loads the reference device's register with its argument, empties the latch and leaves the rest of the device and display
memory alone. -/
def Obligations.AddressCommandsLoadTheDevice : Prop :=
  ∀ (s : State) (a : Addr), ReadyOracle s → s.bus.peer.attached = true → s.bus.peer.device.auto ≠ .write →
    let d := s.bus.peer.device
    (∃ t, exec (.setAdp a) s = .next t ∧ t.bus.peer.device = { d with adp := a, latch := [] }) ∧
    (∃ t, exec (.txtHome a) s = .next t ∧ t.bus.peer.device = { d with th := a, latch := [] }) ∧
    (∃ t, exec (.txtArea a) s = .next t ∧ t.bus.peer.device = { d with ta := a, latch := [] }) ∧
    (∃ t, exec (.gfxHome a) s = .next t ∧ t.bus.peer.device = { d with gh := a, latch := [] }) ∧
    (∃ t, exec (.gfxArea a) s = .next t ∧ t.bus.peer.device = { d with ga := a, latch := [] })

/-- R70, R172 to R176: under `READY` a command without data, given to the mux by itself (assumption 8), sets the reference
device's mode, display mode or auto mode, empties the latch and leaves the rest of the device and display memory alone. -/
def Obligations.PlainCommandsSetTheDevice : Prop :=
  ∀ (s : State), ReadyOracle s → s.bus.peer.attached = true →
    let d := s.bus.peer.device
    (∃ t, exec .modeXor s = .next t ∧ t.bus.peer.device = { d with mode := 0x81, latch := [] }) ∧
    (∀ m : BitVec 4, ∃ t, exec (.displayMode m) s = .next t ∧
      t.bus.peer.device = { d with dmode := 0x9#4 ++ m, latch := [] }) ∧
    (∃ t, exec .autoWrite s = .next t ∧ t.bus.peer.device = { d with auto := .write, latch := [] }) ∧
    (∃ t, exec .autoRead s = .next t ∧ t.bus.peer.device = { d with auto := .read, latch := [] }) ∧
    (∀ c, ∃ t, exec (.autoReset c) s = .next t ∧ t.bus.peer.device = { d with auto := .off, latch := [] })

/-! ### Bursts -/

/-- R252, R181, R186, R187: under `READY` on a `Ready` engine a `WRITE` is its entry, one data write per payload byte,
less 0x20 modulo 256 in text entry mode and raw otherwise, and its exit; it reports all of its bytes and changes no
register. -/
def Obligations.WriteCompletes : Prop :=
  ∀ (n : BitVec 16) (payload : List Byte) (s : State), payload.length = n.toNat → s.regs.life = .ready →
    ReadyOracle s →
    exec (.write n payload) s = .next (s.done s.regs
      (readyCycles (burstCycles (payload.map (fun b => if s.regs.entryMode = .text then b - 0x20 else b))))
      ⟨.ok, n, []⟩)

/-- R253, R182, R187: under `READY` on a `Ready` engine a `READ` of at least one byte is its entry, one data read per
byte and its exit; it returns the bytes the peer answered, raw, and changes no register. -/
def Obligations.ReadCompletes : Prop :=
  ∀ (n : BitVec 16) (s : State), n ≠ 0 → s.regs.life = .ready → ReadyOracle s →
    let data := readBytes n.toNat (s.bus.peer.afterCommandWrite 0xB1)
    exec (.read n) s = .next (s.done s.regs
      (readyCycles (.commandWrite 0xB1 :: data.map .dataRead ++ [.commandWrite 0xB2])) ⟨.ok, n, data⟩)

/-- R183: bursts of length 0 issue no bus cycle, whatever the peer, and succeed with count 0 and no data; so do a
`WRITE` and a `READ` of no byte. -/
def Obligations.EmptyBurstsIssueNoCycle : Prop :=
  ∀ s : State,
    (∀ text, burstWrite [] text s = (s, ⟨.ok, 0, []⟩)) ∧ burstRead 0 s = (s, ⟨.ok, 0, []⟩) ∧
    (s.regs.life = .ready →
      exec (.write 0 []) s = .next (s.done s.regs [] ⟨.ok, 0, []⟩) ∧
      exec (.read 0) s = .next (s.done s.regs [] ⟨.ok, 0, []⟩))

/-- R180, R185, R189, R190: whatever the peer answers, a `WRITE` of at least one byte on a `Ready` engine changes no
register and has either timed out at its entry with nothing moved, or moved the first `k` bytes in order, which it
reports, and strobed its exit or timed out there; it succeeds exactly where all were moved and the exit strobed. -/
def Obligations.WriteReportsTheBytesMoved : Prop :=
  ∀ (n : BitVec 16) (payload : List Byte) (s : State), payload.length = n.toNat → n ≠ 0 →
    s.regs.life = .ready →
    let sent := payload.map (fun b => if s.regs.entryMode = .text then b - 0x20 else b)
    ∃ l c k, exec (.write n payload) s = .next (s.done s.regs l ⟨c, BitVec.ofNat 16 k, []⟩) ∧
      k ≤ payload.length ∧ bytesWritten l = sent.take k ∧
      ((c = .handshakeTimeout ∧ k = 0 ∧ transfers l = []) ∨
       (c = .handshakeTimeout ∧ transfers l = .commandWrite 0xB0 :: (sent.take k).map .dataWrite) ∨
       (transfers l = .commandWrite 0xB0 :: (sent.take k).map .dataWrite ++ [.commandWrite 0xB2] ∧
         ((c = .ok ∧ k = payload.length) ∨ (c = .handshakeTimeout ∧ k < payload.length))))

/-- R182, R190: the same of a `READ`: the data reported are the bytes read, in order, and the count is their number. -/
def Obligations.ReadReportsTheBytesRead : Prop :=
  ∀ (n : BitVec 16) (s : State), n ≠ 0 → s.regs.life = .ready →
    ∃ l c data, exec (.read n) s = .next (s.done s.regs l ⟨c, BitVec.ofNat 16 data.length, data⟩) ∧
      data.length ≤ n.toNat ∧ bytesRead l = data ∧
      ((c = .handshakeTimeout ∧ data = [] ∧ transfers l = []) ∨
       (c = .handshakeTimeout ∧ transfers l = .commandWrite 0xB1 :: data.map .dataRead) ∨
       (transfers l = .commandWrite 0xB1 :: data.map .dataRead ++ [.commandWrite 0xB2] ∧
         ((c = .ok ∧ data.length = n.toNat) ∨ (c = .handshakeTimeout ∧ data.length < n.toNat))))

/-- R188: where the peer is never ready-for-command (one constant answer), a burst has issued only status reads, no
data cycle and no exit, and reports 0. -/
def Obligations.EntryFailureMovesNothing : Prop :=
  ∀ (n : BitVec 16) (payload : List Byte) (b : Byte) (s : State), payload.length = n.toNat → n ≠ 0 →
    s.regs.life = .ready → Answers b s → meets .commandReady b = false →
    let reads : List BusCycle := List.replicate s.params.retryLimit.toNat (.statusRead b)
    exec (.write n payload) s = .next (s.done s.regs reads ⟨.handshakeTimeout, 0, []⟩) ∧
    exec (.read n) s = .next (s.done s.regs reads ⟨.handshakeTimeout, 0, []⟩)

/-- R185: where the poll before byte `k` of a burst uses up its budget, byte `k` and every later one are not moved, the
exit still runs, and the result is `(HandshakeTimeout, k)` with the bytes moved so far. The peer answers 0x0F up to byte
`k`, then 0x03, which meets ready-for-command alone, as in the source's scenario, either for ever or for as many reads as
the budget holds, and then `e`: the exit is strobed where `e` meets the condition that `AUTO_EXIT_POLL` selects, and
times out else. -/
def Obligations.MidBurstTimeoutStillExits : Prop :=
  ∀ (n : BitVec 16) (payload : List Byte) (k m : Nat) (e : Byte) (s : State), payload.length = n.toNat →
    k < payload.length → s.regs.life = .ready → s.params.retryLimit ≠ 0 →
    s.bus.peer.statusScript = List.replicate (k + 1) 0x0F ++ List.replicate m 0x03 →
    s.bus.peer.statusConst = some e → (m = 0 ∧ e = 0x03) ∨ m = s.params.retryLimit.toNat →
    let sent := payload.map (fun b => if s.regs.entryMode = .text then b - 0x20 else b)
    let data := readBytes k (s.bus.peer.afterCommandWrite 0xB1)
    let budget (b : Byte) : List BusCycle := List.replicate s.params.retryLimit.toNat (.statusRead b)
    let exit (own : PollCond) : List BusCycle :=
      if meets (match s.params.exitPoll with | .commandReady => .commandReady | .autoCondition => own) e
      then [.statusRead e, .commandWrite 0xB2] else budget e
    exec (.write n payload) s = .next (s.done s.regs
      (readyCycles (.commandWrite 0xB0 :: (sent.take k).map .dataWrite) ++ budget 0x03 ++ exit .autoWriteReady)
      ⟨.handshakeTimeout, BitVec.ofNat 16 k, []⟩) ∧
    exec (.read n) s = .next (s.done s.regs
      (readyCycles (.commandWrite 0xB1 :: data.map .dataRead) ++ budget 0x03 ++ exit .autoReadReady)
      ⟨.handshakeTimeout, BitVec.ofNat 16 k, data⟩)

/-- R189: where the exit's poll times out, no exit command is strobed and the result is `(HandshakeTimeout, N)` with
all `N` bytes moved, for a `WRITE` and for a `READ`. -/
def Obligations.ExitFailureReportsTheBytesMoved : Prop :=
  ∀ (n : BitVec 16) (payload : List Byte) (s : State), payload.length = n.toNat → n ≠ 0 →
    s.regs.life = .ready → ReadyThen (payload.length + 1) 0x00 s →
    let sent := payload.map (fun b => if s.regs.entryMode = .text then b - 0x20 else b)
    let data := readBytes n.toNat (s.bus.peer.afterCommandWrite 0xB1)
    let budget : List BusCycle := List.replicate s.params.retryLimit.toNat (.statusRead 0x00)
    exec (.write n payload) s = .next (s.done s.regs
      (readyCycles (.commandWrite 0xB0 :: sent.map .dataWrite) ++ budget) ⟨.handshakeTimeout, n, []⟩) ∧
    exec (.read n) s = .next (s.done s.regs
      (readyCycles (.commandWrite 0xB1 :: data.map .dataRead) ++ budget) ⟨.handshakeTimeout, n, data⟩)

/-- R184: the exit polls ready-for-command or the burst's own condition, as `AUTO_EXIT_POLL` says: ready-for-auto-write
for a `WRITE`, ready-for-auto-read for a `READ`. The peer answers 0x03 once, and then for ever 0x08, which meets
ready-for-auto-write alone, or 0x04, which meets ready-for-auto-read alone. -/
def Obligations.ExitPollFollowsItsParameter : Prop :=
  ∀ (n : BitVec 16) (payload : List Byte) (s : State), payload.length = n.toNat → n ≠ 0 →
    s.regs.life = .ready → s.bus.peer.statusScript = [0x03] → s.params.retryLimit ≠ 0 →
    let sent := payload.map (fun b => if s.regs.entryMode = .text then b - 0x20 else b)
    let written : List BusCycle :=
      [.statusRead 0x03, .commandWrite 0xB0] ++ sent.flatMap (fun v => [.statusRead 0x08, .dataWrite v])
    let data := readBytes n.toNat (s.bus.peer.afterCommandWrite 0xB1)
    let taken : List BusCycle :=
      [.statusRead 0x03, .commandWrite 0xB1] ++ data.flatMap (fun v => [.statusRead 0x04, .dataRead v])
    (s.bus.peer.statusConst = some 0x08 →
      (s.params.exitPoll = .autoCondition → exec (.write n payload) s = .next (s.done s.regs
        (written ++ [.statusRead 0x08, .commandWrite 0xB2]) ⟨.ok, n, []⟩)) ∧
      (s.params.exitPoll = .commandReady → exec (.write n payload) s = .next (s.done s.regs
        (written ++ List.replicate s.params.retryLimit.toNat (.statusRead 0x08)) ⟨.handshakeTimeout, n, []⟩))) ∧
    (s.bus.peer.statusConst = some 0x04 →
      (s.params.exitPoll = .autoCondition → exec (.read n) s = .next (s.done s.regs
        (taken ++ [.statusRead 0x04, .commandWrite 0xB2]) ⟨.ok, n, data⟩)) ∧
      (s.params.exitPoll = .commandReady → exec (.read n) s = .next (s.done s.regs
        (taken ++ List.replicate s.params.retryLimit.toNat (.statusRead 0x04)) ⟨.handshakeTimeout, n, data⟩)))

/-- R192: with the reference device under `READY`, writing a list raw at an address and reading as many bytes back from
that address returns the list. -/
def Obligations.WriteThenReadReturnsTheBytes : Prop :=
  ∀ (a : Addr) (bs : List Byte) (s : State), bs.length < 0x10000 → s.regs.life = .ready →
    s.regs.entryMode = .graphics → ReadyOracle s → PeerInv s → s.bus.peer.attached = true →
    s.bus.peer.device.auto ≠ .write →
    ∃ t1 t2 t3 t4,
      exec (.ctrlSetAdp a) s = .next t1 ∧
      exec (.write (BitVec.ofNat 16 bs.length) bs) t1 = .next t2 ∧
      exec (.ctrlSetAdp a) t2 = .next t3 ∧
      exec (.read (BitVec.ofNat 16 bs.length)) t3 = .next t4 ∧
      t4.port.log = t3.port.log ++ [.response ⟨.ok, BitVec.ofNat 16 bs.length, bs⟩]

/-! ### Display memory -/

/-- R177, R70: whatever the peer answers to status reads, a `WRITE` that reports `k` bytes has stored them in order at
the attached controller's pointer and the addresses after it, modulo 2^16, has advanced the pointer by `k`, and has left
every other byte of display memory as it was. -/
def Obligations.WriteStoresAtThePointer : Prop :=
  ∀ (n : BitVec 16) (payload : List Byte) (s : State), payload.length = n.toNat → s.regs.life = .ready →
    PeerInv s → s.bus.peer.attached = true →
    let sent := payload.map (fun b => if s.regs.entryMode = .text then b - 0x20 else b)
    ∃ t c k, exec (.write n payload) s = .next t ∧ k ≤ payload.length ∧
      t.port.log = s.port.log ++ [.response ⟨c, BitVec.ofNat 16 k, []⟩] ∧
      t.bus.peer.device.adp = s.bus.peer.device.adp + BitVec.ofNat 16 k ∧
      (∀ i, i < k → sent[i]? = some (displayByte t (pointerAfter s i))) ∧
      (∀ x, (∀ i, i < k → x ≠ pointerAfter s i) → displayByte t x = displayByte s x)

/-- The instructions that store nothing leave every byte of display memory as it was, whatever the peer answers. -/
def Obligations.RequestsThatStoreNothing : Prop :=
  ∀ (i : Instr) (s t : State),
    ((∃ n, i = .read n) ∨ (∃ m, i = .ctrlSetEntry m) ∨ (∃ f on, i = .ctrlSetFlag f on) ∨ i = .ctrlGetStatus ∨
      i = .modeXor ∨ (∃ m, i = .displayMode m) ∨ i = .autoWrite ∨ i = .autoRead ∨ (∃ c, i = .autoReset c) ∨
      (i = .openReq ∧ s.regs.life = .ready)) →
    exec i s = .next t → ∀ x, displayByte t x = displayByte s x

/-- The instructions that send a 16-bit argument and nothing else leave every byte of display memory as it was, unless
an attached controller was left in auto-write mode (R189, R70); then only those at its pointer and after it. -/
def Obligations.ArgumentBytesStoreOnlyInAutoWrite : Prop :=
  ∀ (i : Instr) (s t : State),
    ((∃ a, i = .ctrlSetAdp a) ∨ (∃ r a, i = .ctrlSetBase r a) ∨ (∃ a, i = .setAdp a) ∨ (∃ a, i = .txtHome a) ∨
      (∃ p, i = .txtArea p) ∨ (∃ a, i = .gfxHome a) ∨ (∃ p, i = .gfxArea p)) →
    PeerInv s → exec i s = .next t →
    (¬ StoresArguments s → ∀ x, displayByte t x = displayByte s x) ∧
    (∀ x, x ≠ pointerAfter s 0 → x ≠ pointerAfter s 1 → displayByte t x = displayByte s x)

/-- R214 and its frame: a clear of a controller that is not in auto-write mode leaves every byte outside its region as
it was, whatever the peer answers to status reads, and under `READY` it has zeroed every byte of the region and left the
pointer at its end. -/
def Obligations.ClearZeroesItsRegion : Prop :=
  ∀ (r : Region) (s : State), s.regs.life = .ready → LayoutInv s → PeerInv s → ¬ StoresArguments s →
    let base := (match r with | .text => s.regs.textBase | .graphics => s.regs.gfxBase).toNat
    let len := match r with
      | .text => s.regs.rows.toNat * s.regs.cols.toNat
      | .graphics => 2 * s.regs.rows.toNat * s.regs.rowWidth.toNat * 8
    (∀ t, exec (.ctrlClear r) s = .next t → ∀ x, (x < base ∨ base + len ≤ x) → displayByte t x = displayByte s x) ∧
    (ReadyOracle s → s.bus.peer.attached = true →
      ∃ t, exec (.ctrlClear r) s = .next t ∧
        t.bus.peer.device.adp = BitVec.ofNat 16 (base + len) ∧
        ∀ x, base ≤ x → x < base + len → displayByte t x = 0)

/-- R221, R36: a reset leaves every byte of display memory outside its two regions as it was, whatever the peer answers
to status reads; under `READY` it has zeroed both regions and left the attached controller's pointer at the end of the
graphics region, out of auto mode. -/
def Obligations.ResetClearsBothRegions : Prop :=
  ∀ (rows cols : Byte) (s : State), PeerInv s → ResetValid s.params rows cols →
    let r := rows.toNat
    let c := cols.toNat
    let gb := 2 + r * c + 2 * c
    let glen := 2 * r * (8 * ((c + 7) / 8)) * 8
    (∀ t, exec (.ctrlReset rows cols) s = .next t →
      ∀ x, (x < 2 ∨ 2 + r * c ≤ x) → (x < gb ∨ gb + glen ≤ x) → displayByte t x = displayByte s x) ∧
    (ReadyOracle s → s.bus.peer.attached = true →
      ∃ t, exec (.ctrlReset rows cols) s = .next t ∧
        t.bus.peer.device.adp = BitVec.ofNat 16 (gb + glen) ∧ t.bus.peer.device.auto = .off ∧
        (∀ x, 2 ≤ x → x < 2 + r * c → displayByte t x = 0) ∧
        (∀ x, gb ≤ x → x < gb + glen → displayByte t x = 0))

/-! ### Layout and reset -/

/-- R201, with R203 and R205: the row width is the least multiple of 8 that is at least `c`, and 0 columns fail every
layout check; the graphics base is `2 + r*c + 2*c`, and for a reset conditions 2 and 3 of the check follow from
condition 1. -/
def Obligations.LayoutFormulas : Prop :=
  (∀ c, rowWidthOf c % 8 = 0 ∧ c ≤ rowWidthOf c ∧ ∀ m, m % 8 = 0 → c ≤ m → rowWidthOf c ≤ m) ∧
  rowWidthOf 30 = 32 ∧ rowWidthOf 32 = 32 ∧ rowWidthOf 1 = 8 ∧ rowWidthOf 249 = 256 ∧ rowWidthOf 255 = 256 ∧
  rowWidthOf 0 = 0 ∧ (∀ space tb gb r, ¬ LayoutValid space tb gb r 0) ∧
  (∀ r c, gfxBaseOf r c = 2 + r * c + 2 * c) ∧ gfxBaseOf 5 30 = 0x00D4 ∧
  (∀ r c, 1 ≤ c → 2 < gfxBaseOf r c ∧ 2 + textLen r c ≤ gfxBaseOf r c)

/-- R206: a failed layout check raises `InvalidLayout` before any bus cycle and writes no register: a reset's, in every
`LIFE` state, a base address's, and the one inside `OPEN`, which reports it as `NotReady` (R251). The reset's check, with
the values of R201 to R204 put into R205. -/
def Obligations.FailedLayoutCheckTouchesNothing : Prop :=
  (∀ (rows cols : Byte) (s : State), ¬ ResetValid s.params rows cols →
    exec (.ctrlReset rows cols) s = .next (s.done s.regs [] ⟨.invalidLayout, 0, []⟩)) ∧
  (∀ (r : Region) (a : Addr) (s : State), s.regs.life = .ready →
    ¬ LayoutValid s.params.addrSpace.val (match r with | .text => a | .graphics => s.regs.textBase).toNat
        (match r with | .text => s.regs.gfxBase | .graphics => a).toNat s.regs.rows.toNat s.regs.cols.toNat →
    exec (.ctrlSetBase r a) s = .next (s.done s.regs [] ⟨.invalidLayout, 0, []⟩)) ∧
  (∀ s : State, s.regs.life ≠ .ready → ¬ ResetValid s.params s.params.cfgRows s.params.cfgCols →
    exec .openReq s = .next (s.done s.regs [] ⟨.notReady, 0, []⟩)) ∧
  (∀ (rows cols : Byte) (p : Params), ResetValid p rows cols ↔
    1 ≤ cols.toNat ∧ 2 + rows.toNat * cols.toNat + 2 * cols.toNat < p.addrSpace.val ∧
      2 + rows.toNat * cols.toNat + 2 * cols.toNat + 2 * rows.toNat * (8 * ((cols.toNat + 7) / 8)) * 8 ≤
        p.addrSpace.val)

/-- R215 to R223, R36: under `READY` a reset with a valid layout issues the cycles of its steps in their order, each
after one status read, and leaves `LIFE = Ready`, the new layout, `DISPLAY_MODE = 0x0A`, `ADP_SHADOW = GFX_BASE` and
`ENTRY_MODE` as it was; in every `LIFE` state (R224). -/
def Obligations.ResetCompletes : Prop :=
  ∀ (rows cols : Byte) (s : State), ReadyOracle s → ResetValid s.params rows cols →
    exec (.ctrlReset rows cols) s = .next (s.done (resetRegs rows cols s.regs)
      (readyCycles (resetCycles rows cols)) ⟨.ok, 0, []⟩)

/-- R225: the number of bus cycles of a successful reset under `READY`, one status read before each other cycle; for
(5, 30) they are 5478: 2739 status reads, 2722 data writes and 17 command writes. -/
def Obligations.ResetCycleCount : Prop :=
  ∀ (rows cols : Byte) (s : State), ReadyOracle s → ResetValid s.params rows cols →
    let B (n : Nat) := if n = 0 then 0 else 4 + 2 * n
    let r := rows.toNat
    let c := cols.toNat
    ∃ t l, exec (.ctrlReset rows cols) s = .next t ∧ t.bus.trace = s.bus.trace ++ l ∧
      l.length = 2 + 2 + 12 + 12 + 2 + (6 + B (r * c)) + (6 + B (2 * r * (8 * ((c + 7) / 8)) * 8)) + 8 ∧
      l = readyCycles (transfers l) ∧
      (rows = 5 → cols = 30 → l.length = 5478 ∧ (transfers l).length = 2739 ∧ (bytesWritten l).length = 2722 ∧
        bytesRead l = [])

/-- R223, R226, R300: a reset with a valid layout, whatever the peer answers, either succeeds with every step done, or
times out with `LIFE = Configuring`, the new layout in the layout registers, `ENTRY_MODE` as it was, and its transfers
stopped on the way, plus the exit of the burst it stopped in if it stopped in one. Either way `DISPLAY_MODE` is what the
last mode command strobed carried, and `ADP_SHADOW` the address of the last address-set strobed, the text base and then
the graphics base; each is as it was where none was strobed. -/
def Obligations.TimedOutResetStaysConfiguring : Prop :=
  ∀ (rows cols : Byte) (s : State), ResetValid s.params rows cols →
    let gb := 2 + rows.toNat * cols.toNat + 2 * cols.toNat
    ∃ regs l c, exec (.ctrlReset rows cols) s = .next (s.done regs l ⟨c, 0, []⟩) ∧
      ModeAfter s.regs l regs ∧ ShadowAfter [0x0002, BitVec.ofNat 16 gb] s.regs l regs ∧
      ((c = .ok ∧ regs = resetRegs rows cols s.regs ∧ transfers l = resetCycles rows cols) ∨
       (c = .handshakeTimeout ∧ regs.life = .configuring ∧
        regs.rows = rows ∧ regs.cols = cols ∧ regs.rowWidth.toNat = 8 * ((cols.toNat + 7) / 8) ∧
        regs.textBase = 0x0002 ∧ regs.gfxBase.toNat = gb ∧
        regs.layoutHeld = true ∧ regs.entryMode = s.regs.entryMode ∧
        ∃ part, part <+: resetCycles rows cols ∧ part ≠ resetCycles rows cols ∧
          (transfers l = part ∨ InsideBurst part ∧ transfers l = part ++ [.commandWrite 0xB2])))

/-- R251: `OPEN` on a `Ready` engine succeeds with no bus cycle; on any other, under `READY` and with valid `CFG_ROWS`
and `CFG_COLS`, it is a whole reset. -/
def Obligations.OpenCompletes : Prop :=
  ∀ s : State,
    (s.regs.life = .ready → exec .openReq s = .next (s.done s.regs [] ⟨.ok, 0, []⟩)) ∧
    (s.regs.life ≠ .ready → ReadyOracle s → ResetValid s.params s.params.cfgRows s.params.cfgCols →
      exec .openReq s = .next (s.done (resetRegs s.params.cfgRows s.params.cfgCols s.regs)
        (readyCycles (resetCycles s.params.cfgRows s.params.cfgCols)) ⟨.ok, 0, []⟩))

/-- R251, R292, 90_conflicts.md C14: where the engine is not `Ready`, `OPEN` does exactly what `CTRL.RESET` with
`CFG_ROWS` and `CFG_COLS` does, but any failure of the reset is reported as `NotReady`. -/
def Obligations.OpenReportsAnyFailureAsNotReady : Prop :=
  ∀ s : State, s.regs.life ≠ .ready → ∃ regs l c,
    exec (.ctrlReset s.params.cfgRows s.params.cfgCols) s = .next (s.done regs l ⟨c, 0, []⟩) ∧
    exec .openReq s = .next (s.done regs l ⟨if c = .ok then .ok else .notReady, 0, []⟩)

/-! ### Control requests -/

/-- R250, R292: a request that needs `Ready` and finds another `LIFE` is answered `NotReady`, with no bus cycle and no
register written. -/
def Obligations.RequestsBeforeReadyAreTurnedAway : Prop :=
  ∀ (i : Instr) (s : State), WellFormed i = true → isRequest i = true → i ≠ .openReq →
    (∀ r c, i ≠ .ctrlReset r c) → s.regs.life ≠ .ready →
    exec i s = .next (s.done s.regs [] ⟨.notReady, 0, []⟩)

/-- R98, R305, R306: every well-formed request ends with exactly one response, the lock clear and the rest of the port
as it was; `DATA` is the bytes read for `READ`, one status byte for a `CTRL.GETSTATUS` carried out, and empty otherwise;
`COUNT` is the number of bytes written for `WRITE`, of bytes read for `READ`, of zero bytes written for `CTRL.CLEAR`
(its data writes past the two of its address), and 0 otherwise. -/
def Obligations.EveryRequestHasOneResponse : Prop :=
  ∀ (i : Instr) (s : State), isRequest i = true → WellFormed i = true → LayoutInv s →
    ∃ regs l r, exec i s = .next (s.done regs l r) ∧
      r.count.toNat = (match i with
        | .write _ _ => (bytesWritten l).length
        | .read _ => r.data.length
        | .ctrlClear _ => (bytesWritten l).length - 2
        | _ => 0) ∧
      (match i with
        | .read _ => r.data = bytesRead l
        | .ctrlGetStatus => s.regs.life = .ready → ∃ b, r.data = [b] ∧ l = [.statusRead b]
        | _ => r.data = [])

/-- R255: `CTRL.SETENTRY` writes `ENTRY_MODE` and nothing else, with no bus cycle; before `Ready` it is answered
`NotReady`; its two words. -/
def Obligations.SetEntryWritesEntryMode : Prop :=
  ∀ (m : EntryMode) (s : State),
    (s.regs.life = .ready →
      exec (.ctrlSetEntry m) s = .next (s.done { s.regs with entryMode := m } [] ⟨.ok, 0, []⟩)) ∧
    (s.regs.life ≠ .ready →
      exec (.ctrlSetEntry m) s = .next (s.done s.regs [] ⟨.notReady, 0, []⟩)) ∧
    encode (.ctrlSetEntry .text) = .request ⟨0x31000000, []⟩ ∧
    encode (.ctrlSetEntry .graphics) = .request ⟨0x31010000, []⟩

/-- R256, R211: under `READY` `CTRL.SETADP` sends its address low byte first, strobes 0x24 and writes `ADP_SHADOW`, for
every address; whatever the peer answers, it writes it only where its command was strobed, and on a timeout no register
changes. -/
def Obligations.SetAdpCompletes : Prop :=
  ∀ (a : Addr) (s : State), s.regs.life = .ready →
    (ReadyOracle s →
      exec (.ctrlSetAdp a) s = .next (s.done { s.regs with adpShadow := a, adpShadowHeld := true }
        (readyCycles [.dataWrite (BitVec.ofNat 8 (a.toNat % 256)), .dataWrite (BitVec.ofNat 8 (a.toNat / 256)),
          .commandWrite 0x24])
        ⟨.ok, 0, []⟩)) ∧
    ∃ regs l c, exec (.ctrlSetAdp a) s = .next (s.done regs l ⟨c, 0, []⟩) ∧
      ((c = .ok ∧ .commandWrite 0x24 ∈ l ∧ regs = { s.regs with adpShadow := a, adpShadowHeld := true }) ∨
       (c = .handshakeTimeout ∧ (∀ op, .commandWrite op ∉ l) ∧ regs = s.regs))

/-- R257, R209, R101: under `READY` `CTRL.SETFLAG` strobes `0x90 | m` once, where `m` is `DISPLAY_MODE` with the flag's
bit set to the value, and leaves `m` in `DISPLAY_MODE`. -/
def Obligations.SetFlagCompletes : Prop :=
  ∀ (f : Flag) (on : Bool) (s : State), s.regs.life = .ready → ReadyOracle s →
    let bit := match f with | .blink => 0 | .cursor => 1 | .text => 2 | .graphics => 3
    ∃ m : Byte,
      (∀ i, i < 8 → m.getLsbD i =
        if i = bit then on else if i < 4 then s.regs.displayMode.getLsbD i else false) ∧
      exec (.ctrlSetFlag f on) s = .next (s.done { s.regs with displayMode := m, displayModeHeld := true }
        [.statusRead 0x0F, .commandWrite (0x90 ||| m)] ⟨.ok, 0, []⟩)

/-- R210, R208: setting a flag leaves every bit of `DISPLAY_MODE` but that flag's as it was, whatever the peer answers;
as the request `CTRL.SETFLAG` on a `Ready` engine, it sets the flag where it succeeds, leaves `DISPLAY_MODE` as it was
and has strobed nothing where it times out, and changes no other register. -/
def Obligations.FlagsAreIndependent : Prop :=
  ∀ (f : Flag) (on : Bool) (s : State),
    let bit := match f with | .blink => 0 | .cursor => 1 | .text => 2 | .graphics => 3
    (modeByte s.regs.displayMode = s.regs.displayMode → ∀ i, i ≠ bit →
      (setDisplayFlag f on s).1.regs.displayMode.getLsbD i = s.regs.displayMode.getLsbD i) ∧
    (s.regs.life = .ready → ∃ m h l c, exec (.ctrlSetFlag f on) s =
        .next (s.done { s.regs with displayMode := m, displayModeHeld := h } l ⟨c, 0, []⟩) ∧
      (∀ i, i < 4 → i ≠ bit → m.getLsbD i = s.regs.displayMode.getLsbD i) ∧
      ((c = .ok ∧ m.getLsbD bit = on ∧ h = true) ∨
       (c = .handshakeTimeout ∧ m = s.regs.displayMode ∧ h = s.regs.displayModeHeld ∧ transfers l = [])))

/-- R212: `CTRL.SETBASE` with a pair that fails R205 is `InvalidLayout` with nothing done; with one that passes, under
`READY`, it sends the region's home command and writes the one base register; whatever the peer answers, it writes it
only where it succeeds. -/
def Obligations.SetBaseWritesOneBase : Prop :=
  ∀ (r : Region) (a : Addr) (s : State), s.regs.life = .ready →
    let tb := match r with | .text => a | .graphics => s.regs.textBase
    let gb := match r with | .text => s.regs.gfxBase | .graphics => a
    let op : Byte := match r with | .text => 0x40 | .graphics => 0x42
    let new := { s.regs with textBase := tb, gfxBase := gb }
    let valid := LayoutValid s.params.addrSpace.val tb.toNat gb.toNat s.regs.rows.toNat s.regs.cols.toNat
    (¬ valid → exec (.ctrlSetBase r a) s = .next (s.done s.regs [] ⟨.invalidLayout, 0, []⟩)) ∧
    (valid → ReadyOracle s → exec (.ctrlSetBase r a) s = .next (s.done new
      (readyCycles [.dataWrite (BitVec.ofNat 8 (a.toNat % 256)), .dataWrite (BitVec.ofNat 8 (a.toNat / 256)),
        .commandWrite op]) ⟨.ok, 0, []⟩)) ∧
    (valid → ∃ regs l c, exec (.ctrlSetBase r a) s = .next (s.done regs l ⟨c, 0, []⟩) ∧
      ((c = .ok ∧ .commandWrite op ∈ l ∧ regs = new) ∨
       (c = .handshakeTimeout ∧ (∀ o, .commandWrite o ∉ l) ∧ regs = s.regs)))

/-- R259, R214: under `READY` `CTRL.CLEAR` sets the pointer to its region's base, writes one raw zero byte for each byte
of the region and reports their number, which fits 16 bits; `ADP_SHADOW` is the base. -/
def Obligations.ClearCompletes : Prop :=
  ∀ (r : Region) (s : State), s.regs.life = .ready → LayoutInv s → ReadyOracle s →
    let base := match r with | .text => s.regs.textBase | .graphics => s.regs.gfxBase
    let len := match r with
      | .text => s.regs.rows.toNat * s.regs.cols.toNat
      | .graphics => 2 * s.regs.rows.toNat * s.regs.rowWidth.toNat * 8
    len < 0x10000 ∧
    exec (.ctrlClear r) s = .next (s.done { s.regs with adpShadow := base, adpShadowHeld := true }
      (readyCycles (addrCycles 0x24 base ++
        if len = 0 then []
        else .commandWrite 0xB0 :: List.replicate len (.dataWrite 0) ++ [.commandWrite 0xB2]))
      ⟨.ok, BitVec.ofNat 16 len, []⟩)

/-- R214, R300: whatever the peer answers, `CTRL.CLEAR` changes no register but `ADP_SHADOW`, which holds the region's
base where the address-set succeeded; where it did not, nothing was cleared and nothing is reported. -/
def Obligations.ClearMovesOnlyTheShadow : Prop :=
  ∀ (r : Region) (s : State), s.regs.life = .ready →
    let base := match r with | .text => s.regs.textBase | .graphics => s.regs.gfxBase
    ∃ regs l res, exec (.ctrlClear r) s = .next (s.done regs l res) ∧
      (res.code = .ok ∨ res.code = .handshakeTimeout) ∧
      ((regs = { s.regs with adpShadow := base, adpShadowHeld := true } ∧ .commandWrite 0x24 ∈ l) ∨
       (regs = s.regs ∧ res = ⟨.handshakeTimeout, 0, []⟩ ∧ ∀ op, .commandWrite op ∉ l))

/-- R260: on a `Ready` engine `CTRL.GETSTATUS` is exactly one status read, whose byte it returns unchanged, whatever it
is; it keeps nothing and never times out; before `Ready` it is answered `NotReady`; its word. -/
def Obligations.GetStatusIsOneStatusRead : Prop :=
  ∀ s : State,
    (s.regs.life = .ready → exec .ctrlGetStatus s =
      .next (s.done s.regs [.statusRead s.bus.peer.statusAnswer] ⟨.ok, 0, [s.bus.peer.statusAnswer]⟩)) ∧
    (s.regs.life ≠ .ready → exec .ctrlGetStatus s = .next (s.done s.regs [] ⟨.notReady, 0, []⟩)) ∧
    encode .ctrlGetStatus = .request ⟨0x36000000, []⟩

/-- R331: the bounds on the number of bus cycles, in terms of `L = RETRY_LIMIT`. -/
def Obligations.CycleBounds : Prop :=
  ∀ s : State,
    let L := s.params.retryLimit.toNat
    let issued (t : State) := t.bus.trace.length - s.bus.trace.length
    (∀ c, issued (pollUntil c s).1 ≤ L ∧ (L ≠ 0 → 1 ≤ issued (pollUntil c s).1)) ∧
    (∀ op, issued (sendCommand0 op s).1 ≤ L + 1) ∧
    (∀ op a, issued (sendCommandAddr op a s).1 ≤ 3 * L + 3) ∧
    (∀ bytes text, bytes ≠ [] → issued (burstWrite bytes text s).1 ≤ (L + 1) * (bytes.length + 2)) ∧
    (∀ n, n ≠ 0 → issued (burstRead n s).1 ≤ (L + 1) * (n + 2)) ∧
    (∀ t, s.regs.life = .ready → exec .ctrlGetStatus s = .next t → issued t = 1)
end

