-- ==== Sys2Proof/Laws/State.lean ====
section
/-! SUPPORT. What each update of the state does to each part of it, and what a list of bus cycles does to the bus
side. -/

namespace Sys2Proof.Machine

/-! ### Updates of the state -/

@[simp] theorem tick_params (s : State) : s.tick.params = s.params := rfl
@[simp] theorem tick_regs (s : State) : s.tick.regs = s.regs := rfl
@[simp] theorem tick_bus (s : State) : s.tick.bus = s.bus := rfl
@[simp] theorem tick_port (s : State) : s.tick.port = s.port := rfl
@[simp] theorem tick_burst (s : State) : s.tick.ctl.burst = s.ctl.burst := rfl

@[simp] theorem cycle_params (c : BusCycle) (s : State) : (s.cycle c).params = s.params := rfl
@[simp] theorem cycle_regs (c : BusCycle) (s : State) : (s.cycle c).regs = s.regs := rfl
@[simp] theorem cycle_bus (c : BusCycle) (s : State) : (s.cycle c).bus = s.bus.cycle c := rfl
@[simp] theorem cycle_port (c : BusCycle) (s : State) : (s.cycle c).port = s.port := rfl
@[simp] theorem cycle_burst (c : BusCycle) (s : State) : (s.cycle c).ctl.burst = s.ctl.burst := rfl

@[simp] theorem writeRegs_params (f : Regs → Regs) (s : State) : (s.writeRegs f).params = s.params := rfl
@[simp] theorem writeRegs_regs (f : Regs → Regs) (s : State) : (s.writeRegs f).regs = f s.regs := rfl
@[simp] theorem writeRegs_bus (f : Regs → Regs) (s : State) : (s.writeRegs f).bus = s.bus := rfl
@[simp] theorem writeRegs_port (f : Regs → Regs) (s : State) : (s.writeRegs f).port = s.port := rfl
@[simp] theorem writeRegs_burst (f : Regs → Regs) (s : State) : (s.writeRegs f).ctl.burst = s.ctl.burst := rfl

@[simp] theorem startPoll_params (s : State) : s.startPoll.params = s.params := rfl
@[simp] theorem startPoll_regs (s : State) : s.startPoll.regs = s.regs := rfl
@[simp] theorem startPoll_bus (s : State) : s.startPoll.bus = s.bus := rfl
@[simp] theorem startPoll_port (s : State) : s.startPoll.port = s.port := rfl
@[simp] theorem startPoll_burst (s : State) : s.startPoll.ctl.burst = s.ctl.burst := rfl

@[simp] theorem countRetry_params (s : State) : s.countRetry.params = s.params := rfl
@[simp] theorem countRetry_regs (s : State) : s.countRetry.regs = s.regs := rfl
@[simp] theorem countRetry_bus (s : State) : s.countRetry.bus = s.bus := rfl
@[simp] theorem countRetry_port (s : State) : s.countRetry.port = s.port := rfl
@[simp] theorem countRetry_burst (s : State) : s.countRetry.ctl.burst = s.ctl.burst := rfl

@[simp] theorem endPoll_params (s : State) : s.endPoll.params = s.params := rfl
@[simp] theorem endPoll_regs (s : State) : s.endPoll.regs = s.regs := rfl
@[simp] theorem endPoll_bus (s : State) : s.endPoll.bus = s.bus := rfl
@[simp] theorem endPoll_port (s : State) : s.endPoll.port = s.port := rfl
@[simp] theorem endPoll_burst (s : State) : s.endPoll.ctl.burst = s.ctl.burst := rfl

@[simp] theorem startBurst_params (s : State) : s.startBurst.params = s.params := rfl
@[simp] theorem startBurst_regs (s : State) : s.startBurst.regs = s.regs := rfl
@[simp] theorem startBurst_bus (s : State) : s.startBurst.bus = s.bus := rfl
@[simp] theorem startBurst_port (s : State) : s.startBurst.port = s.port := rfl
@[simp] theorem startBurst_burst (s : State) : s.startBurst.ctl.burst = some 0 := rfl

@[simp] theorem countByte_params (s : State) : s.countByte.params = s.params := rfl
@[simp] theorem countByte_regs (s : State) : s.countByte.regs = s.regs := rfl
@[simp] theorem countByte_bus (s : State) : s.countByte.bus = s.bus := rfl
@[simp] theorem countByte_port (s : State) : s.countByte.port = s.port := rfl
@[simp] theorem countByte_burst (s : State) : s.countByte.ctl.burst = s.ctl.burst.map (· + 1) := rfl

@[simp] theorem endBurst_params (s : State) : s.endBurst.params = s.params := rfl
@[simp] theorem endBurst_regs (s : State) : s.endBurst.regs = s.regs := rfl
@[simp] theorem endBurst_bus (s : State) : s.endBurst.bus = s.bus := rfl
@[simp] theorem endBurst_port (s : State) : s.endBurst.port = s.port := rfl

@[simp] theorem acquire_params (s : State) : s.acquire.params = s.params := rfl
@[simp] theorem acquire_regs (s : State) : s.acquire.regs = s.regs := rfl
@[simp] theorem acquire_bus (s : State) : s.acquire.bus = s.bus := rfl
@[simp] theorem acquire_port (s : State) : s.acquire.port = s.port := rfl

/-! ### Lists of bus cycles -/

@[simp] theorem run_nil (b : Bus) : b.run [] = b := rfl
@[simp] theorem run_cons (b : Bus) (c : BusCycle) (l : List BusCycle) : b.run (c :: l) = (b.cycle c).run l := rfl

@[simp] theorem run_append (b : Bus) (l l' : List BusCycle) : b.run (l ++ l') = (b.run l).run l' :=
  List.foldl_append

theorem run_trace (b : Bus) (l : List BusCycle) : (b.run l).trace = b.trace ++ l := by
  induction l generalizing b with
  | nil => simp
  | cons c l ih => simp [ih, Bus.cycle]

theorem run_peer (b : Bus) (l : List BusCycle) : (b.run l).peer = l.foldl Peer.after b.peer := by
  induction l generalizing b with
  | nil => rfl
  | cons c l ih => simp [ih, Bus.cycle]

/-- R156: a cycle that starts at the idle values ends at them. -/
theorem cycle_idle (b : Bus) (c : BusCycle) (h : b.lines.idle = true) : (b.cycle c).lines.idle = true := by
  obtain ⟨⟨dir, out, cd, wr, rd, ce⟩, tr, p⟩ := b
  cases c <;> simp_all [Bus.cycle, BusCycle.calls, Lines.call, Lines.idle]

theorem run_idle (b : Bus) (l : List BusCycle) (h : b.lines.idle = true) : (b.run l).lines.idle = true := by
  induction l generalizing b with
  | nil => exact h
  | cons c l ih => exact ih _ (cycle_idle b c h)

/-! ### Lists of cycles by kind -/

@[simp] theorem transfers_nil : transfers [] = [] := rfl

@[simp] theorem transfers_append (l l' : List BusCycle) : transfers (l ++ l') = transfers l ++ transfers l' :=
  List.filter_append l l'

@[simp] theorem transfers_statusReads (bs : List Byte) : transfers (bs.map .statusRead) = [] := by
  induction bs with
  | nil => rfl
  | cons b bs ih => simp [transfers, BusCycle.isTransfer]

@[simp] theorem transfers_statusRead (b : Byte) (l : List BusCycle) :
    transfers (.statusRead b :: l) = transfers l := rfl
@[simp] theorem transfers_dataRead (v : Byte) (l : List BusCycle) :
    transfers (.dataRead v :: l) = .dataRead v :: transfers l := rfl
@[simp] theorem transfers_dataWrite (v : Byte) (l : List BusCycle) :
    transfers (.dataWrite v :: l) = .dataWrite v :: transfers l := rfl
@[simp] theorem transfers_commandWrite (op : Byte) (l : List BusCycle) :
    transfers (.commandWrite op :: l) = .commandWrite op :: transfers l := rfl

@[simp] theorem readyCycles_nil : readyCycles [] = [] := rfl

@[simp] theorem readyCycles_cons (c : BusCycle) (l : List BusCycle) :
    readyCycles (c :: l) = .statusRead 0x0F :: c :: readyCycles l := rfl

@[simp] theorem readyCycles_append (l l' : List BusCycle) :
    readyCycles (l ++ l') = readyCycles l ++ readyCycles l' := by
  simp [readyCycles]

/-- A list of cycles parts where its transfers do. -/
theorem split_transfers {l p q : List BusCycle} (h : transfers l = p ++ q) :
    ∃ l1 l2, l = l1 ++ l2 ∧ transfers l1 = p ∧ transfers l2 = q := by
  induction l generalizing p with
  | nil =>
    obtain ⟨rfl, rfl⟩ := List.append_eq_nil_iff.1 h.symm
    exact ⟨[], [], rfl, rfl, rfl⟩
  | cons c l ih =>
    by_cases hc : c.isTransfer = true
    · have e : ∀ l, transfers (c :: l) = c :: transfers l := fun _ => List.filter_cons_of_pos hc
      rw [e] at h
      cases p with
      | nil => exact ⟨[], c :: l, rfl, rfl, by rw [e]; exact h⟩
      | cons x p =>
        rw [List.cons_append, List.cons.injEq] at h
        obtain ⟨l1, l2, rfl, h1, h2⟩ := ih h.2
        exact ⟨c :: l1, l2, rfl, by rw [e, h1, h.1], h2⟩
    · have e : ∀ l, transfers (c :: l) = transfers l := fun _ => List.filter_cons_of_neg hc
      rw [e] at h
      obtain ⟨l1, l2, rfl, h1, h2⟩ := ih h
      exact ⟨c :: l1, l2, rfl, by rw [e, h1], h2⟩

theorem transfers_readyCycles {l : List BusCycle} (h : ∀ c ∈ l, c.isTransfer = true) :
    transfers (readyCycles l) = l := by
  induction l with
  | nil => rfl
  | cons c l ih =>
    rw [readyCycles_cons, transfers_statusRead]
    have e : transfers (c :: readyCycles l) = c :: transfers (readyCycles l) :=
      List.filter_cons_of_pos (h c (by simp))
    rw [e, ih (fun c hc => h c (by simp [hc]))]

end Sys2Proof.Machine
end

