-- ==== Sys2Proof/Laws/Transfer.lean ====
section
/-! SUPPORT. Everything a poll, a command and a sequence of steps can do, said once: which bus cycles they issue and
what they leave alone; and what they do under the test oracles. -/

namespace Sys2Proof.Machine

/-- `t` is `s` after the bus cycles `l`, with the registers, the port and the parameters as they were. -/
structure Ran (s t : State) (l : List BusCycle) : Prop where
  params : t.params = s.params
  regs : t.regs = s.regs
  port : t.port = s.port
  bus : t.bus = s.bus.run l

theorem Ran.refl (s : State) : Ran s s [] := ⟨rfl, rfl, rfl, rfl⟩

theorem Ran.trans {s t u : State} {l l' : List BusCycle} (h : Ran s t l) (h' : Ran t u l') :
    Ran s u (l ++ l') :=
  ⟨h'.params.trans h.params, h'.regs.trans h.regs, h'.port.trans h.port, by
    rw [h'.bus, h.bus, run_append]⟩

theorem ran_cycle (c : BusCycle) (s : State) : Ran s (s.cycle c) [c] := ⟨rfl, rfl, rfl, rfl⟩

/-! ### Polls (R134) -/

/-- The status bytes of a poll: it ended at the first that met the condition, or none of them did. -/
def PollReads (c : PollCond) (limit : Nat) (bs : List Byte) : Code → Prop
  | .ok => ∃ early last, bs = early ++ [last] ∧ meets c last = true ∧ (∀ b ∈ early, meets c b = false) ∧
      bs.length ≤ limit
  | .handshakeTimeout => bs.length = limit ∧ ∀ b ∈ bs, meets c b = false
  | .notReady | .unsupportedOperation | .invalidLayout => False

theorem pollLoop_spec (c : PollCond) (n : Nat) (s : State) :
    ∃ bs, Ran s (pollLoop c n s).1 (bs.map .statusRead) ∧ PollReads c n bs (pollLoop c n s).2 := by
  induction n generalizing s with
  | zero => exact ⟨[], Ran.refl s, by simp [pollLoop, PollReads]⟩
  | succ n ih =>
    by_cases h : meets c s.bus.peer.statusAnswer = true
    · refine ⟨[s.bus.peer.statusAnswer], ?_, ?_⟩
      · simpa [pollLoop, busStatusRead, h] using ran_cycle _ s
      · simpa [pollLoop, busStatusRead, h, PollReads] using ⟨[], _, rfl, h, by simp⟩
    · obtain ⟨bs, hr, hb⟩ := ih (s.cycle (.statusRead s.bus.peer.statusAnswer)).countRetry
      have e : pollLoop c (n + 1) s =
          pollLoop c n (s.cycle (.statusRead s.bus.peer.statusAnswer)).countRetry := by
        simp [pollLoop, busStatusRead, h]
      refine ⟨s.bus.peer.statusAnswer :: bs, ?_, ?_⟩
      · rw [e]
        exact (ran_cycle _ s).trans (l' := bs.map .statusRead) ⟨hr.params, hr.regs, hr.port, hr.bus⟩
      · rw [e]
        generalize (pollLoop c n _).2 = code at hb ⊢
        cases code with
        | ok =>
          obtain ⟨early, last, rfl, hl, he, hn⟩ := hb
          exact ⟨_ :: early, last, rfl, hl, by simpa [h] using he, by simpa using hn⟩
        | handshakeTimeout => exact ⟨by simp [hb.1], by simpa [h] using hb.2⟩
        | notReady => exact hb
        | unsupportedOperation => exact hb
        | invalidLayout => exact hb

theorem pollUntil_spec (c : PollCond) (s : State) :
    ∃ bs, Ran s (pollUntil c s).1 (bs.map .statusRead) ∧
      PollReads c s.params.retryLimit.toNat bs (pollUntil c s).2 := by
  obtain ⟨bs, hr, hb⟩ := pollLoop_spec c s.params.retryLimit.toNat s.startPoll
  exact ⟨bs, ⟨hr.params, hr.regs, hr.port, hr.bus⟩, hb⟩

theorem pollLoop_burst (c : PollCond) (n : Nat) (s : State) : (pollLoop c n s).1.ctl.burst = s.ctl.burst := by
  induction n generalizing s with
  | zero => rfl
  | succ n ih =>
    by_cases h : meets c s.bus.peer.statusAnswer = true
    · simp [pollLoop, busStatusRead, h]
    · simp [pollLoop, busStatusRead, h, ih]

@[simp] theorem pollUntil_burst (c : PollCond) (s : State) : (pollUntil c s).1.ctl.burst = s.ctl.burst :=
  pollLoop_burst c _ s.startPoll

/-- A poll answers `ok` or `HandshakeTimeout`. -/
theorem pollUntil_code (c : PollCond) (s : State) :
    (pollUntil c s).2 = .ok ∨ (pollUntil c s).2 = .handshakeTimeout := by
  obtain ⟨bs, -, hb⟩ := pollUntil_spec c s
  generalize (pollUntil c s).2 = code at hb ⊢
  cases code <;> simp_all [PollReads]

/-- A poll whose first status read meets its condition ends there. -/
theorem pollUntil_first (c : PollCond) (s : State) (hn : s.params.retryLimit ≠ 0)
    (h : meets c s.bus.peer.statusAnswer = true) :
    Ran s (pollUntil c s).1 [.statusRead s.bus.peer.statusAnswer] ∧ (pollUntil c s).2 = .ok := by
  obtain ⟨n, hn'⟩ : ∃ n, s.params.retryLimit.toNat = n + 1 :=
    Nat.exists_eq_succ_of_ne_zero (fun e => hn (BitVec.eq_of_toNat_eq (by simpa using e)))
  simp only [pollUntil, hn', pollLoop, busStatusRead]
  simp only [startPoll_bus, h, if_true]
  exact ⟨⟨rfl, rfl, rfl, rfl⟩, trivial⟩

/-! ### Constant oracles -/

theorem answers_status {b : Byte} {s : State} (h : Answers b s) : s.bus.peer.statusAnswer = b := by
  simp [Peer.statusAnswer, h.1, h.2]

/-- No cycle changes what the peer answers to status reads but a status read itself. -/
theorem after_statusScript (p : Peer) (c : BusCycle) (h : c.isTransfer = true) :
    (p.after c).statusScript = p.statusScript ∧ (p.after c).statusConst = p.statusConst := by
  cases c with
  | statusRead s => simp [BusCycle.isTransfer] at h
  | dataRead v =>
    simp only [Peer.after, Peer.afterDataRead]
    split
    · exact ⟨rfl, rfl⟩
    · split <;> exact ⟨rfl, rfl⟩
  | dataWrite v => simp only [Peer.after, Peer.afterDataWrite]; split <;> exact ⟨rfl, rfl⟩
  | commandWrite op => simp only [Peer.after, Peer.afterCommandWrite]; split <;> exact ⟨rfl, rfl⟩

theorem answers_cycle {b : Byte} {s : State} (c : BusCycle) (h : Answers b s) : Answers b (s.cycle c) := by
  by_cases hc : c.isTransfer = true
  · obtain ⟨h1, h2⟩ := after_statusScript s.bus.peer c hc
    exact ⟨h1.trans h.1, h2.trans h.2⟩
  · cases c <;> simp_all [BusCycle.isTransfer, Answers, State.cycle, State.tick, Bus.cycle, Peer.after,
      Peer.afterStatusRead]

theorem answers_run {b : Byte} {s t : State} {l : List BusCycle} (h : Answers b s) (r : Ran s t l) :
    Answers b t := by
  have key : ∀ (l : List BusCycle) (u : Bus), (u.peer.statusScript = [] ∧ u.peer.statusConst = some b) →
      ((u.run l).peer.statusScript = [] ∧ (u.run l).peer.statusConst = some b) := by
    intro l
    induction l with
    | nil => exact fun u hu => hu
    | cons c l ih =>
      intro u hu
      exact ih _ (answers_cycle (s := { s with bus := u }) c hu)
  simpa [Answers, r.bus] using key l s.bus h

theorem ready_ran {s t : State} {l : List BusCycle} (h : ReadyOracle s) (r : Ran s t l) : ReadyOracle t :=
  ⟨answers_run h.1 r, by rw [r.params]; exact h.2⟩

theorem meets_ready (c : PollCond) : meets c 0x0F = true := by cases c <;> decide

/-- Under `READY` a poll is one status read (R225). -/
theorem pollUntil_ready (c : PollCond) (s : State) (h : ReadyOracle s) :
    Ran s (pollUntil c s).1 [.statusRead 0x0F] ∧ (pollUntil c s).2 = .ok := by
  have ha := answers_status h.1
  simpa [ha] using pollUntil_first c s h.2 (by rw [ha]; exact meets_ready c)

/-- Under a constant answer that never meets the condition a poll uses up its budget (R134). -/
theorem pollUntil_never (c : PollCond) (b : Byte) (s : State) (h : Answers b s) (hb : meets c b = false) :
    Ran s (pollUntil c s).1 (List.replicate s.params.retryLimit.toNat (.statusRead b)) ∧
      (pollUntil c s).2 = .handshakeTimeout := by
  have key : ∀ (n : Nat) (u : State), Answers b u →
      Ran u (pollLoop c n u).1 (List.replicate n (.statusRead b)) ∧ (pollLoop c n u).2 = .handshakeTimeout := by
    intro n
    induction n with
    | zero => exact fun u _ => ⟨Ran.refl u, rfl⟩
    | succ n ih =>
      intro u hu
      have ha := answers_status hu
      have e : pollLoop c (n + 1) u = pollLoop c n (u.cycle (.statusRead b)).countRetry := by
        simp [pollLoop, busStatusRead, ha, hb]
      obtain ⟨hr, hc⟩ := ih (u.cycle (.statusRead b)).countRetry (answers_cycle (.statusRead b) hu)
      rw [e]
      exact ⟨(ran_cycle _ u).trans (l' := List.replicate n (.statusRead b))
        ⟨hr.params, hr.regs, hr.port, hr.bus⟩, hc⟩
  obtain ⟨hr, hc⟩ := key s.params.retryLimit.toNat s.startPoll h
  exact ⟨⟨hr.params, hr.regs, hr.port, hr.bus⟩, hc⟩

/-! ### Sequences of steps (R296) -/

/-- Carrying out two steps: the first raised, or both ran. -/
theorem andThen_cases (f g : Action) (s : State) :
    ((f s).2 = .ok ∧ Action.andThen f g s = g (f s).1) ∨
      ((f s).2 ≠ .ok ∧ Action.andThen f g s = f s) := by
  unfold Action.andThen
  rcases h : f s with ⟨t, e⟩
  cases e <;> simp

theorem andThen_ok {f g : Action} {s : State} (h : (f s).2 = .ok) : Action.andThen f g s = g (f s).1 := by
  rcases andThen_cases f g s with h' | h'
  · exact h'.2
  · exact absurd h h'.1

theorem andThen_err {f g : Action} {s : State} (h : (f s).2 ≠ .ok) : Action.andThen f g s = f s := by
  rcases andThen_cases f g s with h' | h'
  · exact absurd h'.1 h
  · exact h'.2

@[simp] theorem inOrder_nil (s : State) : inOrder [] s = (s, .ok) := rfl

@[simp] theorem inOrder_cons (f : Action) (fs : List Action) :
    inOrder (f :: fs) = Action.andThen f (inOrder fs) := rfl

/-! ### Commands (R160, R165) -/

/-- What a step that sends the transfers `want` in order has issued: all of them, or on a timeout a part of them
that stops short of the last. -/
def Sent (want : List BusCycle) (l : List BusCycle) : Code → Prop
  | .ok => transfers l = want
  | .handshakeTimeout => transfers l <+: want.dropLast
  | .notReady | .unsupportedOperation | .invalidLayout => False

theorem writeByte_spec (v : Byte) (s : State) :
    ∃ l, Ran s (writeByte v s).1 l ∧ Sent [.dataWrite v] l (writeByte v s).2 := by
  obtain ⟨bs, hr, hb⟩ := pollUntil_spec .commandReady s
  rcases pollUntil_code .commandReady s with h | h
  · refine ⟨bs.map .statusRead ++ [.dataWrite v], ?_, ?_⟩
    · rw [writeByte, andThen_ok h]
      exact hr.trans (ran_cycle _ _)
    · rw [writeByte, andThen_ok h]
      simp [Sent]
  · have h' : (pollUntil .commandReady s).2 ≠ .ok := by simp [h]
    refine ⟨bs.map .statusRead, ?_, ?_⟩
    · rw [writeByte, andThen_err h']; exact hr
    · rw [writeByte, andThen_err h', h]; simp [Sent]

theorem strobeCommand_spec (op : Byte) (cond : PollCond) (s : State) :
    ∃ l, Ran s (strobeCommand op cond s).1 l ∧ Sent [.commandWrite op] l (strobeCommand op cond s).2 := by
  obtain ⟨bs, hr, hb⟩ := pollUntil_spec cond s
  rcases pollUntil_code cond s with h | h
  · refine ⟨bs.map .statusRead ++ [.commandWrite op], ?_, ?_⟩
    · rw [strobeCommand, andThen_ok h]
      exact hr.trans (ran_cycle _ _)
    · rw [strobeCommand, andThen_ok h]
      simp [Sent]
  · have h' : (pollUntil cond s).2 ≠ .ok := by simp [h]
    refine ⟨bs.map .statusRead, ?_, ?_⟩
    · rw [strobeCommand, andThen_err h']; exact hr
    · rw [strobeCommand, andThen_err h', h]; simp [Sent]

/-- A step that sends one transfer, then a sequence that sends the rest. -/
theorem sent_andThen {f g : Action} {c : BusCycle} {want : List BusCycle} {s : State} (hw : want ≠ [])
    (hf : ∃ l, Ran s (f s).1 l ∧ Sent [c] l (f s).2)
    (hg : ∀ t, ∃ l, Ran t (g t).1 l ∧ Sent want l (g t).2) :
    ∃ l, Ran s (Action.andThen f g s).1 l ∧ Sent (c :: want) l (Action.andThen f g s).2 := by
  obtain ⟨l, hr, hl⟩ := hf
  obtain ⟨w, ws, rfl⟩ := List.exists_cons_of_ne_nil hw
  by_cases h : (f s).2 = .ok
  · obtain ⟨l', hr', hl'⟩ := hg (f s).1
    rw [h] at hl
    refine ⟨l ++ l', ?_, ?_⟩
    · rw [andThen_ok h]; exact hr.trans hr'
    · rw [andThen_ok h]
      generalize (g (f s).1).2 = e at hl' ⊢
      cases e <;> simp_all [Sent]
  · refine ⟨l, ?_, ?_⟩
    · rw [andThen_err h]; exact hr
    · rw [andThen_err h]
      generalize (f s).2 = e at hl h ⊢
      cases e <;> simp_all [Sent]

/-- A command sends its data bytes and strobes, or on a timeout has strobed nothing (R160, R165). -/
theorem sendCommand_spec (op : Byte) (data : CommandData) (cond : PollCond) (s : State) :
    ∃ l, Ran s (sendCommand op data cond s).1 l ∧
      Sent (data.bytes.map .dataWrite ++ [.commandWrite op]) l (sendCommand op data cond s).2 := by
  unfold sendCommand
  generalize data.bytes = bytes
  induction bytes generalizing s with
  | nil =>
    have h := strobeCommand_spec op cond s
    rcases andThen_cases (strobeCommand op cond) (inOrder []) s with ⟨h1, h2⟩ | ⟨h1, h2⟩
    · rw [h1] at h
      simpa [h2] using h
    · simpa [h2] using h
  | cons b bytes ih => exact sent_andThen (by simp) (writeByte_spec b s) ih

theorem writeByte_ready (v : Byte) (s : State) (h : ReadyOracle s) :
    Ran s (writeByte v s).1 (readyCycles [.dataWrite v]) ∧ (writeByte v s).2 = .ok := by
  obtain ⟨hr, hc⟩ := pollUntil_ready .commandReady s h
  rw [writeByte, andThen_ok hc]
  exact ⟨hr.trans (ran_cycle _ _), rfl⟩

theorem strobeCommand_ready (op : Byte) (cond : PollCond) (s : State) (h : ReadyOracle s) :
    Ran s (strobeCommand op cond s).1 (readyCycles [.commandWrite op]) ∧ (strobeCommand op cond s).2 = .ok := by
  obtain ⟨hr, hc⟩ := pollUntil_ready cond s h
  rw [strobeCommand, andThen_ok hc]
  exact ⟨hr.trans (ran_cycle _ _), rfl⟩

theorem ready_andThen {f g : Action} {l l' : List BusCycle} {s : State} (h : ReadyOracle s)
    (hf : Ran s (f s).1 (readyCycles l) ∧ (f s).2 = .ok)
    (hg : ∀ t, ReadyOracle t → Ran t (g t).1 (readyCycles l') ∧ (g t).2 = .ok) :
    Ran s (Action.andThen f g s).1 (readyCycles (l ++ l')) ∧ (Action.andThen f g s).2 = .ok := by
  rw [andThen_ok hf.2, readyCycles_append]
  obtain ⟨hr, hc⟩ := hg _ (ready_ran h hf.1)
  exact ⟨hf.1.trans hr, hc⟩

/-- Under `READY` a command is its data bytes and its strobe, each after one status read (R161 to R164). -/
theorem sendCommand_ready (op : Byte) (data : CommandData) (cond : PollCond) (s : State) (h : ReadyOracle s) :
    Ran s (sendCommand op data cond s).1 (readyCycles (data.bytes.map .dataWrite ++ [.commandWrite op])) ∧
      (sendCommand op data cond s).2 = .ok := by
  unfold sendCommand
  generalize data.bytes = bytes
  induction bytes generalizing s with
  | nil =>
    obtain ⟨hr, hc⟩ := strobeCommand_ready op cond s h
    simpa [andThen_ok hc] using hr
  | cons b bytes ih => exact ready_andThen (l := [.dataWrite b]) h (writeByte_ready b s h) ih

theorem sendCommand_code (op : Byte) (data : CommandData) (cond : PollCond) (s : State) :
    (sendCommand op data cond s).2 = .ok ∨ (sendCommand op data cond s).2 = .handshakeTimeout := by
  obtain ⟨l, -, h⟩ := sendCommand_spec op data cond s
  generalize (sendCommand op data cond s).2 = e at h ⊢
  cases e <;> simp_all [Sent]

theorem andThen_burst {f g : Action} {s : State} (hf : ∀ s, (f s).1.ctl.burst = s.ctl.burst)
    (hg : ∀ s, (g s).1.ctl.burst = s.ctl.burst) : (Action.andThen f g s).1.ctl.burst = s.ctl.burst := by
  rcases andThen_cases f g s with ⟨-, h⟩ | ⟨-, h⟩
  · rw [h, hg, hf]
  · rw [h, hf]

@[simp] theorem sendCommand_burst (op : Byte) (data : CommandData) (cond : PollCond) (s : State) :
    (sendCommand op data cond s).1.ctl.burst = s.ctl.burst := by
  unfold sendCommand
  generalize data.bytes = bytes
  have hp : ∀ c (k : State → State), (∀ u, (k u).ctl.burst = u.ctl.burst) → ∀ u,
      (Action.andThen (pollUntil c) (fun v => (k v, .ok)) u).1.ctl.burst = u.ctl.burst :=
    fun c k hk u => andThen_burst (fun _ => pollUntil_burst c _) hk
  induction bytes generalizing s with
  | nil => exact andThen_burst (hp _ _ (fun _ => rfl)) (fun _ => rfl)
  | cons b bytes ih => exact andThen_burst (hp _ _ (fun _ => rfl)) (fun u => ih u)

end Sys2Proof.Machine
end

