-- ==== Sys2Proof/Laws/Burst.lean ====
section
/-! SUPPORT. Everything a burst can do (42_auto_burst.md), said once, and what it does under `READY`. -/

namespace Sys2Proof.Machine

/-! ### Bodies -/

theorem writeBody_cons_ok {text : Bool} {b : Byte} {rest : List Byte} {s : State}
    (h : (pollUntil .autoWriteReady s).2 = .ok) :
    writeBody text (b :: rest) s =
      writeBody text rest (busDataWrite (sentByte text b) (pollUntil .autoWriteReady s).1).countByte := by
  rcases hp : pollUntil .autoWriteReady s with ⟨t, e⟩
  rw [hp] at h
  cases h
  simp [writeBody, hp]

theorem writeBody_cons_err {text : Bool} {b : Byte} {rest : List Byte} {s : State}
    (h : (pollUntil .autoWriteReady s).2 ≠ .ok) :
    writeBody text (b :: rest) s = pollUntil .autoWriteReady s := by
  rcases hp : pollUntil .autoWriteReady s with ⟨t, e⟩
  rw [hp] at h
  cases e <;> simp_all [writeBody]

theorem ofNat_succ_add (k0 : BitVec 16) (k : Nat) : k0 + 1 + BitVec.ofNat 16 k = k0 + BitVec.ofNat 16 (k + 1) := by
  rw [BitVec.add_assoc, BitVec.add_comm 1]
  congr 1
  apply BitVec.eq_of_toNat_eq
  simp

/-- A write body moves its bytes in order and stops at a timeout; the burst counter counts them (R181, R185). -/
theorem writeBody_spec (text : Bool) (bytes : List Byte) (s : State) (k0 : BitVec 16)
    (hk : s.ctl.burst = some k0) :
    ∃ k l, Ran s (writeBody text bytes s).1 l ∧
      transfers l = (bytes.take k).map (fun b => .dataWrite (sentByte text b)) ∧
      (writeBody text bytes s).1.ctl.burst = some (k0 + BitVec.ofNat 16 k) ∧
      (((writeBody text bytes s).2 = .ok ∧ k = bytes.length) ∨
        ((writeBody text bytes s).2 = .handshakeTimeout ∧ k < bytes.length)) := by
  induction bytes generalizing s k0 with
  | nil => exact ⟨0, [], Ran.refl s, rfl, by simp [writeBody, hk], .inl ⟨rfl, rfl⟩⟩
  | cons b bytes ih =>
    obtain ⟨bs, hr, -⟩ := pollUntil_spec .autoWriteReady s
    rcases pollUntil_code .autoWriteReady s with h | h
    · obtain ⟨k, l, hl, ht, hb, hc⟩ :=
        ih (busDataWrite (sentByte text b) (pollUntil .autoWriteReady s).1).countByte (k0 + 1)
          (by simp [busDataWrite, hk])
      rw [writeBody_cons_ok h]
      refine ⟨k + 1, bs.map .statusRead ++ [.dataWrite (sentByte text b)] ++ l, ?_, ?_, ?_, ?_⟩
      · exact (hr.trans (ran_cycle (.dataWrite (sentByte text b)) _)).trans
          ⟨hl.params, hl.regs, hl.port, hl.bus⟩
      · simpa using ht
      · rw [hb, ofNat_succ_add]
      · simpa using hc
    · have h' : (pollUntil .autoWriteReady s).2 ≠ .ok := by simp [h]
      rw [writeBody_cons_err h']
      exact ⟨0, bs.map .statusRead, hr, by simp, by simp [hk], .inr ⟨h, by simp⟩⟩

theorem writeBody_ready (text : Bool) (bytes : List Byte) (s : State) (k0 : BitVec 16)
    (hk : s.ctl.burst = some k0) (h : ReadyOracle s) :
    Ran s (writeBody text bytes s).1 (readyCycles (bytes.map (fun b => .dataWrite (sentByte text b)))) ∧
      (writeBody text bytes s).2 = .ok ∧
      (writeBody text bytes s).1.ctl.burst = some (k0 + BitVec.ofNat 16 bytes.length) := by
  induction bytes generalizing s k0 with
  | nil => exact ⟨Ran.refl s, rfl, by simp [writeBody, hk]⟩
  | cons b bytes ih =>
    obtain ⟨hr, hc⟩ := pollUntil_ready .autoWriteReady s h
    have hr' := hr.trans (ran_cycle (.dataWrite (sentByte text b)) _)
    obtain ⟨hl, ht, hb⟩ :=
      ih (busDataWrite (sentByte text b) (pollUntil .autoWriteReady s).1).countByte (k0 + 1)
        (by simp [busDataWrite, hk]) (ready_ran h (t := _) ⟨hr'.params, hr'.regs, hr'.port, hr'.bus⟩)
    rw [writeBody_cons_ok hc]
    exact ⟨hr'.trans ⟨hl.params, hl.regs, hl.port, hl.bus⟩, ht, by rw [hb, ofNat_succ_add]; rfl⟩

theorem readBody_succ_ok {n : Nat} {s : State} (h : (pollUntil .autoReadReady s).2 = .ok) :
    readBody (n + 1) s =
      ((readBody n (busDataRead (pollUntil .autoReadReady s).1).1.countByte).1,
        (readBody n (busDataRead (pollUntil .autoReadReady s).1).1.countByte).2.1,
        (busDataRead (pollUntil .autoReadReady s).1).2 ::
          (readBody n (busDataRead (pollUntil .autoReadReady s).1).1.countByte).2.2) := by
  rw [readBody]
  rcases hp : pollUntil .autoReadReady s with ⟨t, e⟩
  rw [hp] at h
  cases h
  rfl

theorem readBody_succ_err {n : Nat} {s : State} (h : (pollUntil .autoReadReady s).2 ≠ .ok) :
    readBody (n + 1) s = ((pollUntil .autoReadReady s).1, (pollUntil .autoReadReady s).2, []) := by
  rw [readBody]
  rcases hp : pollUntil .autoReadReady s with ⟨t, e⟩
  rw [hp] at h
  cases e <;> simp_all

/-- A read body reads its bytes in order and stops at a timeout; the burst counter counts them (R182). -/
theorem readBody_spec (n : Nat) (s : State) (k0 : BitVec 16) (hk : s.ctl.burst = some k0) :
    ∃ l, Ran s (readBody n s).1 l ∧
      transfers l = (readBody n s).2.2.map .dataRead ∧
      (readBody n s).1.ctl.burst = some (k0 + BitVec.ofNat 16 (readBody n s).2.2.length) ∧
      (((readBody n s).2.1 = .ok ∧ (readBody n s).2.2.length = n) ∨
        ((readBody n s).2.1 = .handshakeTimeout ∧ (readBody n s).2.2.length < n)) := by
  induction n generalizing s k0 with
  | zero => exact ⟨[], Ran.refl s, rfl, by simp [readBody, hk], .inl ⟨rfl, rfl⟩⟩
  | succ n ih =>
    obtain ⟨bs, hr, -⟩ := pollUntil_spec .autoReadReady s
    rcases pollUntil_code .autoReadReady s with h | h
    · obtain ⟨l, hl, ht, hb, hc⟩ :=
        ih (busDataRead (pollUntil .autoReadReady s).1).1.countByte (k0 + 1) (by simp [busDataRead, hk])
      rw [readBody_succ_ok h]
      refine ⟨bs.map .statusRead ++ [.dataRead (busDataRead (pollUntil .autoReadReady s).1).2] ++ l,
        ?_, ?_, ?_, ?_⟩
      · exact (hr.trans (ran_cycle (.dataRead (busDataRead (pollUntil .autoReadReady s).1).2) _)).trans
          ⟨hl.params, hl.regs, hl.port, hl.bus⟩
      · simpa using ht
      · simp only [hb, ofNat_succ_add, List.length_cons]
      · simpa using hc
    · have h' : (pollUntil .autoReadReady s).2 ≠ .ok := by simp [h]
      rw [readBody_succ_err h']
      exact ⟨bs.map .statusRead, hr, by simp, by simp [hk], .inr ⟨h, by simp⟩⟩

theorem ready_status_peer {s : State} (h : ReadyOracle s) : s.bus.peer.afterStatusRead = s.bus.peer := by
  simp [Peer.afterStatusRead, h.1.1, h.1.2]

theorem readBody_ready (n : Nat) (s : State) (k0 : BitVec 16) (hk : s.ctl.burst = some k0)
    (h : ReadyOracle s) :
    Ran s (readBody n s).1 (readyCycles ((readBytes n s.bus.peer).map .dataRead)) ∧
      (readBody n s).2 = (.ok, readBytes n s.bus.peer) ∧
      (readBody n s).1.ctl.burst = some (k0 + BitVec.ofNat 16 n) := by
  induction n generalizing s k0 with
  | zero => exact ⟨Ran.refl s, rfl, by simp [readBody, hk]⟩
  | succ n ih =>
    obtain ⟨hr, hc⟩ := pollUntil_ready .autoReadReady s h
    have hp : (pollUntil .autoReadReady s).1.bus.peer = s.bus.peer := by
      rw [hr.bus]
      exact ready_status_peer h
    have hr' := hr.trans (ran_cycle (.dataRead s.bus.peer.dataAnswer) _)
    have hd : busDataRead (pollUntil .autoReadReady s).1 =
        ((pollUntil .autoReadReady s).1.cycle (.dataRead s.bus.peer.dataAnswer), s.bus.peer.dataAnswer) := by
      rw [busDataRead, hp]
    obtain ⟨hl, ht, hb⟩ :=
      ih ((pollUntil .autoReadReady s).1.cycle (.dataRead s.bus.peer.dataAnswer)).countByte (k0 + 1)
        (by simp [hk]) (ready_ran h (t := _) ⟨hr'.params, hr'.regs, hr'.port, hr'.bus⟩)
    have hq : ((pollUntil .autoReadReady s).1.cycle (.dataRead s.bus.peer.dataAnswer)).countByte.bus.peer =
        s.bus.peer.afterDataRead := by
      simp [Bus.cycle, Peer.after, hp]
    rw [hq] at hl ht
    rw [readBody_succ_ok hc, hd]
    refine ⟨hr'.trans ⟨hl.params, hl.regs, hl.port, hl.bus⟩, ?_, ?_⟩
    · simp only [ht]
      rfl
    · simp only [hb, ofNat_succ_add]

/-! ### Exit -/

/-- A burst's exit strobes the auto-reset, or times out; its count is the one the body reached (R184, R189). -/
theorem burstExit_spec (own : PollCond) (e : Code) (out : List Byte) (s : State) :
    ∃ l, Ran s (burstExit own e out s).1 l ∧
      ((transfers l = [.commandWrite 0xB2] ∧ (burstExit own e out s).2 = ⟨e, s.burstCount, out⟩) ∨
        (transfers l = [] ∧ (burstExit own e out s).2 = ⟨.handshakeTimeout, s.burstCount, out⟩)) := by
  obtain ⟨l, hr, hs⟩ := sendCommand_spec 0xB2 .none (exitCond s.params.exitPoll own) s
  refine ⟨l, ?_⟩
  unfold burstExit muxAutoReset
  rcases hc : sendCommand 0xB2 .none (exitCond s.params.exitPoll own) s with ⟨t, c⟩
  rw [hc] at hr hs
  cases c <;> simp_all [Sent, CommandData.bytes] <;> exact ⟨hr.params, hr.regs, hr.port, hr.bus⟩

theorem burstExit_ready (own : PollCond) (e : Code) (out : List Byte) (s : State) (h : ReadyOracle s) :
    Ran s (burstExit own e out s).1 (readyCycles [.commandWrite 0xB2]) ∧
      (burstExit own e out s).2 = ⟨e, s.burstCount, out⟩ := by
  obtain ⟨hr, hs⟩ := sendCommand_ready 0xB2 .none (exitCond s.params.exitPoll own) s h
  unfold burstExit muxAutoReset
  rcases hc : sendCommand 0xB2 .none (exitCond s.params.exitPoll own) s with ⟨t, c⟩
  rw [hc] at hr hs
  cases hs
  exact ⟨⟨hr.params, hr.regs, hr.port, hr.bus⟩, rfl⟩

/-! ### Bursts -/

/-- What a write burst of `N ≥ 1` bytes has done: its entry timed out (R188), or it moved `k` bytes and then
strobed its exit or timed out there (R181, R185, R189). -/
inductive WriteBurst (bytes : List Byte) (text : Bool) (l : List BusCycle) (r : Response) : Prop
  | entryFailed (ht : transfers l = []) (hr : r = ⟨.handshakeTimeout, 0, []⟩)
  | moved (k : Nat) (exit : List BusCycle) (hk : k ≤ bytes.length)
      (ht : transfers l =
        .commandWrite 0xB0 :: (bytes.take k).map (fun b => .dataWrite (sentByte text b)) ++ exit)
      (hx : exit = [.commandWrite 0xB2] ∨ exit = [] ∧ r.code = .handshakeTimeout)
      (hr : r.count = BitVec.ofNat 16 k ∧ r.data = [])
      (hc : (r.code = .ok ∧ k = bytes.length ∧ exit = [.commandWrite 0xB2]) ∨
        (r.code = .handshakeTimeout ∧ (k < bytes.length ∨ exit = [])))

theorem burstWrite_empty (text : Bool) (s : State) : burstWrite [] text s = (s, ⟨.ok, 0, []⟩) := rfl

theorem burstWrite_spec (bytes : List Byte) (text : Bool) (s : State) (hb : bytes ≠ []) :
    ∃ l, Ran s (burstWrite bytes text s).1 l ∧ WriteBurst bytes text l (burstWrite bytes text s).2 := by
  obtain ⟨l0, hr0, hs0⟩ := sendCommand_spec 0xB0 .none .commandReady s
  have e0 : muxAutoWrite s = sendCommand 0xB0 .none .commandReady s := rfl
  unfold burstWrite
  rw [if_neg hb, e0]
  rcases hc0 : sendCommand 0xB0 .none .commandReady s with ⟨t, c⟩
  rw [hc0] at hr0 hs0
  cases c with
  | handshakeTimeout =>
    exact ⟨l0, hr0, .entryFailed (by simpa [Sent, CommandData.bytes] using hs0) rfl⟩
  | ok =>
    obtain ⟨k, l1, hr1, ht1, hk1, hc1⟩ := writeBody_spec text bytes t.startBurst 0 rfl
    simp only
    rcases hbody : writeBody text bytes t.startBurst with ⟨u, e⟩
    rw [hbody] at hr1 hk1 hc1
    obtain ⟨l2, hr2, h2⟩ := burstExit_spec .autoWriteReady e [] u
    have hcount : u.burstCount = BitVec.ofNat 16 k := by
      simp only at hk1
      simp [State.burstCount, hk1]
    refine ⟨l0 ++ l1 ++ l2, (hr0.trans (l' := l1) ⟨hr1.params, hr1.regs, hr1.port, hr1.bus⟩).trans hr2, ?_⟩
    have ht0 : transfers l0 = [.commandWrite 0xB0] := by simpa [Sent, CommandData.bytes] using hs0
    have hkn : k ≤ bytes.length := by rcases hc1 with h | h <;> omega
    rcases h2 with ⟨ht2, hres⟩ | ⟨ht2, hres⟩
    · refine .moved k [.commandWrite 0xB2] hkn ?_ (.inl rfl) ?_ ?_
      · simp [ht0, ht1, ht2]
      · simp [hres, hcount]
      · rcases hc1 with ⟨rfl, hk⟩ | ⟨rfl, hk⟩
        · exact .inl ⟨by rw [hres], hk, rfl⟩
        · exact .inr ⟨by rw [hres], .inl hk⟩
    · refine .moved k [] hkn ?_ (.inr ⟨rfl, by simp only [hres]⟩) ?_ (.inr ⟨by simp only [hres], .inr rfl⟩)
      · simp [ht0, ht1, ht2]
      · simp [hres, hcount]
  | notReady => exact absurd hs0 (by simp [Sent])
  | unsupportedOperation => exact absurd hs0 (by simp [Sent])
  | invalidLayout => exact absurd hs0 (by simp [Sent])

/-- What a read burst of `N ≥ 1` bytes has done (R182, R185, R188, R189). -/
inductive ReadBurst (n : Nat) (l : List BusCycle) (r : Response) : Prop
  | entryFailed (ht : transfers l = []) (hr : r = ⟨.handshakeTimeout, 0, []⟩)
  | moved (exit : List BusCycle) (hk : r.data.length ≤ n)
      (ht : transfers l = .commandWrite 0xB1 :: r.data.map .dataRead ++ exit)
      (hx : exit = [.commandWrite 0xB2] ∨ exit = [] ∧ r.code = .handshakeTimeout)
      (hr : r.count = BitVec.ofNat 16 r.data.length)
      (hc : (r.code = .ok ∧ r.data.length = n ∧ exit = [.commandWrite 0xB2]) ∨
        (r.code = .handshakeTimeout ∧ (r.data.length < n ∨ exit = [])))

theorem burstRead_zero (s : State) : burstRead 0 s = (s, ⟨.ok, 0, []⟩) := rfl

theorem burstRead_spec (n : Nat) (s : State) (hn : n ≠ 0) :
    ∃ l, Ran s (burstRead n s).1 l ∧ ReadBurst n l (burstRead n s).2 := by
  obtain ⟨l0, hr0, hs0⟩ := sendCommand_spec 0xB1 .none .commandReady s
  have e0 : muxAutoRead s = sendCommand 0xB1 .none .commandReady s := rfl
  unfold burstRead
  rw [if_neg hn, e0]
  rcases hc0 : sendCommand 0xB1 .none .commandReady s with ⟨t, c⟩
  rw [hc0] at hr0 hs0
  cases c with
  | handshakeTimeout =>
    exact ⟨l0, hr0, .entryFailed (by simpa [Sent, CommandData.bytes] using hs0) rfl⟩
  | ok =>
    obtain ⟨l1, hr1, ht1, hk1, hc1⟩ := readBody_spec n t.startBurst 0 rfl
    simp only
    rcases hbody : readBody n t.startBurst with ⟨u, e, out⟩
    rw [hbody] at hr1 ht1 hk1 hc1
    obtain ⟨l2, hr2, h2⟩ := burstExit_spec .autoReadReady e out u
    have hcount : u.burstCount = BitVec.ofNat 16 out.length := by
      simp only at hk1
      simp [State.burstCount, hk1]
    refine ⟨l0 ++ l1 ++ l2, (hr0.trans (l' := l1) ⟨hr1.params, hr1.regs, hr1.port, hr1.bus⟩).trans hr2, ?_⟩
    have ht0 : transfers l0 = [.commandWrite 0xB1] := by simpa [Sent, CommandData.bytes] using hs0
    have hkn : out.length ≤ n := by rcases hc1 with h | h <;> simp only at h <;> omega
    simp only at ht1
    rcases h2 with ⟨ht2, hres⟩ | ⟨ht2, hres⟩
    · simp only
      rw [hres]
      refine .moved [.commandWrite 0xB2] hkn ?_ (.inl rfl) hcount ?_
      · simp [ht0, ht1, ht2]
      · rcases hc1 with ⟨rfl, hk⟩ | ⟨rfl, hk⟩
        · exact .inl ⟨rfl, hk, rfl⟩
        · exact .inr ⟨rfl, .inl hk⟩
    · simp only
      rw [hres]
      refine .moved [] hkn ?_ (.inr ⟨rfl, rfl⟩) hcount (.inr ⟨rfl, .inr rfl⟩)
      simp [ht0, ht1, ht2]
  | notReady => exact absurd hs0 (by simp [Sent])
  | unsupportedOperation => exact absurd hs0 (by simp [Sent])
  | invalidLayout => exact absurd hs0 (by simp [Sent])

/-- Under `READY` a write burst is whole (R180, R262). -/
theorem burstWrite_ready (bytes : List Byte) (text : Bool) (s : State) (h : ReadyOracle s) :
    Ran s (burstWrite bytes text s).1 (readyCycles (burstCycles (bytes.map (sentByte text)))) ∧
      (burstWrite bytes text s).2 = ⟨.ok, BitVec.ofNat 16 bytes.length, []⟩ := by
  rcases bytes with _ | ⟨b, rest⟩
  · exact ⟨Ran.refl s, rfl⟩
  generalize hbs : b :: rest = bytes
  have hne : bytes ≠ [] := by simp [← hbs]
  obtain ⟨hr0, hc0⟩ := sendCommand_ready 0xB0 .none .commandReady s h
  have e0 : muxAutoWrite s = sendCommand 0xB0 .none .commandReady s := rfl
  unfold burstWrite
  rw [if_neg hne, e0]
  rcases hcmd : sendCommand 0xB0 .none .commandReady s with ⟨t, c⟩
  rw [hcmd] at hr0 hc0
  cases hc0
  have ht := ready_ran h hr0
  obtain ⟨hr1, hc1, hk1⟩ := writeBody_ready text bytes t.startBurst 0 rfl ht
  have ht1 := ready_ran ht (t := (writeBody text bytes t.startBurst).1) ⟨hr1.params, hr1.regs, hr1.port, hr1.bus⟩
  simp only
  rcases hbody : writeBody text bytes t.startBurst with ⟨u, e⟩
  rw [hbody] at hr1 hc1 hk1 ht1
  cases hc1
  obtain ⟨hr2, hres⟩ := burstExit_ready .autoWriteReady .ok [] u ht1
  have hcount : u.burstCount = BitVec.ofNat 16 bytes.length := by
    simp only at hk1
    simp [State.burstCount, hk1]
  refine ⟨?_, by rw [hres, hcount]⟩
  have hfull := (hr0.trans (l' := readyCycles (bytes.map (fun b => .dataWrite (sentByte text b))))
    ⟨hr1.params, hr1.regs, hr1.port, hr1.bus⟩).trans hr2
  have he : burstCycles (bytes.map (sentByte text)) =
      [.commandWrite 0xB0] ++ bytes.map (fun b => .dataWrite (sentByte text b)) ++ [.commandWrite 0xB2] := by
    simp [burstCycles, hne]
  rw [he, readyCycles_append, readyCycles_append]
  exact hfull

/-- Under `READY` a read burst is whole and returns what the peer's data reads return (R182, R262). -/
theorem burstRead_ready (n : Nat) (s : State) (h : ReadyOracle s) (hn : n ≠ 0) :
    Ran s (burstRead n s).1
        (readyCycles (.commandWrite 0xB1 ::
          (readBytes n (s.bus.peer.afterCommandWrite 0xB1)).map .dataRead ++ [.commandWrite 0xB2])) ∧
      (burstRead n s).2 =
        ⟨.ok, BitVec.ofNat 16 n, readBytes n (s.bus.peer.afterCommandWrite 0xB1)⟩ := by
  obtain ⟨hr0, hc0⟩ := sendCommand_ready 0xB1 .none .commandReady s h
  have e0 : muxAutoRead s = sendCommand 0xB1 .none .commandReady s := rfl
  unfold burstRead
  rw [if_neg hn, e0]
  rcases hcmd : sendCommand 0xB1 .none .commandReady s with ⟨t, c⟩
  rw [hcmd] at hr0 hc0
  cases hc0
  have ht := ready_ran h hr0
  have hp : t.startBurst.bus.peer = s.bus.peer.afterCommandWrite 0xB1 := by
    have := congrArg Bus.peer hr0.bus
    simpa [CommandData.bytes, Bus.cycle, Peer.after, ready_status_peer h] using this
  obtain ⟨hr1, hc1, hk1⟩ := readBody_ready n t.startBurst 0 rfl ht
  have ht1 := ready_ran ht (t := (readBody n t.startBurst).1) ⟨hr1.params, hr1.regs, hr1.port, hr1.bus⟩
  simp only
  rcases hbody : readBody n t.startBurst with ⟨u, e, out⟩
  rw [hbody] at hr1 hc1 hk1 ht1
  rw [hp] at hr1 hc1
  obtain ⟨rfl, rfl⟩ : e = .ok ∧ out = readBytes n (s.bus.peer.afterCommandWrite 0xB1) := by
    simpa [Prod.ext_iff] using hc1
  obtain ⟨hr2, hres⟩ := burstExit_ready .autoReadReady .ok
    (readBytes n (s.bus.peer.afterCommandWrite 0xB1)) u ht1
  have hcount : u.burstCount = BitVec.ofNat 16 n := by
    simp only at hk1
    simp [State.burstCount, hk1]
  refine ⟨?_, by simp only [hres, hcount]⟩
  have hfull := (hr0.trans
    (l' := readyCycles ((readBytes n (s.bus.peer.afterCommandWrite 0xB1)).map .dataRead))
    ⟨hr1.params, hr1.regs, hr1.port, hr1.bus⟩).trans hr2
  simpa [CommandData.bytes] using hfull

end Sys2Proof.Machine
end

