-- ==== Sys2Proof/Laws/Decode.lean ====
section
/-! SUPPORT. The fields of a request word and the two bytes of a 16-bit value, taken apart and put together. -/

namespace Sys2Proof

@[simp] theorem ofWord_toWord (f : Fields) : Fields.ofWord f.toWord = f := by
  obtain ⟨a, b, c, d⟩ := f
  simp only [Fields.ofWord, Fields.toWord, Fields.mk.injEq]
  refine ⟨?_, ?_, ?_, ?_⟩ <;> apply BitVec.eq_of_getLsbD_eq <;> intro i hi <;>
    simp only [BitVec.getLsbD_extractLsb', BitVec.getLsbD_append, hi, decide_true, Bool.true_and] <;>
    split_ifs <;> first | omega | (congr 1; omega)

@[simp] theorem toWord_ofWord (w : Word) : (Fields.ofWord w).toWord = w := by
  simp only [Fields.ofWord, Fields.toWord]
  apply BitVec.eq_of_getLsbD_eq
  intro i hi
  simp only [BitVec.getLsbD_extractLsb', BitVec.getLsbD_append]
  split_ifs <;> rw [decide_eq_true (by omega), Bool.true_and] <;> congr 1 <;> omega

/-- Masking a word masks each of its fields. -/
theorem toWord_and (f g : Fields) :
    f.toWord &&& g.toWord =
      Fields.toWord ⟨f.op &&& g.op, f.cmd &&& g.cmd, f.sel &&& g.sel, f.arg &&& g.arg⟩ := by
  simp only [Fields.toWord]
  apply BitVec.eq_of_getLsbD_eq
  intro i hi
  simp only [BitVec.getLsbD_and, BitVec.getLsbD_append]
  split_ifs <;> rfl

/-- Two words are equal exactly where their fields are. -/
theorem toWord_inj {f g : Fields} : f.toWord = g.toWord ↔ f = g :=
  ⟨fun h => by rw [← ofWord_toWord f, h, ofWord_toWord], fun h => h ▸ rfl⟩

@[simp] theorem high_append (hi lo : Byte) : (hi ++ lo : Addr).extractLsb' 8 8 = hi :=
  BitVec.extractLsb'_append_eq_left

@[simp] theorem low_append (hi lo : Byte) : (hi ++ lo : Addr).extractLsb' 0 8 = lo :=
  BitVec.extractLsb'_append_eq_right

@[simp] theorem append_halves (a : Addr) : a.extractLsb' 8 8 ++ a.extractLsb' 0 8 = a := by
  apply BitVec.eq_of_getLsbD_eq
  intro i hi
  simp only [BitVec.getLsbD_extractLsb', BitVec.getLsbD_append]
  split_ifs <;> rw [decide_eq_true (by omega), Bool.true_and] <;> congr 1 <;> omega

/-- What the form with a 16-bit argument decodes to, and the only frame that does (R65, R103). -/
theorem addrForm_ok {mk : Addr → Instr} {c : BusFrame} {i : Instr} :
    addrForm mk c = .ok i ↔
      ∃ a : Addr, i = mk a ∧ c = ⟨c.op, [a.extractLsb' 0 8, a.extractLsb' 8 8], .commandReady⟩ := by
  obtain ⟨op, data, cond⟩ := c
  constructor
  · intro h
    match data, h with
    | [lo, hi], h =>
      simp only [addrForm] at h
      split_ifs at h with hc
      exact ⟨hi ++ lo, (Except.ok.inj h).symm, by simp [hc]⟩
  · rintro ⟨a, rfl, h⟩
    obtain ⟨-, rfl, rfl⟩ := BusFrame.mk.inj h
    simp [addrForm]

/-- What the form without data decodes to, and the only frame that does (R161). -/
theorem plainForm_ok {j i : Instr} {c : BusFrame} :
    plainForm j c = .ok i ↔ i = j ∧ c = ⟨c.op, [], .commandReady⟩ := by
  obtain ⟨op, data, cond⟩ := c
  unfold plainForm
  split_ifs with h
  · obtain ⟨rfl, rfl⟩ := h
    simp [eq_comm]
  · simp_all

/-- A one-bit selector's choice (R94). -/
theorem bySel_some {α : Type} {sel : BitVec 8} {zero one x : α} :
    bySel sel zero one = some x ↔ (sel = 0 ∧ x = zero) ∨ (sel = 1 ∧ x = one) := by
  unfold bySel
  split_ifs with h0 h1
  · subst h0
    simp [eq_comm]
  · subst h1
    simp [eq_comm]
  · exact ⟨fun h => (nomatch h), fun h => (h.elim (fun h => h0 h.1) (fun h => h1 h.1)).elim⟩

/-- A request pair decodes exactly where its word spells a request and its payload has the length the word says. -/
theorem decode_request {w : Word} {payload : List Byte} {i : Instr} :
    decode (.request ⟨w, payload⟩) = .ok i ↔
      requestOfFields (Fields.ofWord w) payload = some i ∧ payload.length = payloadLength (Fields.ofWord w) := by
  simp only [decode, decodeRequest]
  cases requestOfFields (Fields.ofWord w) payload with
  | none => simp
  | some j =>
    by_cases h : payload.length = payloadLength (Fields.ofWord w)
    · simp [h]
    · simp [h]

/-- A request pair is unsupported exactly where its word spells no request (R96). -/
theorem decode_unsupported {w : Word} {payload : List Byte} :
    decode (.request ⟨w, payload⟩) = .error .unsupported ↔ requestOfFields (Fields.ofWord w) payload = none := by
  simp only [decode, decodeRequest]
  cases requestOfFields (Fields.ofWord w) payload with
  | none => simp
  | some j =>
    by_cases h : payload.length = payloadLength (Fields.ofWord w)
    · simp [h]
    · simp [h]

/-- The fields of a `WRITE` word (R92). -/
theorem ofWord_write (n : BitVec 16) : Fields.ofWord (0x1000#16 ++ n) = ⟨0x1, 0x0, 0, n⟩ := by
  have e : (0x1000#16 ++ n) = Fields.toWord ⟨0x1, 0x0, 0, n⟩ := by
    apply BitVec.eq_of_getLsbD_eq
    intro i hi
    simp only [Fields.toWord, BitVec.getLsbD_append]
    by_cases h : i < 16
    · simp [h]
    · simp only [h, if_false]
      have h' : i - 16 < 16 := by omega
      generalize i - 16 = j at h'
      interval_cases j <;> decide
  rw [e, ofWord_toWord]

/-- Each way a command frame decodes (R102). -/
theorem decodeCommand_cases {c : BusFrame} {i : Instr} (h : decodeCommand c = .ok i) :
    (c.op = 0x24 ∧ addrForm .setAdp c = .ok i) ∨ (c.op = 0x40 ∧ addrForm .txtHome c = .ok i) ∨
    (c.op = 0x41 ∧ addrForm .txtArea c = .ok i) ∨ (c.op = 0x42 ∧ addrForm .gfxHome c = .ok i) ∨
    (c.op = 0x43 ∧ addrForm .gfxArea c = .ok i) ∨ (c.op = 0x81 ∧ plainForm .modeXor c = .ok i) ∨
    (c.op.extractLsb' 4 4 = 0x9 ∧ plainForm (.displayMode (c.op.extractLsb' 0 4)) c = .ok i) ∨
    (c.op = 0xB0 ∧ plainForm .autoWrite c = .ok i) ∨ (c.op = 0xB1 ∧ plainForm .autoRead c = .ok i) ∨
    (c.op = 0xB2 ∧ c.data = [] ∧ i = .autoReset c.cond) := by
  rw [decodeCommand] at h
  by_cases h0 : c.op = 0x24
  · rw [if_pos h0] at h; exact .inl ⟨h0, h⟩
  rw [if_neg h0] at h
  by_cases h1 : c.op = 0x40
  · rw [if_pos h1] at h; exact .inr (.inl ⟨h1, h⟩)
  rw [if_neg h1] at h
  by_cases h2 : c.op = 0x41
  · rw [if_pos h2] at h; exact .inr (.inr (.inl ⟨h2, h⟩))
  rw [if_neg h2] at h
  by_cases h3 : c.op = 0x42
  · rw [if_pos h3] at h; exact .inr (.inr (.inr (.inl ⟨h3, h⟩)))
  rw [if_neg h3] at h
  by_cases h4 : c.op = 0x43
  · rw [if_pos h4] at h; exact .inr (.inr (.inr (.inr (.inl ⟨h4, h⟩))))
  rw [if_neg h4] at h
  by_cases h5 : c.op = 0x81
  · rw [if_pos h5] at h; exact .inr (.inr (.inr (.inr (.inr (.inl ⟨h5, h⟩)))))
  rw [if_neg h5] at h
  by_cases h6 : c.op.extractLsb' 4 4 = 0x9
  · rw [if_pos h6] at h; exact .inr (.inr (.inr (.inr (.inr (.inr (.inl ⟨h6, h⟩))))))
  rw [if_neg h6] at h
  by_cases h7 : c.op = 0xB0
  · rw [if_pos h7] at h; exact .inr (.inr (.inr (.inr (.inr (.inr (.inr (.inl ⟨h7, h⟩)))))))
  rw [if_neg h7] at h
  by_cases h8 : c.op = 0xB1
  · rw [if_pos h8] at h; exact .inr (.inr (.inr (.inr (.inr (.inr (.inr (.inr (.inl ⟨h8, h⟩))))))))
  rw [if_neg h8] at h
  by_cases h9 : c.op = 0xB2
  · rw [if_pos h9] at h
    by_cases hd : c.data = []
    · rw [if_pos hd] at h
      exact .inr (.inr (.inr (.inr (.inr (.inr (.inr (.inr (.inr ⟨h9, hd, (Except.ok.inj h).symm⟩))))))))
    · rw [if_neg hd] at h; cases h
  · rw [if_neg h9] at h; cases h

end Sys2Proof
end

