-- ==== Sys2Proof/Laws/Layout.lean ====
section
/-! SUPPORT. Everything the register-writing steps can do (43_layout_mode.md), said once: what each leaves in the
registers and on the bus when it succeeds, and what it leaves when it times out. -/

namespace Sys2Proof.Machine

/-- `t` is `s` after the bus cycles `l` with the registers `regs`, the port and the parameters as they were. -/
structure Did (s t : State) (regs : Regs) (l : List BusCycle) : Prop where
  params : t.params = s.params
  regs : t.regs = regs
  port : t.port = s.port
  bus : t.bus = s.bus.run l

theorem Ran.did {s t : State} {l : List BusCycle} (h : Ran s t l) : Did s t s.regs l :=
  ⟨h.params, h.regs, h.port, h.bus⟩

theorem Did.trans {s t u : State} {r r' : Regs} {l l' : List BusCycle} (h : Did s t r l) (h' : Did t u r' l') :
    Did s u r' (l ++ l') :=
  ⟨h'.params.trans h.params, h'.regs, h'.port.trans h.port, by rw [h'.bus, h.bus, run_append]⟩

theorem Did.transRan {s t u : State} {r : Regs} {l l' : List BusCycle} (h : Did s t r l) (h' : Ran t u l') :
    Did s u r (l ++ l') := by
  have := h.trans h'.did
  rwa [h.regs] at this

theorem ready_did {s t : State} {r : Regs} {l : List BusCycle} (h : ReadyOracle s) (d : Did s t r l) :
    ReadyOracle t :=
  ready_ran (t := { t with regs := s.regs }) h ⟨d.params, rfl, d.port, d.bus⟩

/-! ### Command bytes -/

/-- Every command byte strobed in `l` is one of R102. -/
def OnlyEmitted (l : List BusCycle) : Prop := ∀ op, .commandWrite op ∈ l → op ∈ emittedBytes

theorem onlyEmitted_append {l l' : List BusCycle} (h : OnlyEmitted l) (h' : OnlyEmitted l') :
    OnlyEmitted (l ++ l') := by
  intro op hm
  rcases List.mem_append.1 hm with hm | hm
  · exact h op hm
  · exact h' op hm

/-- A list strobes what its transfers strobe. -/
theorem onlyEmitted_of_transfers {l : List BusCycle} (h : OnlyEmitted (transfers l)) : OnlyEmitted l :=
  fun op hm => h op (List.mem_filter.2 ⟨hm, rfl⟩)

theorem onlyEmitted_nil : OnlyEmitted [] := by simp [OnlyEmitted]

/-! ### Specifications of steps -/

/-- What has been sent of the transfers `w` when a step timed out: a part of them from the first on, but not all; and
where that part ends inside a burst, perhaps the burst's exit (R296, R185). -/
def Stopped (w l : List BusCycle) : Prop :=
  ∃ p, p <+: w ∧ p.length < w.length ∧
    (transfers l = p ∨ InsideBurst p ∧ transfers l = p ++ [.commandWrite 0xB2])

theorem InsideBurst.append {p : List BusCycle} (h : InsideBurst p) (w : List BusCycle) : InsideBurst (w ++ p) := by
  obtain ⟨q, ds, rfl⟩ := h
  exact ⟨w ++ q, ds, by simp⟩

/-- A step: when it succeeds it turns the registers into `f` of them and issues the transfers `w`; when it times
out, it has stopped on the way through them and the registers it leaves stand in the relation `k` to those it met.
Whatever it does, it strobes only the engine's command bytes, and it raises nothing but `HandshakeTimeout`. -/
def Spec (a : Action) (f : Regs → Regs) (w : Regs → List BusCycle) (k : Regs → Regs → Prop) : Prop :=
  ∀ s, ∃ l regs, Did s (a s).1 regs l ∧ OnlyEmitted l ∧
    (((a s).2 = .ok ∧ regs = f s.regs ∧ transfers l = w s.regs) ∨
      ((a s).2 = .handshakeTimeout ∧ k s.regs regs ∧ Stopped (w s.regs) l))

/-- A step under `READY`: it succeeds, each of its transfers after one status read. -/
def ReadySpec (a : Action) (f : Regs → Regs) (w : Regs → List BusCycle) : Prop :=
  ∀ s, ReadyOracle s → Did s (a s).1 (f s.regs) (readyCycles (w s.regs)) ∧ (a s).2 = .ok

theorem Spec.weaken {a : Action} {f : Regs → Regs} {w : Regs → List BusCycle} {k k' : Regs → Regs → Prop}
    (h : Spec a f w k) (hk : ∀ r r', k r r' → k' r r') : Spec a f w k' := by
  intro s
  obtain ⟨l, regs, hd, he, hc⟩ := h s
  exact ⟨l, regs, hd, he, hc.imp id (And.imp id (And.imp (hk _ _) id))⟩

/-- Steps in a row: `k` is kept from one to the next. -/
theorem Spec.andThen {a b : Action} {f g : Regs → Regs} {w v : Regs → List BusCycle} {k : Regs → Regs → Prop}
    (ha : Spec a f w k) (hb : Spec b g v k) (hk : ∀ r r', k (f r) r' → k r r') :
    Spec (Action.andThen a b) (g ∘ f) (fun r => w r ++ v (f r)) k := by
  intro s
  obtain ⟨l, regs, hd, he, hc⟩ := ha s
  rcases hc with ⟨hok, rfl, ht⟩ | ⟨herr, hkr, p, hp, hn, ht⟩
  · obtain ⟨l', regs', hd', he', hc'⟩ := hb (a s).1
    rw [andThen_ok hok]
    refine ⟨l ++ l', regs', hd.trans hd', onlyEmitted_append he he', ?_⟩
    rw [hd.regs] at hc'
    rcases hc' with ⟨hok', rfl, ht'⟩ | ⟨herr', hkr', p, hp, hn, ht'⟩
    · exact .inl ⟨hok', rfl, by simp [ht, ht']⟩
    · refine .inr ⟨herr', hk _ _ hkr', w s.regs ++ p, (List.prefix_append_right_inj _).2 hp, by simpa using hn, ?_⟩
      exact ht'.imp (fun h => by simp [ht, h]) (fun h => ⟨h.1.append _, by simp [ht, h.2]⟩)
  · rw [andThen_err (by simp [herr])]
    exact ⟨l, regs, hd, he, .inr ⟨herr, hkr, p, hp.trans (List.prefix_append _ _),
      hn.trans_le (by simp), ht⟩⟩

theorem ReadySpec.andThen {a b : Action} {f g : Regs → Regs} {w v : Regs → List BusCycle}
    (ha : ReadySpec a f w) (hb : ReadySpec b g v) :
    ReadySpec (Action.andThen a b) (g ∘ f) (fun r => w r ++ v (f r)) := by
  intro s h
  obtain ⟨hd, hok⟩ := ha s h
  obtain ⟨hd', hok'⟩ := hb (a s).1 (ready_did h hd)
  rw [andThen_ok hok]
  rw [hd.regs] at hd'
  exact ⟨by simpa using hd.trans hd', hok'⟩

theorem spec_writing (f : Regs → Regs) (k : Regs → Regs → Prop) : Spec (writing f) f (fun _ => []) k :=
  fun _ => ⟨[], _, ⟨rfl, rfl, rfl, rfl⟩, onlyEmitted_nil, .inl ⟨rfl, rfl, rfl⟩⟩

theorem readySpec_writing (f : Regs → Regs) : ReadySpec (writing f) f (fun _ => []) :=
  fun _ _ => ⟨⟨rfl, rfl, rfl, rfl⟩, rfl⟩

/-- A command that is one of the ten. -/
theorem spec_sendCommand (op : Byte) (data : CommandData) (cond : PollCond) (hop : op ∈ emittedBytes) :
    Spec (sendCommand op data cond) id (fun _ => data.bytes.map .dataWrite ++ [.commandWrite op])
      (fun r r' => r' = r) := by
  intro s
  obtain ⟨l, hr, hs⟩ := sendCommand_spec op data cond s
  refine ⟨l, s.regs, hr.did, ?_, ?_⟩
  · apply onlyEmitted_of_transfers
    intro op' hm
    have hsub : ∀ c ∈ transfers l, c ∈ data.bytes.map BusCycle.dataWrite ++ [.commandWrite op] := by
      intro c hc
      rcases sendCommand_code op data cond s with e | e <;> rw [e] at hs
      · exact hs ▸ hc
      · exact List.dropLast_subset _ (hs.subset hc)
    have := hsub _ hm
    simp only [List.mem_append, List.mem_map, reduceCtorEq, and_false, exists_false, false_or,
      List.mem_singleton, BusCycle.commandWrite.injEq] at this
    exact this ▸ hop
  · rcases sendCommand_code op data cond s with e | e
    · rw [e] at hs
      exact .inl ⟨e, rfl, hs⟩
    · rw [e] at hs
      have hn := hs.length_le
      exact .inr ⟨e, rfl, _, hs.trans (List.dropLast_prefix _), by simp at hn ⊢; omega, .inl rfl⟩

theorem readySpec_sendCommand (op : Byte) (data : CommandData) (cond : PollCond) :
    ReadySpec (sendCommand op data cond) id (fun _ => data.bytes.map .dataWrite ++ [.commandWrite op]) :=
  fun s h => ⟨(sendCommand_ready op data cond s h).1.did, (sendCommand_ready op data cond s h).2⟩

/-! ### The mode register (R208, R209) -/

theorem modeCommand_emitted (m : BitVec 4) : modeCommand m ∈ emittedBytes := by
  revert m; decide

theorem spec_setMode (m : Byte) :
    Spec (setMode m) (Regs.setMode m) (fun _ => [.commandWrite (modeCommand (m.extractLsb' 0 4))])
      (fun r r' => r' = r) := by
  intro s
  obtain ⟨l, regs, hd, he, hc⟩ := spec_sendCommand (modeCommand (m.extractLsb' 0 4)) .none .commandReady
    (modeCommand_emitted _) (s.writeRegs (Regs.setMode m))
  have e0 : muxDisplayMode (m.extractLsb' 0 4) (s.writeRegs (Regs.setMode m)) =
      sendCommand (modeCommand (m.extractLsb' 0 4)) .none .commandReady (s.writeRegs (Regs.setMode m)) := rfl
  rw [setMode, e0]
  rcases hcmd : sendCommand (modeCommand (m.extractLsb' 0 4)) .none .commandReady
    (s.writeRegs (Regs.setMode m)) with ⟨t, c⟩
  rw [hcmd] at hd hc
  rcases hc with ⟨rfl, rfl, ht⟩ | ⟨rfl, rfl, hst⟩
  · exact ⟨l, _, ⟨hd.params, hd.regs, hd.port, hd.bus⟩, he, .inl ⟨rfl, rfl, ht⟩⟩
  · refine ⟨l, s.regs, ⟨hd.params, ?_, hd.port, hd.bus⟩, he, .inr ⟨rfl, rfl, hst⟩⟩
    simp only [writeRegs_regs]
    rw [hd.regs]
    rfl

theorem readySpec_setMode (m : Byte) :
    ReadySpec (setMode m) (Regs.setMode m) (fun _ => [.commandWrite (modeCommand (m.extractLsb' 0 4))]) := by
  intro s h
  obtain ⟨hd, hc⟩ := readySpec_sendCommand (modeCommand (m.extractLsb' 0 4)) .none .commandReady
    (s.writeRegs (Regs.setMode m)) h
  have e0 : muxDisplayMode (m.extractLsb' 0 4) (s.writeRegs (Regs.setMode m)) =
      sendCommand (modeCommand (m.extractLsb' 0 4)) .none .commandReady (s.writeRegs (Regs.setMode m)) := rfl
  rw [setMode, e0]
  rcases hcmd : sendCommand (modeCommand (m.extractLsb' 0 4)) .none .commandReady
    (s.writeRegs (Regs.setMode m)) with ⟨t, c⟩
  rw [hcmd] at hd hc
  cases hc
  exact ⟨⟨hd.params, hd.regs, hd.port, hd.bus⟩, rfl⟩

/-- The mode byte `setDisplayFlag` sets (R209). -/
abbrev flaggedMode (r : Regs) (f : Flag) (on : Bool) : Byte := withFlag (modeByte r.displayMode) f on

theorem spec_setDisplayFlag (f : Flag) (on : Bool) :
    Spec (setDisplayFlag f on) (fun r => Regs.setMode (flaggedMode r f on) r)
      (fun r => [.commandWrite (modeCommand ((flaggedMode r f on).extractLsb' 0 4))]) (fun r r' => r' = r) :=
  fun s => spec_setMode (flaggedMode s.regs f on) s

theorem readySpec_setDisplayFlag (f : Flag) (on : Bool) :
    ReadySpec (setDisplayFlag f on) (fun r => Regs.setMode (flaggedMode r f on) r)
      (fun r => [.commandWrite (modeCommand ((flaggedMode r f on).extractLsb' 0 4))]) :=
  fun s h => readySpec_setMode (flaggedMode s.regs f on) s h

/-! ### The address pointer and the base addresses (R211, R212) -/

theorem spec_setAddressPointer (a : Addr) :
    Spec (setAddressPointer a) (Regs.setShadow a) (fun _ => addrCycles 0x24 a) (fun r r' => r' = r) := by
  have h := (spec_sendCommand 0x24 (.addr a) .commandReady (by decide)).andThen
    (spec_writing (Regs.setShadow a) (fun r r' => r' = r)) (fun _ _ h => h)
  simpa [setAddressPointer, muxSetAdp, sendCommandAddr, CommandData.bytes, addrCycles, lo8, hi8] using h

theorem readySpec_setAddressPointer (a : Addr) :
    ReadySpec (setAddressPointer a) (Regs.setShadow a) (fun _ => addrCycles 0x24 a) := by
  have h := (readySpec_sendCommand 0x24 (.addr a) .commandReady).andThen (readySpec_writing (Regs.setShadow a))
  simpa [setAddressPointer, muxSetAdp, sendCommandAddr, CommandData.bytes, addrCycles, lo8, hi8] using h

/-- The home command's byte (R168, R170). -/
def homeByte : Region → Byte
  | .text => 0x40
  | .graphics => 0x42

theorem muxHome_eq (region : Region) (a : Addr) :
    muxHome region a = sendCommand (homeByte region) (.addr a) .commandReady := by
  cases region <;> rfl

/-- `setBaseAddress` past its check (R212). -/
theorem spec_setBase (region : Region) (a : Addr) :
    Spec (Action.andThen (muxHome region a) (writing (Regs.setBase region a))) (Regs.setBase region a)
      (fun _ => addrCycles (homeByte region) a) (fun r r' => r' = r) := by
  rw [muxHome_eq]
  have h := (spec_sendCommand (homeByte region) (.addr a) .commandReady (by cases region <;> decide)).andThen
    (spec_writing (Regs.setBase region a) (fun r r' => r' = r)) (fun _ _ h => h)
  simpa [CommandData.bytes, addrCycles, lo8, hi8] using h

theorem readySpec_setBase (region : Region) (a : Addr) :
    ReadySpec (Action.andThen (muxHome region a) (writing (Regs.setBase region a))) (Regs.setBase region a)
      (fun _ => addrCycles (homeByte region) a) := by
  rw [muxHome_eq]
  have h := (readySpec_sendCommand (homeByte region) (.addr a) .commandReady).andThen
    (readySpec_writing (Regs.setBase region a))
  simpa [CommandData.bytes, addrCycles, lo8, hi8] using h

/-! ### Clears (R214) -/

theorem sentByte_raw (b : Byte) : sentByte false b = b := rfl

theorem burstWrite_code (bytes : List Byte) (text : Bool) (s : State) :
    ∃ l, Ran s (burstWrite bytes text s).1 l ∧ OnlyEmitted l ∧
      (((burstWrite bytes text s).2.code = .ok ∧ transfers l = burstCycles (bytes.map (sentByte text))) ∨
        ((burstWrite bytes text s).2.code = .handshakeTimeout ∧
          Stopped (burstCycles (bytes.map (sentByte text))) l)) := by
  rcases bytes with _ | ⟨b, rest⟩
  · exact ⟨[], Ran.refl s, onlyEmitted_nil, .inl ⟨rfl, rfl⟩⟩
  obtain ⟨l, hr, hw⟩ := burstWrite_spec (b :: rest) text s (by simp)
  refine ⟨l, hr, ?_⟩
  cases hw with
  | entryFailed ht hr' =>
    exact ⟨onlyEmitted_of_transfers (by rw [ht]; exact onlyEmitted_nil),
      .inr ⟨by rw [hr'], [], List.nil_prefix, by simp [burstCycles], .inl ht⟩⟩
  | moved k exit hk ht hx hr' hc =>
    refine ⟨onlyEmitted_of_transfers ?_, ?_⟩
    · rw [ht]
      intro op hm
      rcases hx with rfl | ⟨rfl, -⟩ <;>
        simp only [List.mem_append, List.mem_cons, BusCycle.commandWrite.injEq, List.mem_map, reduceCtorEq,
          and_false, exists_false, or_false, List.not_mem_nil] at hm
      · rcases hm with rfl | rfl <;> decide
      · rw [hm]; decide
    · rcases hc with ⟨h1, h2, h3⟩ | ⟨h1, -⟩
      · refine .inl ⟨h1, ?_⟩
        rw [ht, h2, h3]
        simp [burstCycles]
      · refine .inr ⟨h1, .commandWrite 0xB0 ::
          ((b :: rest).take k).map (fun b => .dataWrite (sentByte text b)), ?_, ?_, ?_⟩
        · have e : burstCycles ((b :: rest).map (sentByte text)) = .commandWrite 0xB0 ::
              ((b :: rest).map (fun b => .dataWrite (sentByte text b)) ++ [.commandWrite 0xB2]) := by
            simp [burstCycles]
          rw [e, List.cons_prefix_cons, List.map_take]
          exact ⟨rfl, (List.take_prefix _ _).trans (List.prefix_append _ _)⟩
        · simp only [burstCycles, List.length_cons, List.length_map, List.length_take, List.map_cons, reduceCtorEq,
            if_false, List.cons_append, List.length_append, List.length_nil]
          omega
        · rcases hx with rfl | ⟨rfl, -⟩
          · exact .inr ⟨⟨[], ((b :: rest).take k).map (sentByte text), by simp [Function.comp_def]⟩, ht⟩
          · exact .inl (by simpa using ht)

theorem map_sentByte_zeros (n : Nat) : (zeros n).map (sentByte false) = List.replicate n 0 := by
  simp [zeros, sentByte]

/-- A clear leaves the registers as they were but for `ADP_SHADOW`, which it may have set to the base (R214). -/
theorem spec_clearStep (region : Region) :
    Spec (clearStep region) (fun r => Regs.setShadow (regionBase r region) r)
      (fun r => clearCycles (regionBase r region) (regionLen r region))
      (fun r r' => r' = r ∨ r' = Regs.setShadow (regionBase r region) r) := by
  intro s
  obtain ⟨l, regs, hd, he, hc⟩ := spec_setAddressPointer (regionBase s.regs region) s
  unfold clearStep clearRegion
  rcases hset : setAddressPointer (regionBase s.regs region) s with ⟨t, c⟩
  rw [hset] at hd hc
  rcases hc with ⟨rfl, rfl, ht⟩ | ⟨rfl, rfl, p, hp, hn, ht⟩
  · simp only
    obtain ⟨l', hr', he', hc'⟩ := burstWrite_code (zeros (regionLen s.regs region)) false t
    refine ⟨l ++ l', _, hd.transRan hr', onlyEmitted_append he he', ?_⟩
    rw [map_sentByte_zeros] at hc'
    rcases hc' with ⟨h1, h2⟩ | ⟨h1, p, hp, hn, h2⟩
    · exact .inl ⟨h1, rfl, by simp [ht, h2, clearCycles]⟩
    · refine .inr ⟨h1, .inr rfl, addrCycles 0x24 (regionBase s.regs region) ++ p,
        (List.prefix_append_right_inj _).2 hp, by simpa [clearCycles] using hn, ?_⟩
      exact h2.imp (fun h => by simp [ht, h]) (fun h => ⟨h.1.append _, by simp [ht, h.2]⟩)
  · exact ⟨l, s.regs, hd, he, .inr ⟨rfl, .inl rfl, p, hp.trans (List.prefix_append _ _),
      hn.trans_le (by simp [clearCycles]), ht⟩⟩

/-- What a clear of the `len` bytes from `base` has done (R214): its address-set timed out, short of its strobe; or
there was nothing to clear; or its burst did what a write burst of zero bytes does. -/
inductive ClearRun (base : Addr) (len : Nat) (l : List BusCycle) (r : Response) : Prop
  | addressFailed (ht : transfers l <+: (addrCycles 0x24 base).dropLast) (hr : r = ⟨.handshakeTimeout, 0, []⟩)
  | empty (hl : len = 0) (ht : transfers l = addrCycles 0x24 base) (hr : r = ⟨.ok, 0, []⟩)
  | burst (l1 l2 : List BusCycle) (hl : l = l1 ++ l2) (ht : transfers l1 = addrCycles 0x24 base)
      (hw : WriteBurst (zeros len) false l2 r)

theorem clearRegion_spec (region : Region) (s : State) :
    ∃ l regs, Did s (clearRegion region s).1 regs l ∧
      ClearRun (regionBase s.regs region) (regionLen s.regs region) l (clearRegion region s).2 ∧
      ((regs = s.regs ∧ (clearRegion region s).2 = ⟨.handshakeTimeout, 0, []⟩ ∧ ∀ op, .commandWrite op ∉ l) ∨
        (regs = Regs.setShadow (regionBase s.regs region) s.regs ∧ .commandWrite 0x24 ∈ l)) := by
  obtain ⟨l, hr, hs⟩ := sendCommand_spec 0x24 (.addr (regionBase s.regs region)) .commandReady s
  have e0 : muxSetAdp (regionBase s.regs region) =
      sendCommand 0x24 (.addr (regionBase s.regs region)) .commandReady := rfl
  have ew : (CommandData.addr (regionBase s.regs region)).bytes.map BusCycle.dataWrite ++ [.commandWrite 0x24] =
      addrCycles 0x24 (regionBase s.regs region) := rfl
  rw [ew] at hs
  unfold clearRegion setAddressPointer
  rw [e0]
  rcases sendCommand_code 0x24 (.addr (regionBase s.regs region)) .commandReady s with e | e
  · rw [e] at hs
    rw [andThen_ok e]
    have hmem : BusCycle.commandWrite 0x24 ∈ l := List.mem_of_mem_filter (hs ▸ (by simp [addrCycles]) : _ ∈ transfers l)
    generalize (sendCommand 0x24 (.addr (regionBase s.regs region)) .commandReady s).1 = t at hr
    have hd : Did s (t.writeRegs (Regs.setShadow (regionBase s.regs region)))
        (Regs.setShadow (regionBase s.regs region) s.regs) l :=
      ⟨hr.params, by rw [writeRegs_regs, hr.regs], hr.port, hr.bus⟩
    simp only [writing]
    by_cases hz : regionLen s.regs region = 0
    · rw [hz]
      exact ⟨l, _, hd, .empty rfl hs rfl, .inr ⟨rfl, hmem⟩⟩
    · obtain ⟨l', hr', hw⟩ := burstWrite_spec (zeros (regionLen s.regs region)) false
        (t.writeRegs (Regs.setShadow (regionBase s.regs region))) (by simpa [zeros] using hz)
      exact ⟨l ++ l', _, hd.transRan hr', .burst l l' rfl hs hw, .inr ⟨rfl, List.mem_append_left _ hmem⟩⟩
  · rw [e] at hs
    rw [andThen_err (by rw [e]; decide)]
    rcases hc : sendCommand 0x24 (.addr (regionBase s.regs region)) .commandReady s with ⟨t, c⟩
    rw [hc] at hr e
    cases e
    refine ⟨l, s.regs, hr.did, .addressFailed hs rfl, .inl ⟨rfl, rfl, ?_⟩⟩
    intro op hm
    have := hs.subset (List.mem_filter.2 ⟨hm, rfl⟩)
    simp [addrCycles] at this

theorem clearRegion_ready (region : Region) (s : State) (h : ReadyOracle s) :
    Did s (clearRegion region s).1 (Regs.setShadow (regionBase s.regs region) s.regs)
        (readyCycles (clearCycles (regionBase s.regs region) (regionLen s.regs region))) ∧
      (clearRegion region s).2 = ⟨.ok, BitVec.ofNat 16 (regionLen s.regs region), []⟩ := by
  obtain ⟨hd, hc⟩ := readySpec_setAddressPointer (regionBase s.regs region) s h
  unfold clearRegion
  rcases hset : setAddressPointer (regionBase s.regs region) s with ⟨t, c⟩
  rw [hset] at hd hc
  cases hc
  obtain ⟨hr', hres⟩ := burstWrite_ready (zeros (regionLen s.regs region)) false t (ready_did h hd)
  simp only
  rw [map_sentByte_zeros] at hr'
  refine ⟨?_, by simpa [zeros] using hres⟩
  have := hd.transRan hr'
  rwa [← readyCycles_append] at this

theorem readySpec_clearStep (region : Region) :
    ReadySpec (clearStep region) (fun r => Regs.setShadow (regionBase r region) r)
      (fun r => clearCycles (regionBase r region) (regionLen r region)) := by
  intro s h
  obtain ⟨hd, hr⟩ := clearRegion_ready region s h
  exact ⟨hd, by simp [clearStep, hr]⟩

/-! ### The reset (R215) -/

/-- What every step of the reset but its first two and its last keeps: `LIFE`, the layout and `ENTRY_MODE`. -/
structure ResetKeeps (r r' : Regs) : Prop where
  life : r'.life = r.life
  rows : r'.rows = r.rows
  cols : r'.cols = r.cols
  rowWidth : r'.rowWidth = r.rowWidth
  textBase : r'.textBase = r.textBase
  gfxBase : r'.gfxBase = r.gfxBase
  entryMode : r'.entryMode = r.entryMode
  layoutHeld : r'.layoutHeld = r.layoutHeld

theorem ResetKeeps.refl (r : Regs) : ResetKeeps r r := ⟨rfl, rfl, rfl, rfl, rfl, rfl, rfl, rfl⟩

theorem ResetKeeps.trans {a b c : Regs} (h : ResetKeeps a b) (h' : ResetKeeps b c) : ResetKeeps a c :=
  ⟨h'.1.trans h.1, h'.2.trans h.2, h'.3.trans h.3, h'.4.trans h.4, h'.5.trans h.5, h'.6.trans h.6,
    h'.7.trans h.7, h'.8.trans h.8⟩

/-- A step with its effect on the registers and its transfers. -/
structure Described where
  act : Action
  effect : Regs → Regs
  cycles : Regs → List BusCycle

/-- The register effect of steps in a row. -/
def effects : List Described → Regs → Regs
  | [], r => r
  | d :: ds, r => effects ds (d.effect r)

/-- The transfers of steps in a row. -/
def allCycles : List Described → Regs → List BusCycle
  | [], _ => []
  | d :: ds, r => d.cycles r ++ allCycles ds (d.effect r)

theorem spec_inOrder (ds : List Described)
    (h : ∀ d ∈ ds, Spec d.act d.effect d.cycles ResetKeeps ∧ ∀ r, ResetKeeps r (d.effect r)) :
    Spec (inOrder (ds.map Described.act)) (effects ds) (allCycles ds) ResetKeeps := by
  induction ds with
  | nil => exact fun s => ⟨[], _, ⟨rfl, rfl, rfl, rfl⟩, onlyEmitted_nil, .inl ⟨rfl, rfl, rfl⟩⟩
  | cons d ds ih =>
    obtain ⟨hd, hk⟩ := h d (by simp)
    exact hd.andThen (ih (fun e he => h e (by simp [he]))) (fun r r' hr => (hk r).trans hr)

theorem readySpec_inOrder (ds : List Described) (h : ∀ d ∈ ds, ReadySpec d.act d.effect d.cycles) :
    ReadySpec (inOrder (ds.map Described.act)) (effects ds) (allCycles ds) := by
  induction ds with
  | nil => exact fun s _ => ⟨⟨rfl, rfl, rfl, rfl⟩, rfl⟩
  | cons d ds ih => exact (h d (by simp)).andThen (ih (fun e he => h e (by simp [he])))

/-- A command as a described step. -/
def describedCommand (op : Byte) (data : CommandData) : Described :=
  ⟨sendCommand op data .commandReady, id, fun _ => data.bytes.map .dataWrite ++ [.commandWrite op]⟩

/-- A flag change as a described step. -/
def describedFlag (f : Flag) (on : Bool) : Described :=
  ⟨setDisplayFlag f on, fun r => Regs.setMode (flaggedMode r f on) r,
    fun r => [.commandWrite (modeCommand ((flaggedMode r f on).extractLsb' 0 4))]⟩

/-- A clear as a described step. -/
def describedClear (region : Region) : Described :=
  ⟨clearStep region, fun r => Regs.setShadow (regionBase r region) r,
    fun r => clearCycles (regionBase r region) (regionLen r region)⟩

/-- The steps of a reset up to its last (R216 to R222). -/
def describedReset (gb rw tb c : BitVec 16) : List Described :=
  [describedCommand 0xB2 .none,
   ⟨setMode 0x00, Regs.setMode 0x00, fun _ => [.commandWrite 0x90]⟩,
   describedCommand 0x42 (.addr gb), describedCommand 0x43 (.addr rw),
   describedCommand 0x40 (.addr tb), describedCommand 0x41 (.addr c),
   describedCommand 0x81 .none,
   describedClear .text, describedClear .graphics,
   describedFlag .cursor true, describedFlag .blink false, describedFlag .text false, describedFlag .graphics true]

theorem inOrder_append_one (as : List Action) (b : Action) :
    inOrder (as ++ [b]) = Action.andThen (inOrder as) b := by
  induction as with
  | nil =>
    funext s
    simp only [List.nil_append, inOrder_cons]
    rw [andThen_ok (f := inOrder []) rfl]
    rcases andThen_cases b (inOrder []) s with ⟨h1, h2⟩ | ⟨-, h2⟩
    · rw [h2]
      exact Prod.ext rfl h1.symm
    · exact h2
  | cons a as ih =>
    funext s
    simp only [List.cons_append, inOrder_cons, ih]
    rcases andThen_cases a (inOrder as) s with ⟨h1, h2⟩ | ⟨h1, h2⟩
    · rw [andThen_ok h1]
      rcases andThen_cases (inOrder as) b (a s).1 with ⟨h3, h4⟩ | ⟨h3, h4⟩
      · rw [h4, andThen_ok (by rw [h2]; exact h3), h2]
      · rw [h4, andThen_err (by rw [h2]; exact h3), h2]
    · rw [andThen_err h1, andThen_err (by rw [h2]; exact h1), h2]

theorem resetSteps_eq (gb rw tb c : BitVec 16) :
    resetSteps gb rw tb c =
      (describedReset gb rw tb c).map Described.act ++ [writing (Regs.setLife .ready)] := rfl

theorem keeps_setMode (m : Byte) (r : Regs) : ResetKeeps r (Regs.setMode m r) :=
  ⟨rfl, rfl, rfl, rfl, rfl, rfl, rfl, rfl⟩

theorem keeps_setShadow (a : Addr) (r : Regs) : ResetKeeps r (Regs.setShadow a r) :=
  ⟨rfl, rfl, rfl, rfl, rfl, rfl, rfl, rfl⟩

theorem eq_keeps (r r' : Regs) (h : r' = r) : ResetKeeps r r' := h ▸ ResetKeeps.refl r

theorem describedCommand_spec (op : Byte) (data : CommandData) (h : op ∈ emittedBytes) :
    Spec (describedCommand op data).act (describedCommand op data).effect (describedCommand op data).cycles
        ResetKeeps ∧ ∀ r, ResetKeeps r ((describedCommand op data).effect r) :=
  ⟨(spec_sendCommand op data .commandReady h).weaken eq_keeps, ResetKeeps.refl⟩

theorem describedFlag_spec (f : Flag) (on : Bool) :
    Spec (describedFlag f on).act (describedFlag f on).effect (describedFlag f on).cycles ResetKeeps ∧
      ∀ r, ResetKeeps r ((describedFlag f on).effect r) :=
  ⟨(spec_setDisplayFlag f on).weaken eq_keeps, fun r => keeps_setMode _ r⟩

theorem describedClear_spec (region : Region) :
    Spec (describedClear region).act (describedClear region).effect (describedClear region).cycles ResetKeeps ∧
      ∀ r, ResetKeeps r ((describedClear region).effect r) := by
  refine ⟨(spec_clearStep region).weaken ?_, fun r => keeps_setShadow _ r⟩
  rintro r r' (rfl | rfl)
  · exact ResetKeeps.refl _
  · exact keeps_setShadow _ r

theorem describedReset_spec (gb rw tb c : BitVec 16) :
    ∀ d ∈ describedReset gb rw tb c,
      Spec d.act d.effect d.cycles ResetKeeps ∧ ∀ r, ResetKeeps r (d.effect r) := by
  simp only [describedReset, List.forall_mem_cons, List.not_mem_nil, false_implies, implies_true, and_true]
  exact ⟨describedCommand_spec _ _ (by decide),
    ⟨(spec_setMode 0x00).weaken eq_keeps, fun r => keeps_setMode _ r⟩,
    describedCommand_spec _ _ (by decide), describedCommand_spec _ _ (by decide),
    describedCommand_spec _ _ (by decide), describedCommand_spec _ _ (by decide),
    describedCommand_spec _ _ (by decide), describedClear_spec _, describedClear_spec _,
    describedFlag_spec _ _, describedFlag_spec _ _, describedFlag_spec _ _, describedFlag_spec _ _⟩

theorem describedReset_ready (gb rw tb c : BitVec 16) :
    ∀ d ∈ describedReset gb rw tb c, ReadySpec d.act d.effect d.cycles := by
  simp only [describedReset, List.forall_mem_cons, List.not_mem_nil, false_implies, implies_true, and_true]
  exact ⟨readySpec_sendCommand _ _ _, readySpec_setMode 0x00,
    readySpec_sendCommand _ _ _, readySpec_sendCommand _ _ _,
    readySpec_sendCommand _ _ _, readySpec_sendCommand _ _ _, readySpec_sendCommand _ _ _,
    readySpec_clearStep _, readySpec_clearStep _,
    readySpec_setDisplayFlag _ _, readySpec_setDisplayFlag _ _, readySpec_setDisplayFlag _ _,
    readySpec_setDisplayFlag _ _⟩

/-- The registers once the layout is committed (R215, R226). -/
def committed (rows cols : Byte) (r : Regs) : Regs :=
  Regs.setGfxBase (BitVec.ofNat 16 (gfxBaseOf rows.toNat cols.toNat)) (Regs.setTextBase Config.textBase
    (Regs.setRowWidth (BitVec.ofNat 16 (rowWidthOf cols.toNat))
      (Regs.setCols cols (Regs.setRows rows (Regs.setLife .configuring r)))))

/-- The state once the layout is committed: `LIFE <- Configuring` and the five layout registers, six writes. -/
def State.commit (rows cols : Byte) (s : State) : State :=
  (((((s.writeRegs (Regs.setLife .configuring)).writeRegs (Regs.setRows rows)).writeRegs
    (Regs.setCols cols)).writeRegs (Regs.setRowWidth (BitVec.ofNat 16 (rowWidthOf cols.toNat)))).writeRegs
    (Regs.setTextBase Config.textBase)).writeRegs
    (Regs.setGfxBase (BitVec.ofNat 16 (gfxBaseOf rows.toNat cols.toNat)))

@[simp] theorem commit_regs (rows cols : Byte) (s : State) : (s.commit rows cols).regs = committed rows cols s.regs :=
  rfl
@[simp] theorem commit_params (rows cols : Byte) (s : State) : (s.commit rows cols).params = s.params := rfl
@[simp] theorem commit_bus (rows cols : Byte) (s : State) : (s.commit rows cols).bus = s.bus := rfl
@[simp] theorem commit_port (rows cols : Byte) (s : State) : (s.commit rows cols).port = s.port := rfl

/-- R21: the commit is six register writes, so six steps. -/
theorem commit_pos (rows cols : Byte) (s : State) : (s.commit rows cols).ctl.pos = s.ctl.pos.map (· + 6) := by
  simp [State.commit, State.writeRegs, State.tick, Function.comp_def]

/-- The reset past its check. -/
theorem resetEngine_valid {rows cols : Byte} {s : State} (h : ResetValid s.params rows cols) :
    resetEngine rows cols s =
      Action.andThen
        (inOrder ((describedReset (BitVec.ofNat 16 (gfxBaseOf rows.toNat cols.toNat))
          (BitVec.ofNat 16 (rowWidthOf cols.toNat)) Config.textBase (cols.setWidth 16)).map Described.act))
        (writing (Regs.setLife .ready))
        (s.commit rows cols) := by
  have e : ∀ (f : Regs → Regs) (as : List Action) (t : State),
      inOrder (writing f :: as) t = inOrder as (t.writeRegs f) := fun f as t => by
    rw [inOrder_cons, andThen_ok rfl]
    rfl
  rw [resetEngine, if_pos h, resetSteps_eq]
  simp only [layoutCommit, List.cons_append, List.nil_append, e]
  rw [inOrder_append_one]
  rfl

theorem resetEngine_invalid {rows cols : Byte} {s : State} (h : ¬ ResetValid s.params rows cols) :
    resetEngine rows cols s = (s, .invalidLayout) := by
  rw [resetEngine, if_neg h]

theorem rowWidthOf_le {c : Nat} (h : c < 256) : rowWidthOf c ≤ 256 := by
  unfold rowWidthOf
  omega

theorem setWidth_toNat (c : Byte) : (c.setWidth 16).toNat = c.toNat := by
  have := c.isLt
  simp only [BitVec.toNat_setWidth]
  omega

theorem effects_reset (rows cols : Byte) (r : Regs) :
    Regs.setLife .ready (effects (describedReset (BitVec.ofNat 16 (gfxBaseOf rows.toNat cols.toNat))
      (BitVec.ofNat 16 (rowWidthOf cols.toNat)) Config.textBase (cols.setWidth 16)) (committed rows cols r)) =
      resetRegs rows cols r := by
  simp [describedReset, effects, describedCommand, describedFlag, describedClear, committed, resetRegs,
    Regs.setRows, Regs.setCols, Regs.setRowWidth, Regs.setTextBase, Regs.setGfxBase, Regs.setLife, Regs.setMode,
    Regs.setShadow, regionBase, flaggedMode]
  decide

theorem cycles_reset (rows cols : Byte) (r : Regs) :
    allCycles (describedReset (BitVec.ofNat 16 (gfxBaseOf rows.toNat cols.toNat))
      (BitVec.ofNat 16 (rowWidthOf cols.toNat)) Config.textBase (cols.setWidth 16)) (committed rows cols r) =
      resetCycles rows cols := by
  have hw : (BitVec.ofNat 16 (rowWidthOf cols.toNat)).toNat = rowWidthOf cols.toNat := by
    have := rowWidthOf_le cols.isLt
    simp only [BitVec.toNat_ofNat]
    omega
  simp [describedReset, allCycles, describedCommand, describedFlag, describedClear, committed, resetCycles,
    Regs.setRows, Regs.setCols, Regs.setRowWidth, Regs.setTextBase, Regs.setGfxBase, Regs.setLife, Regs.setMode,
    Regs.setShadow, regionBase, regionLen, CommandData.bytes, addrCycles, hw, lo8, hi8, Config.textBase, flaggedMode]
  decide

/-- A reset under `READY` with a valid layout (R215, R36). -/
theorem resetEngine_ready {rows cols : Byte} {s : State} (h : ReadyOracle s)
    (hv : ResetValid s.params rows cols) :
    Did s (resetEngine rows cols s).1 (resetRegs rows cols s.regs) (readyCycles (resetCycles rows cols)) ∧
      (resetEngine rows cols s).2 = .ok := by
  rw [resetEngine_valid hv]
  obtain ⟨hd, hc⟩ := ((readySpec_inOrder _ (describedReset_ready _ _ _ _)).andThen
    (readySpec_writing (Regs.setLife .ready)))
    (s.commit rows cols) h
  rw [commit_regs] at hd
  simp only [Function.comp_apply, List.append_nil] at hd
  rw [effects_reset, cycles_reset] at hd
  exact ⟨⟨hd.params, hd.regs, hd.port, hd.bus⟩, hc⟩

/-- A reset with a valid layout, whatever the peer answers (R223, R226). -/
theorem resetEngine_spec {rows cols : Byte} {s : State} (hv : ResetValid s.params rows cols) :
    ∃ l regs, Did s (resetEngine rows cols s).1 regs l ∧ OnlyEmitted l ∧
      (((resetEngine rows cols s).2 = .ok ∧ regs = resetRegs rows cols s.regs ∧
          transfers l = resetCycles rows cols) ∨
        ((resetEngine rows cols s).2 = .handshakeTimeout ∧ ResetKeeps (committed rows cols s.regs) regs ∧
          Stopped (resetCycles rows cols) l)) := by
  rw [resetEngine_valid hv]
  generalize hu : s.commit rows cols = u
  have e : u.regs = committed rows cols s.regs := by rw [← hu]; rfl
  have hd0 : ∀ t r l, Did u t r l → Did s t r l := by
    intro t r l h
    subst hu
    exact ⟨h.params, h.regs, h.port, h.bus⟩
  obtain ⟨l, regs, hd, he, hc⟩ := spec_inOrder _ (describedReset_spec
    (BitVec.ofNat 16 (gfxBaseOf rows.toNat cols.toNat)) (BitVec.ofNat 16 (rowWidthOf cols.toNat))
    Config.textBase (cols.setWidth 16)) u
  rw [e] at hc
  rw [cycles_reset] at hc
  rcases hc with ⟨hok, rfl, ht⟩ | ⟨herr, hk⟩
  · rw [andThen_ok hok]
    refine ⟨l, resetRegs rows cols s.regs, hd0 _ _ _ ⟨hd.params, ?_, hd.port, hd.bus⟩, he, .inl ⟨rfl, rfl, ht⟩⟩
    rw [← effects_reset rows cols s.regs, ← hd.regs]
    rfl
  · rw [andThen_err (by simp [herr])]
    exact ⟨l, regs, hd0 _ _ _ hd, he, .inr ⟨herr, hk⟩⟩

end Sys2Proof.Machine
end

