-- ==== Sys2Proof/Laws/Memory.lean ====
section
/-! SUPPORT. Display memory: a read after a write, and that every memory operation keeps the canonical form; and
what the reference device's reaction to a bus cycle does to its memory. -/

namespace Sys2Proof.Machine

/-- Every listed address of `m` is above `k`. -/
def AllAbove (k : Nat) (m : Memory) : Prop := ∀ c ∈ m, k < c.1

theorem read_of_allAbove {m : Memory} {a k : Nat} (h : AllAbove k m) (ha : a ≤ k) :
    Memory.read m a = Memory.unlisted := by
  induction m with
  | nil => rfl
  | cons c m ih =>
    obtain ⟨x, v⟩ := c
    have hx : k < x := h (x, v) (by simp)
    rw [Memory.read, if_neg (by omega)]
    exact ih (fun c hc => h c (by simp [hc]))

theorem wf_cons {k : Nat} {v : Byte} {m : Memory} :
    Memory.wf ((k, v) :: m) = true ↔
      v ≠ Memory.unlisted ∧ k < 0x10000 ∧ AllAbove k m ∧ Memory.wf m = true := by
  simp [Memory.wf, AllAbove, and_assoc]

/-- A write leaves the byte written and every other byte as it was. -/
theorem read_write (m : Memory) (h : Memory.wf m = true) (a : Nat) (b : Byte) (x : Nat) :
    Memory.read (Memory.write m a b) x = if x = a then b else Memory.read m x := by
  induction m with
  | nil => by_cases hb : b = Memory.unlisted <;> by_cases hx : x = a <;> simp [Memory.write, Memory.read, hb, hx]
  | cons c m ih =>
    obtain ⟨k, v⟩ := c
    obtain ⟨hv, hk, hab, hm⟩ := wf_cons.1 h
    rw [Memory.write]
    split
    · rename_i hlt
      by_cases hb : b = Memory.unlisted
      · rw [if_pos hb]
        by_cases hx : x = a
        · subst hx
          rw [if_pos rfl, hb, Memory.read, if_neg (by omega)]
          exact read_of_allAbove hab (by omega)
        · rw [if_neg hx]
      · rw [if_neg hb, Memory.read]
    · split
      · rename_i hlt hak
        subst hak
        by_cases hb : b = Memory.unlisted
        · rw [if_pos hb]
          by_cases hx : x = a
          · subst hx
            rw [if_pos rfl, hb]
            exact read_of_allAbove hab (by omega)
          · rw [if_neg hx, Memory.read, if_neg hx]
        · rw [if_neg hb, Memory.read, Memory.read]
          by_cases hx : x = a <;> simp [hx]
      · rename_i hlt hak
        rw [Memory.read, Memory.read, ih hm]
        by_cases hx : x = k
        · rw [if_pos hx, if_neg (by omega), if_pos hx]
        · rw [if_neg hx, if_neg hx]

theorem allAbove_write {m : Memory} {k a : Nat} {b : Byte} (h : AllAbove k m) (ha : k < a) :
    AllAbove k (Memory.write m a b) := by
  induction m with
  | nil =>
    rw [Memory.write]
    split <;> simp [AllAbove, ha]
  | cons c m ih =>
    obtain ⟨x, v⟩ := c
    have hx : k < x := h (x, v) (by simp)
    have hm : AllAbove k m := fun c hc => h c (by simp [hc])
    rw [Memory.write]
    split
    · split
      · exact h
      · intro c hc
        rcases List.mem_cons.1 hc with rfl | hc
        · exact ha
        · exact h c hc
    · split
      · split
        · exact hm
        · intro c hc
          rcases List.mem_cons.1 hc with rfl | hc
          · exact ha
          · exact hm c hc
      · intro c hc
        rcases List.mem_cons.1 hc with rfl | hc
        · exact hx
        · exact ih hm c hc

/-- A write to an address of the display space keeps the canonical form. -/
theorem wf_write (m : Memory) (h : Memory.wf m = true) (a : Nat) (ha : a < 0x10000) (b : Byte) :
    Memory.wf (Memory.write m a b) = true := by
  induction m with
  | nil =>
    rw [Memory.write]
    split
    · rfl
    · rename_i hb
      exact wf_cons.2 ⟨hb, ha, by simp [AllAbove], rfl⟩
  | cons c m ih =>
    obtain ⟨k, v⟩ := c
    obtain ⟨hv, hk, hab, hm⟩ := wf_cons.1 h
    rw [Memory.write]
    split
    · rename_i hlt
      split
      · exact h
      · rename_i hb
        refine wf_cons.2 ⟨hb, ha, ?_, h⟩
        intro c hc
        rcases List.mem_cons.1 hc with rfl | hc
        · exact hlt
        · have := hab c hc
          omega
    · split
      · rename_i hlt hak
        subst hak
        split
        · exact hm
        · rename_i hb
          exact wf_cons.2 ⟨hb, ha, hab, hm⟩
      · rename_i hlt hak
        exact wf_cons.2 ⟨hv, hk, allAbove_write hab (by omega), ih hm⟩

/-! ### The reference device -/

theorem carryOut_mem (op : Byte) (a : Addr) (d : RefDevice) : (RefDevice.carryOut op a d).mem = d.mem := by
  unfold RefDevice.carryOut
  split_ifs <;> rfl

@[simp] theorem commandWrite_mem (op : Byte) (a : Addr) (d : RefDevice) :
    (d.commandWrite op a).mem = d.mem := carryOut_mem op a d

@[simp] theorem commandWrite_latch (op : Byte) (a : Addr) (d : RefDevice) :
    (d.commandWrite op a).latch = [] := rfl

@[simp] theorem dataRead_mem (d : RefDevice) : d.dataRead.mem = d.mem := by
  unfold RefDevice.dataRead
  split <;> rfl

theorem length_lastTwo (l : List Byte) : (lastTwo l).length ≤ 2 := by
  simp only [lastTwo, List.length_drop]
  omega

/-- What a cycle does to the attached device (R68, R70): only a data write in auto-write mode stores a byte. -/
theorem after_mem (p : Peer) (c : BusCycle) :
    (p.after c).device.mem = p.device.mem ∨
      ∃ v, c = .dataWrite v ∧ p.attached = true ∧ p.device.auto = .write ∧
        (p.after c).device.mem = Memory.write p.device.mem p.device.adp.toNat v := by
  cases c with
  | statusRead s =>
    left
    simp only [Peer.after, Peer.afterStatusRead]
    split
    · rfl
    · split <;> rfl
  | dataRead v =>
    left
    simp only [Peer.after, Peer.afterDataRead]
    split
    · exact dataRead_mem _
    · split <;> rfl
  | dataWrite v =>
    simp only [Peer.after, Peer.afterDataWrite]
    split
    · rename_i ha
      by_cases hw : p.device.auto = .write
      · exact .inr ⟨v, rfl, ha, hw, by simp [RefDevice.dataWrite, hw]⟩
      · left
        simp only [RefDevice.dataWrite]
        split <;> simp_all
    · exact .inl rfl
  | commandWrite op =>
    left
    simp only [Peer.after, Peer.afterCommandWrite]
    split
    · exact commandWrite_mem _ _ _
    · rfl

theorem after_latch (p : Peer) (c : BusCycle) (h : p.device.latch.length ≤ 2) :
    (p.after c).device.latch.length ≤ 2 := by
  cases c with
  | statusRead s =>
    simp only [Peer.after, Peer.afterStatusRead]
    split
    · exact h
    · split <;> exact h
  | dataRead v =>
    simp only [Peer.after, Peer.afterDataRead]
    split
    · simp only [RefDevice.dataRead]
      split <;> exact h
    · split <;> exact h
  | dataWrite v =>
    simp only [Peer.after, Peer.afterDataWrite]
    split
    · simp only [RefDevice.dataWrite]
      split
      · exact h
      · exact length_lastTwo _
      · exact length_lastTwo _
    · exact h
  | commandWrite op =>
    simp only [Peer.after, Peer.afterCommandWrite]
    split
    · simp
    · exact h

/-- No cycle attaches or detaches the device. -/
@[simp] theorem after_attached (p : Peer) (c : BusCycle) : (p.after c).attached = p.attached := by
  cases c with
  | statusRead s =>
    simp only [Peer.after, Peer.afterStatusRead]
    split
    · rfl
    · split <;> rfl
  | dataRead v =>
    simp only [Peer.after, Peer.afterDataRead]
    split
    · rfl
    · split <;> rfl
  | dataWrite v => simp only [Peer.after, Peer.afterDataWrite]; split <;> rfl
  | commandWrite op => simp only [Peer.after, Peer.afterCommandWrite]; split <;> rfl

@[simp] theorem run_attached (b : Bus) (l : List BusCycle) : (b.run l).peer.attached = b.peer.attached := by
  induction l generalizing b with
  | nil => rfl
  | cons c l ih => exact (ih (b.cycle c)).trans (after_attached b.peer c)

/-- The peer's data keep their form under every cycle. -/
theorem peerInv_after (p : Peer) (c : BusCycle)
    (h : Memory.wf p.device.mem = true ∧ p.device.latch.length ≤ 2) :
    Memory.wf (p.after c).device.mem = true ∧ (p.after c).device.latch.length ≤ 2 := by
  refine ⟨?_, after_latch p c h.2⟩
  rcases after_mem p c with e | ⟨v, -, -, -, e⟩
  · rw [e]; exact h.1
  · rw [e]; exact wf_write _ h.1 _ (by have := p.device.adp.isLt; omega) _

theorem peerInv_run (b : Bus) (l : List BusCycle)
    (h : Memory.wf b.peer.device.mem = true ∧ b.peer.device.latch.length ≤ 2) :
    Memory.wf (b.run l).peer.device.mem = true ∧ (b.run l).peer.device.latch.length ≤ 2 := by
  induction l generalizing b with
  | nil => exact h
  | cons c l ih => exact ih _ (peerInv_after _ c h)

end Sys2Proof.Machine
end

