-- ==== Sys2Proof/Laws/Device.lean ====
section
/-! SUPPORT. What the attached reference device does over a list of bus cycles (20_memory.md rule R70): status reads
leave it alone, so its reaction is read off the transfers; a burst of data writes in auto-write mode stores its bytes. -/

namespace Sys2Proof.Machine

@[simp] theorem cycle_attached (b : Bus) (c : BusCycle) : (b.cycle c).peer.attached = b.peer.attached :=
  after_attached b.peer c

/-! ### Status reads leave the device alone -/

@[simp] theorem device_statusRead (p : Peer) (b : Byte) : (p.after (.statusRead b)).device = p.device := by
  simp only [Peer.after, Peer.afterStatusRead]
  split
  · rfl
  · split <;> rfl

/-- The device and its attachment after cycles that move nothing. -/
theorem device_run_idle (b : Bus) (l : List BusCycle) (h : transfers l = []) :
    (b.run l).peer.device = b.peer.device ∧ (b.run l).peer.attached = b.peer.attached := by
  induction l generalizing b with
  | nil => exact ⟨rfl, rfl⟩
  | cons c l ih =>
    cases c with
    | statusRead s =>
      obtain ⟨h1, h2⟩ := ih (b.cycle (.statusRead s)) h
      exact ⟨h1.trans (device_statusRead _ s), h2.trans (after_attached _ (.statusRead s))⟩
    | dataRead v => cases h
    | dataWrite v => cases h
    | commandWrite op => cases h

/-- The first transfer of a list, taken off: only status reads come before it. -/
theorem run_first_transfer (b : Bus) {l rest : List BusCycle} {c : BusCycle} (h : transfers l = c :: rest) :
    ∃ (b' : Bus) (l' : List BusCycle), transfers l' = rest ∧ b'.peer.device = b.peer.device ∧ b'.peer.attached = b.peer.attached ∧
      b.run l = (b'.cycle c).run l' := by
  induction l generalizing b with
  | nil => cases h
  | cons x l ih =>
    by_cases hx : x.isTransfer = true
    · have e : transfers (x :: l) = x :: transfers l := List.filter_cons_of_pos hx
      rw [e] at h
      cases h
      exact ⟨b, l, rfl, rfl, rfl, rfl⟩
    · have e : transfers (x :: l) = transfers l := List.filter_cons_of_neg hx
      rw [e] at h
      obtain ⟨b', l', h1, h2, h3, h4⟩ := ih (b.cycle x) h
      obtain ⟨h5, h6⟩ := device_run_idle b [x] (List.filter_cons_of_neg hx)
      exact ⟨b', l', h1, h2.trans h5, h3.trans h6, h4⟩

/-! ### The reaction to one transfer -/

theorem device_dataWrite {p : Peer} (ha : p.attached = true) (v : Byte) :
    (p.after (.dataWrite v)).device = p.device.dataWrite v := by
  simp [Peer.after, Peer.afterDataWrite, ha]

theorem device_dataRead {p : Peer} (ha : p.attached = true) (v : Byte) :
    (p.after (.dataRead v)).device = p.device.dataRead := by
  simp only [Peer.after, Peer.afterDataRead, Peer.deviceReads, ha, Bool.true_and]
  by_cases hr : p.device.auto = .read
  · simp [hr]
  · have e : p.device.dataRead = p.device := by
      unfold RefDevice.dataRead
      split
      · contradiction
      · rfl
      · rfl
    simp only [beq_iff_eq, hr, if_false, e]
    split <;> rfl

theorem device_commandWrite {p : Peer} (ha : p.attached = true) (op : Byte) :
    (p.after (.commandWrite op)).device =
      p.device.commandWrite op ((latchedAddr p.device.latch).getD (Config.freeLatch p.draws)) := by
  simp [Peer.after, Peer.afterCommandWrite, ha]

/-- A device that is not attached never changes. -/
theorem device_unattached {p : Peer} (ha : p.attached = false) (c : BusCycle) : (p.after c).device = p.device := by
  cases c with
  | statusRead b => exact device_statusRead p b
  | dataRead v =>
    simp only [Peer.after, Peer.afterDataRead, Peer.deviceReads, ha, Bool.false_and, Bool.false_eq_true, if_false]
    split <;> rfl
  | dataWrite v => simp [Peer.after, Peer.afterDataWrite, ha]
  | commandWrite op => simp [Peer.after, Peer.afterCommandWrite, ha]

theorem device_run_unattached (b : Bus) (l : List BusCycle) (ha : b.peer.attached = false) :
    (b.run l).peer.device = b.peer.device := by
  induction l generalizing b with
  | nil => rfl
  | cons c l ih =>
    exact (ih (b.cycle c) ((after_attached _ _).trans ha)).trans (device_unattached ha c)

/-- A display-mode command sets the device's display mode and nothing else. -/
theorem carryOut_displayMode (m : BitVec 4) (a : Addr) (d : RefDevice) :
    RefDevice.carryOut (modeCommand m) a d = { d with dmode := modeCommand m } := by
  have h : ∀ m : BitVec 4, modeCommand m ≠ 0x24 ∧ modeCommand m ≠ 0x40 ∧ modeCommand m ≠ 0x41 ∧
      modeCommand m ≠ 0x42 ∧ modeCommand m ≠ 0x43 ∧ (modeCommand m).extractLsb' 4 4 ≠ 0x8 ∧
      (modeCommand m).extractLsb' 4 4 = 0x9 := by decide
  obtain ⟨h1, h2, h3, h4, h5, h6, h7⟩ := h m
  rw [RefDevice.carryOut, if_neg h1, if_neg h2, if_neg h3, if_neg h4, if_neg h5, if_neg h6, if_pos h7]

/-- One command and no data: the device carries out its case, with some argument. -/
theorem device_command (b : Bus) {l : List BusCycle} {op : Byte} (ht : transfers l = [.commandWrite op])
    (ha : b.peer.attached = true) :
    (b.run l).peer.attached = true ∧ ∃ a, (b.run l).peer.device = b.peer.device.commandWrite op a := by
  obtain ⟨b1, l1, ht1, hd1, ha1, h1⟩ := run_first_transfer b ht
  obtain ⟨h2, h3⟩ := device_run_idle (b1.cycle (.commandWrite op)) l1 ht1
  rw [h1, h2, h3]
  exact ⟨(cycle_attached _ _).trans (ha1.trans ha), _, (device_commandWrite (ha1.trans ha) op).trans (by rw [hd1])⟩

/-! ### A command's two argument bytes -/

theorem latch_two (l : List Byte) (lo hi : Byte) : lastTwo (lastTwo (l ++ [lo]) ++ [hi]) = [lo, hi] := by
  unfold lastTwo
  rcases l.eq_nil_or_concat with rfl | ⟨l, x, rfl⟩
  · rfl
  · simp only [List.concat_eq_append, List.append_assoc, List.length_append, List.length_cons, List.length_nil]
    have e : l.length + (0 + 1 + (0 + 1)) - 2 = l.length := by omega
    simp [e]

/-- An address command on a device that is not in auto-write mode carries out its case with the 16-bit argument, low
byte sent first (R65, R70). -/
theorem device_addrCycles (b : Bus) {l : List BusCycle} {op : Byte} {a : Addr} (ht : transfers l = addrCycles op a)
    (ha : b.peer.attached = true) (hw : b.peer.device.auto ≠ .write) :
    (b.run l).peer.device = { RefDevice.carryOut op a { b.peer.device with
      latch := [a.extractLsb' 0 8, a.extractLsb' 8 8] } with latch := [] } ∧
      (b.run l).peer.attached = true := by
  have hdw : ∀ (d : RefDevice) (v : Byte), d.auto ≠ .write →
      d.dataWrite v = { d with latch := lastTwo (d.latch ++ [v]) } := by
    intro d v h
    unfold RefDevice.dataWrite
    split <;> simp_all
  obtain ⟨b1, l1, ht1, hd1, ha1, h1⟩ := run_first_transfer b ht
  obtain ⟨b2, l2, ht2, hd2, ha2, h2⟩ := run_first_transfer (b1.cycle (.dataWrite (a.extractLsb' 0 8))) ht1
  obtain ⟨b3, l3, ht3, hd3, ha3, h3⟩ := run_first_transfer (b2.cycle (.dataWrite (a.extractLsb' 8 8))) ht2
  have hat1 : b1.peer.attached = true := ha1.trans ha
  have hat2 : b2.peer.attached = true := (ha2.trans (cycle_attached _ _)).trans hat1
  have hat3 : b3.peer.attached = true := (ha3.trans (cycle_attached _ _)).trans hat2
  obtain ⟨hd4, ha4⟩ := device_run_idle (b3.cycle (.commandWrite op)) l3 ht3
  have e2 : b2.peer.device = { b.peer.device with latch := lastTwo (b.peer.device.latch ++ [a.extractLsb' 0 8]) } := by
    rw [hd2]
    refine (device_dataWrite hat1 _).trans ?_
    rw [hd1]
    exact hdw _ _ hw
  have e3 : b3.peer.device = { b.peer.device with latch := [a.extractLsb' 0 8, a.extractLsb' 8 8] } := by
    rw [hd3]
    refine (device_dataWrite hat2 _).trans ?_
    rw [hdw b2.peer.device _ (by rw [e2]; exact hw), e2, latch_two]
  rw [h1, h2, h3, hd4, ha4]
  refine ⟨?_, (after_attached _ _).trans hat3⟩
  refine (device_commandWrite hat3 op).trans ?_
  rw [e3]
  simp [latchedAddr, RefDevice.commandWrite]

/-- A device that would store the next data write is attached and in auto-write mode (R70). -/
def Bus.stores (b : Bus) : Prop := b.peer.attached = true ∧ b.peer.device.auto = .write

/-- Data writes to a device that does not store them reach its latch only. -/
theorem device_latches (b : Bus) {l : List BusCycle} {bytes : List Byte} (ht : transfers l = bytes.map .dataWrite)
    (hw : ¬ b.stores) : ∃ x, (b.run l).peer.device = { b.peer.device with latch := x } := by
  by_cases ha : b.peer.attached = true
  · have hauto : b.peer.device.auto ≠ .write := fun h => hw ⟨ha, h⟩
    induction bytes generalizing b l with
    | nil => exact ⟨_, (device_run_idle b l ht).1⟩
    | cons v bytes ih =>
      obtain ⟨b1, l1, ht1, hd1, ha1, h1⟩ := run_first_transfer b ht
      have e : (b1.cycle (.dataWrite v)).peer.device =
          { b.peer.device with latch := lastTwo (b.peer.device.latch ++ [v]) } := by
        refine (device_dataWrite (ha1.trans ha) v).trans ?_
        rw [hd1]
        unfold RefDevice.dataWrite
        split <;> simp_all
      obtain ⟨x, hx⟩ := ih (b1.cycle (.dataWrite v)) ht1 (fun h => hauto (by rw [← h.2, e]))
        ((cycle_attached _ _).trans (ha1.trans ha)) (by rw [e]; exact hauto)
      exact ⟨x, by rw [h1, hx, e]⟩
  · exact ⟨_, device_run_unattached b l (by simpa using ha)⟩

/-- A part of an address command short of its strobe is data writes alone. -/
theorem addrCycles_part {op : Byte} {a : Addr} {p : List BusCycle} (h : p <+: (addrCycles op a).dropLast) :
    ∃ bytes : List Byte, p = bytes.map .dataWrite := by
  have e : (addrCycles op a).dropLast = [a.extractLsb' 0 8, a.extractLsb' 8 8].map .dataWrite := rfl
  rw [e] at h
  obtain ⟨n, rfl⟩ : ∃ n, p = List.take n ([a.extractLsb' 0 8, a.extractLsb' 8 8].map .dataWrite) :=
    ⟨p.length, List.prefix_iff_eq_take.1 h⟩
  exact ⟨[a.extractLsb' 0 8, a.extractLsb' 8 8].take n, List.map_take.symm⟩

/-! ### Bytes stored in auto-write mode -/

/-- The device after a list of data writes. -/
def RefDevice.storeAll (d : RefDevice) (bytes : List Byte) : RefDevice := bytes.foldl (fun d v => d.dataWrite v) d

theorem device_dataWrites (b : Bus) {l : List BusCycle} {bytes : List Byte}
    (ht : transfers l = bytes.map .dataWrite) (ha : b.peer.attached = true) :
    (b.run l).peer.device = b.peer.device.storeAll bytes ∧ (b.run l).peer.attached = true := by
  induction bytes generalizing b l with
  | nil =>
    obtain ⟨h1, h2⟩ := device_run_idle b l ht
    exact ⟨h1, h2.trans ha⟩
  | cons v bytes ih =>
    obtain ⟨b1, l1, ht1, hd1, ha1, h1⟩ := run_first_transfer b ht
    have hat1 : b1.peer.attached = true := ha1.trans ha
    obtain ⟨h2, h3⟩ := ih (b1.cycle (.dataWrite v)) ht1 ((cycle_attached _ _).trans hat1)
    rw [h1, h2, h3]
    refine ⟨?_, rfl⟩
    have e : (b1.cycle (.dataWrite v)).peer.device = b.peer.device.dataWrite v := by
      rw [← hd1]
      exact device_dataWrite hat1 v
    rw [e]
    rfl

/-- Bytes stored in auto-write mode go to the pointer and the addresses after it, modulo 2^16, and move it on; the
device is otherwise as it was (R70, R177). -/
theorem storeAll_spec (d : RefDevice) (bytes : List Byte) (hw : d.auto = .write) (hm : Memory.wf d.mem = true)
    (hn : bytes.length ≤ 0x10000) :
    (∃ m, d.storeAll bytes = { d with mem := m, adp := d.adp + BitVec.ofNat 16 bytes.length } ∧
      Memory.wf m = true ∧
      (∀ i v, bytes[i]? = some v → Memory.read m (d.adp + BitVec.ofNat 16 i).toNat = v) ∧
      (∀ x, (∀ i, i < bytes.length → x ≠ (d.adp + BitVec.ofNat 16 i).toNat) → Memory.read m x = Memory.read d.mem x)) := by
  induction bytes generalizing d with
  | nil => exact ⟨d.mem, by simp [RefDevice.storeAll], hm, by simp, fun _ _ => rfl⟩
  | cons b bytes ih =>
    have hlen : bytes.length + 1 ≤ 0x10000 := by simpa using hn
    have e : d.dataWrite b = { d with mem := Memory.write d.mem d.adp.toNat b, adp := d.adp + 1 } := by
      simp [RefDevice.dataWrite, hw]
    have hadp := d.adp.isLt
    obtain ⟨m, h1, h2, h3, h4⟩ := ih (d.dataWrite b) (by rw [e]; exact hw)
      (by rw [e]; exact wf_write _ hm _ (by omega) _) (by omega)
    have hs : d.storeAll (b :: bytes) = (d.dataWrite b).storeAll bytes := rfl
    have hi : ∀ i, d.adp + 1 + BitVec.ofNat 16 i = d.adp + BitVec.ofNat 16 (i + 1) := by
      intro i
      rw [BitVec.add_assoc, BitVec.add_comm 1]
      congr 1
      apply BitVec.eq_of_toNat_eq
      simp
    simp only [e] at h1 h3 h4
    simp only [hi] at h1 h3 h4
    have h0 : Memory.read m d.adp.toNat = b := by
      rw [h4 _ ?_, read_write _ hm, if_pos rfl]
      intro i hi' heq
      simp only [BitVec.toNat_add, BitVec.toNat_ofNat] at heq
      omega
    refine ⟨m, by rw [hs, e, h1]; simp, h2, ?_, ?_⟩
    · intro i v hv
      cases i with
      | zero =>
        have : b = v := by simpa using hv
        simpa [this] using h0
      | succ i => exact h3 i v (by simpa using hv)
    · intro x hx
      have hx0 : x ≠ d.adp.toNat := by simpa using hx 0 (by simp)
      rw [h4 x (fun i hi' => hx (i + 1) (by simpa using hi')), read_write _ hm, if_neg hx0]

/-- A write burst up to its exit, or past it, on the attached device (R177, R70). -/
theorem device_burst (b : Bus) {l exit : List BusCycle} {bytes : List Byte}
    (hx : exit = [.commandWrite 0xB2] ∨ exit = [])
    (ht : transfers l = .commandWrite 0xB0 :: bytes.map .dataWrite ++ exit) (ha : b.peer.attached = true)
    (hm : Memory.wf b.peer.device.mem = true) (hn : bytes.length ≤ 0x10000) :
    ∃ m auto, (b.run l).peer.device = { b.peer.device with
        mem := m, adp := b.peer.device.adp + BitVec.ofNat 16 bytes.length, auto := auto, latch := [] } ∧
      (b.run l).peer.attached = true ∧ Memory.wf m = true ∧
      (auto = if exit = [] then .write else .off) ∧
      (∀ i v, bytes[i]? = some v → Memory.read m (b.peer.device.adp + BitVec.ofNat 16 i).toNat = v) ∧
      (∀ x, (∀ i, i < bytes.length → x ≠ (b.peer.device.adp + BitVec.ofNat 16 i).toNat) →
        Memory.read m x = Memory.read b.peer.device.mem x) := by
  have ht' : transfers l = ([.commandWrite 0xB0] ++ bytes.map .dataWrite) ++ exit := ht
  obtain ⟨l12, l3, rfl, h12, h3⟩ := split_transfers ht'
  obtain ⟨l1, l2, rfl, h1, h2⟩ := split_transfers h12
  obtain ⟨a1, x, d1⟩ := device_command b h1 ha
  obtain ⟨d2, a2⟩ := device_dataWrites (b.run l1) h2 a1
  have e1 : b.peer.device.commandWrite 0xB0 x = { b.peer.device with auto := .write, latch := [] } := rfl
  rw [e1] at d1
  obtain ⟨m, hs, hwf, hr, hf⟩ := storeAll_spec (b.run l1).peer.device bytes (by rw [d1]) (by rw [d1]; exact hm) hn
  rw [hs, d1] at d2
  rw [d1] at hr hf
  rw [run_append, run_append]
  rcases hx with rfl | rfl
  · obtain ⟨a3, y, d3⟩ := device_command _ h3 a2
    exact ⟨m, .off, by rw [d3, d2]; rfl, a3, hwf, rfl, hr, hf⟩
  · obtain ⟨d3, a3⟩ := device_run_idle _ l3 h3
    exact ⟨m, .write, by rw [d3, d2], a3.trans a2, hwf, rfl, hr, hf⟩

/-- A clear on a device that does not store its argument bytes (R214, R70): it stores only in its region, and where it
succeeds it has zeroed the region and left the pointer at its end. -/
theorem device_clear (b : Bus) {base : Addr} {len : Nat} {l : List BusCycle} {r : Response}
    (hc : ClearRun base len l r) (hb : base.toNat + len ≤ 0x10000) (hm : Memory.wf b.peer.device.mem = true)
    (hs : ¬ b.stores) :
    (∀ x, (x < base.toNat ∨ base.toNat + len ≤ x) →
      Memory.read (b.run l).peer.device.mem x = Memory.read b.peer.device.mem x) ∧
    (r.code = .ok → ¬ (b.run l).stores ∧ (b.peer.attached = true →
      (b.run l).peer.device.adp = base + BitVec.ofNat 16 len ∧
      ∀ x, base.toNat ≤ x → x < base.toNat + len → Memory.read (b.run l).peer.device.mem x = 0)) := by
  by_cases ha : b.peer.attached = true
  swap
  · rw [device_run_unattached b l (by simpa using ha)]
    exact ⟨fun _ _ => rfl, fun _ => ⟨fun h => ha (by simpa using h.1), fun h => absurd h ha⟩⟩
  have hauto : b.peer.device.auto ≠ .write := fun h => hs ⟨ha, h⟩
  cases hc with
  | addressFailed ht hr =>
    obtain ⟨bytes, hp⟩ := addrCycles_part ht
    obtain ⟨x, hx⟩ := device_latches b hp hs
    rw [hx, hr]
    exact ⟨fun _ _ => rfl, fun h => (nomatch h)⟩
  | empty hl ht hr =>
    have h1 : (b.run l).peer.device = { b.peer.device with adp := base, latch := [] } :=
      (device_addrCycles b ht ha hauto).1
    rw [h1]
    refine ⟨fun _ _ => rfl, fun _ => ⟨fun h => hauto (by have := h.2; rwa [h1] at this), fun _ => ⟨by simp [hl], ?_⟩⟩⟩
    intro x hx hx'
    omega
  | burst l1 l2 hl ht hw =>
    subst hl
    rw [run_append]
    obtain ⟨h1, a1⟩ := device_addrCycles b ht ha hauto
    have e1 : (b.run l1).peer.device = { b.peer.device with adp := base, latch := [] } := h1
    cases hw with
    | entryFailed ht2 hr =>
      rw [(device_run_idle (b.run l1) l2 ht2).1, e1, hr]
      exact ⟨fun _ _ => rfl, fun h => (nomatch h)⟩
    | moved k exit hk ht2 hx hr hc =>
      have hk : k ≤ len := by simpa [zeros] using hk
      have e2 : ((zeros len).take k).map (fun b => BusCycle.dataWrite (sentByte false b)) =
          (List.replicate k (0 : Byte)).map .dataWrite := by
        simp [zeros, List.take_replicate, sentByte, Nat.min_eq_left hk]
      rw [e2] at ht2
      obtain ⟨m, auto, hd, -, -, hauto', hst, hfr⟩ := device_burst (b.run l1) (hx.imp id And.left) ht2 a1
        (by rw [e1]; exact hm) (by simp only [List.length_replicate]; omega)
      rw [e1] at hd hst hfr
      simp only [List.length_replicate] at hd hfr hst
      have hidx : ∀ i, i < len → (base + BitVec.ofNat 16 i).toNat = base.toNat + i := by
        intro i hi
        simp only [BitVec.toNat_add, BitVec.toNat_ofNat]
        omega
      rw [hd]
      refine ⟨fun x hx => hfr x (fun i hi => by rw [hidx i (by omega)]; omega), fun hok => ?_⟩
      rcases hc with ⟨-, hkl, hex⟩ | ⟨hc, -⟩
      · have hkl : k = len := by simpa [zeros] using hkl
        subst hkl
        have hoff : auto = .off := by simp [hauto', hex]
        refine ⟨fun h => ?_, fun _ => ⟨rfl, fun x hx hx' => ?_⟩⟩
        · have := h.2
          rw [hd] at this
          simp [hoff] at this
        · have e : (base + BitVec.ofNat 16 (x - base.toNat)).toNat = x := by
            rw [hidx (x - base.toNat) (by omega)]
            omega
          rw [← e]
          exact hst _ 0 (List.getElem?_replicate_of_lt (by omega))
      · rw [hc] at hok
        cases hok

end Sys2Proof.Machine
end

