-- ==== Sys2Proof/Laws/Requests.lean ====
section
/-! SUPPORT. What `answer` and `runCommand` leave, once their body is known: the whole next state. -/

namespace Sys2Proof.Machine

theorem acquire_did {s t : State} {regs : Regs} {l : List BusCycle} (h : Did s.acquire t regs l) :
    t.params = s.params ∧ t.regs = regs ∧ t.port = s.port ∧ t.bus = s.bus.run l :=
  ⟨h.params, h.regs, h.port, h.bus⟩

/-- A request whose rule leaves `regs` after the cycles `l` leaves that, its response, and nothing else (R250). -/
theorem answer_did {body : State → State × Response} {s : State} {regs : Regs} {l : List BusCycle}
    (h : Did s.acquire (body s.acquire).1 regs l) :
    answer body s = .next (s.done regs l (body s.acquire).2) := by
  obtain ⟨h1, h2, h3, h4⟩ := acquire_did h
  unfold answer State.done State.respond State.release
  rw [h1, h2, h3, h4]

/-- A command given to the mux by itself leaves its cycles, its result, and no register changed (R166). -/
theorem runCommand_ran {a : Action} {s : State} {l : List BusCycle} (h : Ran s.acquire (a s.acquire).1 l) :
    runCommand a s = .next (s.commandDone l (a s.acquire).2) := by
  obtain ⟨h1, h2, h3, h4⟩ := acquire_did h.did
  unfold runCommand State.commandDone State.release
  simp only [h1, h2, h3, h4, acquire_regs]

theorem whenReady_ready {body : State → State × Response} {s : State} (h : s.regs.life = .ready) :
    whenReady body s.acquire = body s.acquire := by
  simp [whenReady, h]

theorem whenReady_not {body : State → State × Response} {s : State} (h : s.regs.life ≠ .ready) :
    whenReady body s.acquire = (s.acquire, Response.plain .notReady) := by
  simp [whenReady, h]

/-- R250: a request that needs `Ready` and does not meet it is answered `NotReady`, with nothing else done. -/
theorem answer_notReady {body : State → State × Response} {s : State} (h : s.regs.life ≠ .ready) :
    answer (whenReady body) s = .next (s.done s.regs [] (Response.plain .notReady)) := by
  have e := whenReady_not (body := body) h
  rw [answer_did (body := whenReady body) (regs := s.regs) (l := []) (by rw [e]; exact ⟨rfl, rfl, rfl, rfl⟩), e]

theorem answer_ready {body : State → State × Response} {s : State} {regs : Regs} {l : List BusCycle}
    (h : s.regs.life = .ready) (hd : Did s.acquire (body s.acquire).1 regs l) :
    answer (whenReady body) s = .next (s.done regs l (body s.acquire).2) := by
  have e := whenReady_ready (body := body) h
  rw [answer_did (body := whenReady body) (by rw [e]; exact hd), e]

theorem ready_acquire {s : State} (h : ReadyOracle s) : ReadyOracle s.acquire := h

/-- A plain request by a step under `READY`. -/
theorem answer_plain_ready {a : Action} {f : Regs → Regs} {w : Regs → List BusCycle} {s : State}
    (hr : s.regs.life = .ready) (h : ReadyOracle s) (ha : ReadySpec a f w) :
    answer (whenReady (plainResult a)) s =
      .next (s.done (f s.regs) (readyCycles (w s.regs)) (Response.plain .ok)) := by
  obtain ⟨hd, hc⟩ := ha s.acquire h
  rw [answer_ready (body := plainResult a) hr hd]
  simp [plainResult, hc]

/-- A plain request by a step, whatever the peer answers. -/
theorem answer_plain {a : Action} {f : Regs → Regs} {w : Regs → List BusCycle} {k : Regs → Regs → Prop}
    {s : State} (hr : s.regs.life = .ready) (ha : Spec a f w k) :
    ∃ l regs c, answer (whenReady (plainResult a)) s = .next (s.done regs l (Response.plain c)) ∧
      OnlyEmitted l ∧
      ((c = .ok ∧ regs = f s.regs ∧ transfers l = w s.regs) ∨
        (c = .handshakeTimeout ∧ k s.regs regs ∧ Stopped (w s.regs) l)) := by
  obtain ⟨l, regs, hd, he, hc⟩ := ha s.acquire
  exact ⟨l, regs, (a s.acquire).2, answer_ready (body := plainResult a) hr hd, he, hc⟩

end Sys2Proof.Machine
end

