-- ==== Sys2Proof/Laws/Exec.lean ====
section
/-! SUPPORT. What `exec` of any instruction leaves, and the ways a step can go. -/

namespace Sys2Proof.Machine

/-! ### Requests -/

theorem burstRead_ran (n : Nat) (s : State) : ∃ l, Ran s (burstRead n s).1 l ∧ OnlyEmitted l := by
  by_cases hn : n = 0
  · exact ⟨[], hn ▸ Ran.refl s, onlyEmitted_nil⟩
  obtain ⟨l, hr, hw⟩ := burstRead_spec n s hn
  refine ⟨l, hr, onlyEmitted_of_transfers ?_⟩
  cases hw with
  | entryFailed ht hr => rw [ht]; exact onlyEmitted_nil
  | moved exit hk ht hx hr hc =>
    rw [ht]
    intro op hm
    rcases hx with rfl | ⟨rfl, -⟩ <;>
      simp only [List.mem_append, List.mem_cons, BusCycle.commandWrite.injEq, List.mem_map, reduceCtorEq,
        and_false, exists_false, or_false, List.not_mem_nil] at hm
    · rcases hm with rfl | rfl <;> decide
    · rw [hm]; decide

theorem resetEngine_did (rows cols : Byte) (s : State) :
    ∃ l regs, Did s (resetEngine rows cols s).1 regs l ∧ OnlyEmitted l := by
  by_cases h : ResetValid s.params rows cols
  · obtain ⟨l, regs, hd, he, -⟩ := resetEngine_spec h
    exact ⟨l, regs, hd, he⟩
  · rw [resetEngine_invalid h]
    exact ⟨[], _, ⟨rfl, rfl, rfl, rfl⟩, onlyEmitted_nil⟩

theorem openBody_did (s : State) : ∃ l regs, Did s (openBody s).1 regs l ∧ OnlyEmitted l := by
  unfold openBody
  split
  · exact ⟨[], _, ⟨rfl, rfl, rfl, rfl⟩, onlyEmitted_nil⟩
  · obtain ⟨l, regs, hd, he⟩ := resetEngine_did s.params.cfgRows s.params.cfgCols s
    rcases hr : resetEngine s.params.cfgRows s.params.cfgCols s with ⟨t, c⟩
    rw [hr] at hd
    cases c <;> exact ⟨l, regs, hd, he⟩

theorem setBaseAddress_did (r : Region) (a : Addr) (s : State) :
    ∃ l regs, Did s (setBaseAddress r a s).1 regs l ∧ OnlyEmitted l := by
  unfold setBaseAddress
  split
  · obtain ⟨l, regs, hd, he, -⟩ := spec_setBase r a s
    exact ⟨l, regs, hd, he⟩
  · exact ⟨[], _, ⟨rfl, rfl, rfl, rfl⟩, onlyEmitted_nil⟩

theorem Spec.did {a : Action} {f : Regs → Regs} {w : Regs → List BusCycle} {k : Regs → Regs → Prop}
    (h : Spec a f w k) (s : State) : ∃ l regs, Did s (a s).1 regs l ∧ OnlyEmitted l := by
  obtain ⟨l, regs, hd, he, -⟩ := h s
  exact ⟨l, regs, hd, he⟩

theorem answer_done {body : State → State × Response} {s : State}
    (h : ∀ t, ∃ l regs, Did t (body t).1 regs l ∧ OnlyEmitted l) :
    ∃ regs l r, answer body s = .next (s.done regs l r) ∧ OnlyEmitted l := by
  obtain ⟨l, regs, hd, he⟩ := h s.acquire
  exact ⟨regs, l, _, answer_did hd, he⟩

theorem whenReady_did {body : State → State × Response}
    (h : ∀ t, ∃ l regs, Did t (body t).1 regs l ∧ OnlyEmitted l) (t : State) :
    ∃ l regs, Did t (whenReady body t).1 regs l ∧ OnlyEmitted l := by
  unfold whenReady
  split
  · exact h t
  · exact ⟨[], _, ⟨rfl, rfl, rfl, rfl⟩, onlyEmitted_nil⟩

/-- A well-formed host request is done with one response, its bus cycles strobing only the engine's command bytes. -/
theorem exec_request (i : Instr) (s : State) (hi : isRequest i = true) (hw : WellFormed i = true) :
    ∃ regs l r, exec i s = .next (s.done regs l r) ∧ OnlyEmitted l := by
  cases i with
  | openReq => exact answer_done openBody_did
  | write n payload =>
    have hl : payload.length = n.toNat := by simpa [WellFormed] using hw
    obtain ⟨regs, l, r, h⟩ := answer_done (s := s) (whenReady_did (body := writeRule payload) (fun t => by
      obtain ⟨l, hr, he, -⟩ := burstWrite_code payload (t.regs.entryMode == .text) t
      exact ⟨l, _, hr.did, he⟩))
    exact ⟨regs, l, r, by rw [← h.1]; simp only [exec, execWrite, if_pos hl], h.2⟩
  | read n =>
    exact answer_done (whenReady_did (fun t => by
      obtain ⟨l, hr, he⟩ := burstRead_ran n.toNat t
      exact ⟨l, _, hr.did, he⟩))
  | ctrlReset rows cols => exact answer_done (resetEngine_did rows cols)
  | ctrlSetEntry m => exact answer_done (whenReady_did (spec_writing (Regs.setEntry m) (fun _ _ => True)).did)
  | ctrlSetAdp a => exact answer_done (whenReady_did (spec_setAddressPointer a).did)
  | ctrlSetFlag f on => exact answer_done (whenReady_did (spec_setDisplayFlag f on).did)
  | ctrlSetBase r a => exact answer_done (whenReady_did (setBaseAddress_did r a))
  | ctrlClear r => exact answer_done (whenReady_did (spec_clearStep r).did)
  | ctrlGetStatus =>
    exact answer_done (whenReady_did (fun t => ⟨[.statusRead t.bus.peer.statusAnswer], _, (ran_cycle _ t).did, by
      simp [OnlyEmitted]⟩))
  | setAdp a => cases hi
  | txtHome a => cases hi
  | txtArea p => cases hi
  | gfxHome a => cases hi
  | gfxArea p => cases hi
  | modeXor => cases hi
  | displayMode m => cases hi
  | autoWrite => cases hi
  | autoRead => cases hi
  | autoReset c => cases hi

/-! ### Bus commands -/

/-- A bus command's byte, data and poll condition (R102, R167 to R176). -/
structure CommandForm where
  op : Byte
  data : CommandData
  cond : PollCond

/-- The form of a bus command, where the instruction is one. -/
def commandForm : Instr → Option CommandForm
  | .setAdp a => some ⟨0x24, .addr a, .commandReady⟩
  | .txtHome a => some ⟨0x40, .addr a, .commandReady⟩
  | .txtArea p => some ⟨0x41, .addr p, .commandReady⟩
  | .gfxHome a => some ⟨0x42, .addr a, .commandReady⟩
  | .gfxArea p => some ⟨0x43, .addr p, .commandReady⟩
  | .modeXor => some ⟨0x81, .none, .commandReady⟩
  | .displayMode m => some ⟨modeCommand m, .none, .commandReady⟩
  | .autoWrite => some ⟨0xB0, .none, .commandReady⟩
  | .autoRead => some ⟨0xB1, .none, .commandReady⟩
  | .autoReset c => some ⟨0xB2, .none, c⟩
  | .openReq => none
  | .write _ _ => none
  | .read _ => none
  | .ctrlReset _ _ => none
  | .ctrlSetEntry _ => none
  | .ctrlSetAdp _ => none
  | .ctrlSetFlag _ _ => none
  | .ctrlSetBase _ _ => none
  | .ctrlClear _ => none
  | .ctrlGetStatus => none

/-- A bus command is one `sendCommand` of its form. -/
theorem exec_command {i : Instr} (hi : isRequest i = false) :
    ∃ f, commandForm i = some f ∧ f.op ∈ emittedBytes ∧
      commandTransfers i = f.data.bytes.map .dataWrite ++ [.commandWrite f.op] ∧
      ∀ s, exec i s = runCommand (sendCommand f.op f.data f.cond) s := by
  cases i with
  | displayMode m => exact ⟨_, rfl, modeCommand_emitted m, rfl, fun _ => rfl⟩
  | setAdp a => exact ⟨_, rfl, show (0x24 : Byte) ∈ emittedBytes by decide, rfl, fun _ => rfl⟩
  | txtHome a => exact ⟨_, rfl, show (0x40 : Byte) ∈ emittedBytes by decide, rfl, fun _ => rfl⟩
  | txtArea p => exact ⟨_, rfl, show (0x41 : Byte) ∈ emittedBytes by decide, rfl, fun _ => rfl⟩
  | gfxHome a => exact ⟨_, rfl, show (0x42 : Byte) ∈ emittedBytes by decide, rfl, fun _ => rfl⟩
  | gfxArea p => exact ⟨_, rfl, show (0x43 : Byte) ∈ emittedBytes by decide, rfl, fun _ => rfl⟩
  | modeXor => exact ⟨_, rfl, by decide, rfl, fun _ => rfl⟩
  | autoWrite => exact ⟨_, rfl, by decide, rfl, fun _ => rfl⟩
  | autoRead => exact ⟨_, rfl, by decide, rfl, fun _ => rfl⟩
  | autoReset c => exact ⟨_, rfl, show (0xB2 : Byte) ∈ emittedBytes by decide, rfl, fun _ => rfl⟩
  | openReq => cases hi
  | write n payload => cases hi
  | read n => cases hi
  | ctrlReset rows cols => cases hi
  | ctrlSetEntry m => cases hi
  | ctrlSetAdp a => cases hi
  | ctrlSetFlag f on => cases hi
  | ctrlSetBase r a => cases hi
  | ctrlClear r => cases hi
  | ctrlGetStatus => cases hi

/-! ### Steps -/

/-- A request pair decodes to a host request whose payload is as long as it says. -/
theorem isRequest_of_decode {r : Submission} {i : Instr} (h : decode (.request r) = .ok i) :
    isRequest i = true ∧ WellFormed i = true := by
  obtain ⟨w, payload⟩ := r
  obtain ⟨h, hl⟩ := decode_request.1 h
  generalize Fields.ofWord w = f at h hl
  unfold requestOfFields at h
  by_cases h0 : f.op = 0x0
  · rw [if_pos h0] at h
    split at h
    · cases h; exact ⟨rfl, rfl⟩
    · cases h
  rw [if_neg h0] at h
  by_cases h1 : f.op = 0x1
  · rw [if_pos h1] at h
    rw [payloadLength, if_pos h1] at hl
    split at h
    · cases h; exact ⟨rfl, by simpa [WellFormed] using hl⟩
    · cases h
  rw [if_neg h1] at h
  by_cases h2 : f.op = 0x2
  · rw [if_pos h2] at h
    split at h
    · cases h; exact ⟨rfl, rfl⟩
    · cases h
  rw [if_neg h2] at h
  by_cases h3 : f.op = 0x3
  · rw [if_pos h3, controlOfFields] at h
    split at h
    · split at h
      · cases h; exact ⟨rfl, rfl⟩
      · cases h
    split at h
    · split at h
      · obtain ⟨m, -, rfl⟩ := Option.map_eq_some_iff.1 h; exact ⟨rfl, rfl⟩
      · cases h
    split at h
    · split at h
      · cases h; exact ⟨rfl, rfl⟩
      · cases h
    split at h
    · split at h
      · unfold flagOfSel at h
        split at h
        · cases h; exact ⟨rfl, rfl⟩
        · cases h
      · cases h
    split at h
    · obtain ⟨m, -, rfl⟩ := Option.map_eq_some_iff.1 h; exact ⟨rfl, rfl⟩
    split at h
    · split at h
      · obtain ⟨m, -, rfl⟩ := Option.map_eq_some_iff.1 h; exact ⟨rfl, rfl⟩
      · cases h
    split at h
    · split at h
      · cases h; exact ⟨rfl, rfl⟩
      · cases h
    · cases h
  · rw [if_neg h3] at h; cases h

/-- A command frame decodes to a bus command. -/
theorem isCommand_of_decode {c : BusFrame} {i : Instr} (h : decode (.command c) = .ok i) :
    isRequest i = false := by
  rcases decodeCommand_cases h with h | h | h | h | h | h | h | h | h | h
  iterate 5
    obtain ⟨a, rfl, -⟩ := addrForm_ok.1 h.2
    rfl
  iterate 4
    obtain ⟨rfl, -⟩ := plainForm_ok.1 h.2
    rfl
  rw [h.2.2]
  rfl

/-- The ways a step that goes on can go: nothing to do; a host request run; a bus command run; an unsupported word
answered; a malformed pair refused. -/
theorem step_cases {s t : State} (h : step s = .next t) :
    t = s ∨
    (∃ i r p, s.ctl.lock = false ∧ s.port.mux = none ∧ s.port.take = some (r, p) ∧ decode (.request r) = .ok i ∧
      exec i { s with port := p } = .next t) ∨
    (∃ i c, s.ctl.lock = false ∧ s.port.mux = some c ∧ decode (.command c) = .ok i ∧
      exec i { s with port := { s.port with mux := none } } = .next t) ∨
    (∃ r p, s.ctl.lock = false ∧ s.port.mux = none ∧ s.port.take = some (r, p) ∧
      (t = ({ s with port := p } : State).done s.regs [] (Response.plain .unsupportedOperation) ∨
        t = refusePair { s with port := p })) := by
  unfold step nextWork at h
  by_cases hl : s.ctl.lock = true
  · rw [if_pos hl] at h; cases h; exact .inl rfl
  rw [if_neg hl] at h
  have hl' : s.ctl.lock = false := by simpa using hl
  rcases hm : s.port.mux with _ | c
  · rw [hm] at h
    rcases ht : s.port.take with _ | ⟨r, p⟩
    · rw [ht] at h; cases h; exact .inl rfl
    rw [ht] at h
    simp only [workOfRequest] at h
    rcases hd : decode (.request r) with e | i
    · rw [hd] at h
      cases e <;> cases h
      · exact .inr (.inr (.inr ⟨r, p, hl', rfl, rfl, .inl rfl⟩))
      · exact .inr (.inr (.inr ⟨r, p, hl', rfl, rfl, .inr rfl⟩))
      · exact .inr (.inr (.inr ⟨r, p, hl', rfl, rfl, .inl rfl⟩))
      · exact .inr (.inr (.inr ⟨r, p, hl', rfl, rfl, .inl rfl⟩))
    · rw [hd] at h
      exact .inr (.inl ⟨i, r, p, hl', rfl, rfl, hd, h⟩)
  · rw [hm] at h
    simp only [workOfCommand] at h
    rcases hd : decode (.command c) with e | i
    · rw [hd] at h
      cases h
    · rw [hd] at h
      exact .inr (.inr (.inl ⟨i, c, hl', rfl, hd, h⟩))

end Sys2Proof.Machine
end

