-- ==== Sys2Proof/Laws/PerInstr.lean ====
section
/-! SUPPORT. Statements about every instruction, one lemma per constructor: the word or command byte an instruction
is spelled with meets its row of spec/opcode_table.json (30_encoding.md rules R96 and R102). -/

namespace Sys2Proof.Laws.EncodesItsRow

/-- The word or command byte of the instruction's spelling meets its row. -/
def Statement (i : Instr) : Prop := i.row.Meets (encode i).bits

/-- A word of fields meets a row whose mask and match are words of fields, where each field does. -/
theorem meets_of_fields {row : Row} {f g h : Fields} (hm : row.mask = g.toWord) (hp : row.pattern = h.toWord)
    (e : Fields.mk (f.op &&& g.op) (f.cmd &&& g.cmd) (f.sel &&& g.sel) (f.arg &&& g.arg) = h) :
    row.Meets f.toWord := by
  rw [Row.Meets, hm, hp, toWord_and, e]

theorem openReq : Statement .openReq := by unfold Statement; decide

theorem write (n : BitVec 16) (payload : List Byte) : Statement (.write n payload) :=
  meets_of_fields (f := ⟨0x1, 0x0, 0, n⟩) (g := ⟨0xF, 0xF, 0xFF, 0⟩) (h := ⟨0x1, 0x0, 0, 0⟩)
    rfl rfl (by simp)

theorem read (n : BitVec 16) : Statement (.read n) :=
  meets_of_fields (f := ⟨0x2, 0x0, 0, n⟩) (g := ⟨0xF, 0xF, 0xFF, 0⟩) (h := ⟨0x2, 0x0, 0, 0⟩)
    rfl rfl (by simp)

theorem ctrlReset (rows cols : Byte) : Statement (.ctrlReset rows cols) :=
  meets_of_fields (f := ⟨0x3, 0x0, 0, rows ++ cols⟩) (g := ⟨0xF, 0xF, 0xFF, 0⟩) (h := ⟨0x3, 0x0, 0, 0⟩)
    rfl rfl (by simp)

theorem ctrlSetEntry (m : EntryMode) : Statement (.ctrlSetEntry m) := by unfold Statement; cases m <;> decide

theorem ctrlSetAdp (a : Addr) : Statement (.ctrlSetAdp a) :=
  meets_of_fields (f := ⟨0x3, 0x2, 0, a⟩) (g := ⟨0xF, 0xF, 0xFF, 0⟩) (h := ⟨0x3, 0x2, 0, 0⟩)
    rfl rfl (by simp)

theorem ctrlSetFlag (f : Flag) (on : Bool) : Statement (.ctrlSetFlag f on) := by
  unfold Statement; cases f <;> cases on <;> decide

theorem ctrlSetBase (r : Region) (a : Addr) : Statement (.ctrlSetBase r a) :=
  meets_of_fields (f := ⟨0x3, 0x4, regionSel r, a⟩) (g := ⟨0xF, 0xF, 0xFE, 0⟩) (h := ⟨0x3, 0x4, 0, 0⟩)
    rfl rfl (by cases r <;> simp [regionSel])

theorem ctrlClear (r : Region) : Statement (.ctrlClear r) := by unfold Statement; cases r <;> decide

theorem ctrlGetStatus : Statement .ctrlGetStatus := by unfold Statement; decide

theorem setAdp (a : Addr) : Statement (.setAdp a) :=
  show (0x24#8).setWidth 32 &&& (0xFF : Word) = 0x24 by decide

theorem txtHome (a : Addr) : Statement (.txtHome a) :=
  show (0x40#8).setWidth 32 &&& (0xFF : Word) = 0x40 by decide

theorem txtArea (p : BitVec 16) : Statement (.txtArea p) :=
  show (0x41#8).setWidth 32 &&& (0xFF : Word) = 0x41 by decide

theorem gfxHome (a : Addr) : Statement (.gfxHome a) :=
  show (0x42#8).setWidth 32 &&& (0xFF : Word) = 0x42 by decide

theorem gfxArea (p : BitVec 16) : Statement (.gfxArea p) :=
  show (0x43#8).setWidth 32 &&& (0xFF : Word) = 0x43 by decide

theorem modeXor : Statement .modeXor := by unfold Statement; decide

theorem displayMode (m : BitVec 4) : Statement (.displayMode m) := by unfold Statement; revert m; decide

theorem autoWrite : Statement .autoWrite := by unfold Statement; decide

theorem autoRead : Statement .autoRead := by unfold Statement; decide

theorem autoReset (cond : PollCond) : Statement (.autoReset cond) := by unfold Statement; cases cond <;> decide

end Sys2Proof.Laws.EncodesItsRow
end

