-- ==== Sys2Proof/Laws/Reset.lean ====
section
/-! SUPPORT. What the strobed commands of a reset say of `DISPLAY_MODE` and `ADP_SHADOW`, whatever the peer answers
(R25, R26, R208, R211, R226). -/

namespace Sys2Proof.Machine

/-! ### The terms of Safety.lean, over the transfers and over lists in a row -/

theorem lastModeCommand_transfers (l : List BusCycle) : lastModeCommand (transfers l) = lastModeCommand l := by
  unfold lastModeCommand
  congr 1
  induction l with
  | nil => rfl
  | cons c l ih => cases c <;> simp_all [List.filterMap_cons]

theorem count_transfers (op : Byte) (l : List BusCycle) :
    (transfers l).count (.commandWrite op) = l.count (.commandWrite op) := by
  induction l with
  | nil => rfl
  | cons c l ih => cases c <;> simp_all [List.count_cons]

/-- No mode command was strobed. -/
theorem lastModeCommand_none {l : List BusCycle} (h : ∀ op, .commandWrite op ∈ l → op.extractLsb' 4 4 ≠ 0x9) :
    lastModeCommand l = none := by
  rw [lastModeCommand, List.getLast?_eq_none_iff, List.filterMap_eq_nil_iff]
  intro c hc
  cases c with
  | commandWrite op => exact if_neg (h op hc)
  | statusRead b => rfl
  | dataRead v => rfl
  | dataWrite v => rfl

theorem lastModeCommand_append (l l' : List BusCycle) :
    lastModeCommand (l ++ l') = (lastModeCommand l').or (lastModeCommand l) := by
  simp [lastModeCommand, List.filterMap_append, List.getLast?_append]

theorem ModeAfter.trans {r r' r'' : Regs} {l l' : List BusCycle} (h : ModeAfter r l r') (h' : ModeAfter r' l' r'') :
    ModeAfter r (l ++ l') r'' := by
  unfold ModeAfter at *
  rw [lastModeCommand_append]
  cases e : lastModeCommand l <;> cases e' : lastModeCommand l' <;> simp_all

/-- The second list of addresses comes after the first has been set whole. -/
theorem ShadowAfter.trans {as bs : List Addr} {r r' r'' : Regs} {l l' : List BusCycle} (h : ShadowAfter as r l r')
    (hl : l.count (.commandWrite 0x24) = as.length) (h' : ShadowAfter bs r' l' r'') :
    ShadowAfter (as ++ bs) r (l ++ l') r'' := by
  unfold ShadowAfter at *
  rw [hl, List.take_length] at h
  rw [List.count_append, hl, List.take_length_add_append, List.getLast?_append]
  refine ⟨by simpa using h'.1, ?_⟩
  have h2 := h'.2
  have h1 := h.2
  clear h h' hl
  generalize as.getLast? = x at h1 ⊢
  generalize (bs.take (l'.count (.commandWrite 0x24))).getLast? = y at h2 ⊢
  cases x <;> cases y <;> simp_all

/-- The second list of addresses is not reached. -/
theorem ShadowAfter.weaken {as : List Addr} {r r' : Regs} {l : List BusCycle} (h : ShadowAfter as r l r')
    (bs : List Addr) : ShadowAfter (as ++ bs) r l r' := by
  refine ⟨h.1.trans (by simp), ?_⟩
  rw [List.take_append_of_le_length h.1]
  exact h.2

/-- No address-set was strobed. -/
theorem shadowAfter_none {as : List Addr} {r r' : Regs} {l : List BusCycle} (hl : l.count (.commandWrite 0x24) = 0)
    (h : r'.adpShadow = r.adpShadow) (h' : r'.adpShadowHeld = r.adpShadowHeld) : ShadowAfter as r l r' := by
  unfold ShadowAfter
  rw [hl]
  exact ⟨Nat.zero_le _, h, h'⟩

/-! ### Steps -/

/-- A step that meets the bases `tb` and `gb` keeps them; `DISPLAY_MODE` and `ADP_SHADOW` follow the commands it
strobes, its address-sets being of `as` in order; and where it succeeds it has set all of `as`. -/
def Follows (tb gb : Addr) (as : List Addr) (a : Action) : Prop :=
  ∀ s, s.regs.textBase = tb → s.regs.gfxBase = gb → ∃ l regs, Did s (a s).1 regs l ∧
    regs.textBase = tb ∧ regs.gfxBase = gb ∧ ModeAfter s.regs l regs ∧ ShadowAfter as s.regs l regs ∧
    ((a s).2 = .ok → l.count (.commandWrite 0x24) = as.length)

theorem Follows.andThen {tb gb : Addr} {as bs : List Addr} {a b : Action} (ha : Follows tb gb as a)
    (hb : Follows tb gb bs b) : Follows tb gb (as ++ bs) (Action.andThen a b) := by
  intro s h1 h2
  obtain ⟨l, regs, hd, ht, hg, hm, hs, hc⟩ := ha s h1 h2
  by_cases hok : (a s).2 = .ok
  · obtain ⟨l', regs', hd', ht', hg', hm', hs', hc'⟩ := hb (a s).1 (by rw [hd.regs, ht]) (by rw [hd.regs, hg])
    rw [hd.regs] at hm' hs'
    rw [andThen_ok hok]
    exact ⟨l ++ l', regs', hd.trans hd', ht', hg', hm.trans hm', hs.trans (hc hok) hs', fun h => by
      rw [List.count_append, hc hok, hc' h, List.length_append]⟩
  · rw [andThen_err hok]
    exact ⟨l, regs, hd, ht, hg, hm, hs.weaken bs, fun h => absurd h hok⟩

/-- A command that is neither a mode command nor an address-set leaves both registers. -/
theorem follows_sendCommand (tb gb : Addr) (op : Byte) (data : CommandData) (hm : op.extractLsb' 4 4 ≠ 0x9)
    (hs : op ≠ 0x24) : Follows tb gb [] (sendCommand op data .commandReady) := by
  intro s h1 h2
  obtain ⟨l, hr, ht⟩ := sendCommand_spec op data .commandReady s
  have hsub : transfers l <+: data.bytes.map .dataWrite ++ [.commandWrite op] := by
    rcases sendCommand_code op data .commandReady s with e | e <;> rw [e] at ht
    · exact ht ▸ List.prefix_refl _
    · exact ht.trans (List.dropLast_prefix _)
  have hmem : ∀ op', .commandWrite op' ∈ transfers l → op' = op := fun op' h => by simpa using hsub.subset h
  have hcount : l.count (.commandWrite 0x24) = 0 := by
    rw [← count_transfers, List.count_eq_zero]
    exact fun h => hs (hmem _ h).symm
  have hlast : lastModeCommand l = none := by
    rw [← lastModeCommand_transfers]
    exact lastModeCommand_none (fun op' h => hmem op' h ▸ hm)
  exact ⟨l, s.regs, hr.did, h1, h2, by simp [ModeAfter, hlast], shadowAfter_none hcount rfl rfl,
    fun _ => hcount⟩

/-- `setMode` (R208): the command carries the new value, and on a timeout the old one is restored and no command was
strobed. -/
theorem follows_setMode (tb gb : Addr) (m : Byte) : Follows tb gb [] (setMode m) := by
  intro s h1 h2
  obtain ⟨l, regs, hd, -, hc⟩ := spec_setMode m s
  have key : ∀ w, w = [BusCycle.commandWrite (modeCommand (m.extractLsb' 0 4))] → ∀ p, p <+: w → p.length < w.length →
      p = [] := by
    rintro w rfl p - hn
    exact List.length_eq_zero_iff.1 (by simpa using hn)
  rcases hc with ⟨hok, rfl, ht⟩ | ⟨herr, rfl, p, hp, hn, ht⟩
  · have hne : (0x24 : Byte) ≠ modeCommand (m.extractLsb' 0 4) := by
      generalize m.extractLsb' 0 4 = x
      revert x; decide
    have hcount : l.count (.commandWrite 0x24) = 0 := by
      rw [← count_transfers, ht, List.count_eq_zero]
      simpa using hne
    refine ⟨l, _, hd, h1, h2, ?_, shadowAfter_none hcount rfl rfl, fun _ => hcount⟩
    have h9 : (modeCommand (m.extractLsb' 0 4)).extractLsb' 4 4 = 0x9 := by
      generalize m.extractLsb' 0 4 = x
      revert x; decide
    have hb : ∀ m : Byte, modeByte m = modeCommand (m.extractLsb' 0 4) &&& 0x0F := by decide
    rw [ModeAfter, ← lastModeCommand_transfers, ht]
    simp [lastModeCommand, h9, Regs.setMode, hb m]
  · have hp0 := key _ rfl p hp hn
    have ht0 : transfers l = [] := by
      rcases ht with h | ⟨⟨q, ds, h⟩, -⟩
      · rw [h, hp0]
      · rw [hp0] at h; simp at h
    have hcount : l.count (.commandWrite 0x24) = 0 := by rw [← count_transfers, ht0]; rfl
    refine ⟨l, s.regs, hd, h1, h2, ?_, shadowAfter_none hcount rfl rfl, fun _ => hcount⟩
    rw [ModeAfter, ← lastModeCommand_transfers, ht0]
    simp [lastModeCommand]

/-- A write burst strobes its entry and its exit, and nothing else (R180). -/
theorem writeBurst_strobes {bytes : List Byte} {text : Bool} {l : List BusCycle} {r : Response}
    (h : WriteBurst bytes text l r) (op : Byte) (hm : .commandWrite op ∈ transfers l) : op = 0xB0 ∨ op = 0xB2 := by
  cases h with
  | entryFailed ht hr => rw [ht] at hm; cases hm
  | moved k exit hk ht hx hr hc =>
    rw [ht] at hm
    rcases hx with rfl | ⟨rfl, -⟩ <;>
      simp only [List.mem_append, List.mem_cons, BusCycle.commandWrite.injEq, List.mem_map, reduceCtorEq,
        and_false, exists_false, or_false, List.not_mem_nil] at hm
    · exact hm
    · exact .inl hm

/-- A clear (R214) sets the pointer to its region's base, and `ADP_SHADOW` with it once the command was strobed. -/
theorem follows_clearStep (tb gb : Addr) (region : Region) :
    Follows tb gb [match region with | .text => tb | .graphics => gb] (clearStep region) := by
  intro s h1 h2
  have hbase : regionBase s.regs region = match region with | .text => tb | .graphics => gb := by
    cases region <;> simp [regionBase, h1, h2]
  obtain ⟨l, regs, hd, hrun, hc⟩ := clearRegion_spec region s
  have e1 : (clearStep region s).1 = (clearRegion region s).1 := rfl
  have e2 : (clearStep region s).2 = (clearRegion region s).2.code := rfl
  have hlast : lastModeCommand l = none := by
    rw [← lastModeCommand_transfers]
    apply lastModeCommand_none
    have hset : ∀ op, .commandWrite op ∈ addrCycles 0x24 (regionBase s.regs region) → op.extractLsb' 4 4 ≠ 0x9 := by
      intro op h
      simp only [addrCycles, List.mem_cons, reduceCtorEq, BusCycle.commandWrite.injEq, List.not_mem_nil, false_or,
        or_false] at h
      rw [h]
      decide
    intro op h
    cases hrun with
    | addressFailed ht hr => exact hset op (List.dropLast_subset _ (ht.subset h))
    | empty hl ht hr => exact hset op (ht ▸ h)
    | burst l1 l2 hl ht hw =>
      rw [hl, transfers_append, ht, List.mem_append] at h
      rcases h with h | h
      · exact hset op h
      · rcases writeBurst_strobes hw op h with rfl | rfl <;> decide
  have hmode : ∀ regs' : Regs, regs'.displayMode = s.regs.displayMode →
      regs'.displayModeHeld = s.regs.displayModeHeld → ModeAfter s.regs l regs' := by
    intro regs' ha hb
    rw [ModeAfter, hlast]
    exact ⟨ha, hb⟩
  rw [e1, e2]
  rcases hc with ⟨rfl, hr, hno⟩ | ⟨rfl, hmem⟩
  · have hcount : l.count (.commandWrite 0x24) = 0 := List.count_eq_zero.2 (hno _)
    exact ⟨l, s.regs, hd, h1, h2, hmode _ rfl rfl, shadowAfter_none hcount rfl rfl, fun h => by rw [hr] at h; cases h⟩
  · have hone : l.count (.commandWrite 0x24) = 1 := by
      rw [← count_transfers]
      cases hrun with
      | addressFailed ht hr =>
        have := ht.subset (List.mem_filter.2 ⟨hmem, rfl⟩)
        simp [addrCycles] at this
      | empty hl ht hr => rw [ht]; simp [addrCycles]
      | burst l1 l2 hl ht hw =>
        have hz : (transfers l2).count (.commandWrite 0x24) = 0 :=
          List.count_eq_zero.2 (fun h => by rcases writeBurst_strobes hw _ h with h | h <;> revert h <;> decide)
        rw [hl, transfers_append, List.count_append, ht, hz]
        simp [addrCycles]
    refine ⟨l, _, hd, ?_, ?_, hmode _ rfl rfl, ?_, fun _ => hone⟩
    · exact h1
    · exact h2
    · rw [ShadowAfter, hone]
      simp [Regs.setShadow, hbase]

/-! ### The reset -/

theorem follows_resetSteps (tb gb rw c : BitVec 16) :
    Follows tb gb [tb, gb]
      (inOrder ((describedReset gb rw tb c).map Described.act)) := by
  have hnil : Follows tb gb [] (inOrder []) := fun s h1 h2 =>
    ⟨[], s.regs, ⟨rfl, rfl, rfl, rfl⟩, h1, h2, ⟨rfl, rfl⟩, ⟨by simp, rfl, rfl⟩, fun _ => rfl⟩
  have hflag : ∀ f on, Follows tb gb [] (setDisplayFlag f on) := fun f on s h1 h2 =>
    follows_setMode tb gb _ s h1 h2
  have hcmd := follows_sendCommand tb gb
  exact (hcmd 0xB2 .none (by decide) (by decide)).andThen <| (follows_setMode tb gb 0x00).andThen <|
    (hcmd 0x42 _ (by decide) (by decide)).andThen <| (hcmd 0x43 _ (by decide) (by decide)).andThen <|
    (hcmd 0x40 _ (by decide) (by decide)).andThen <| (hcmd 0x41 _ (by decide) (by decide)).andThen <|
    (hcmd 0x81 .none (by decide) (by decide)).andThen <| (follows_clearStep tb gb .text).andThen <|
    (follows_clearStep tb gb .graphics).andThen <| (hflag .cursor true).andThen <|
    (hflag .blink false).andThen <| (hflag .text false).andThen <| (hflag .graphics true).andThen hnil

/-- R226, R300: after a reset with a valid layout, whatever the peer answers, `DISPLAY_MODE` and `ADP_SHADOW` are what
the commands strobed say. -/
theorem resetEngine_follows {rows cols : Byte} {s : State} (hv : ResetValid s.params rows cols) :
    ∃ l regs, Did s (resetEngine rows cols s).1 regs l ∧ ModeAfter s.regs l regs ∧
      ShadowAfter [Config.textBase, BitVec.ofNat 16 (gfxBaseOf rows.toNat cols.toNat)] s.regs l regs := by
  rw [resetEngine_valid hv]
  obtain ⟨l, regs, hd, -, -, hm, hs, -⟩ := follows_resetSteps Config.textBase
    (BitVec.ofNat 16 (gfxBaseOf rows.toNat cols.toNat)) (BitVec.ofNat 16 (rowWidthOf cols.toNat)) (cols.setWidth 16)
    (s.commit rows cols) rfl rfl
  have hd' := fun t r (h : Did (s.commit rows cols) t r l) => (⟨h.params, h.regs, h.port, h.bus⟩ : Did s t r l)
  rcases andThen_cases (inOrder ((describedReset (BitVec.ofNat 16 (gfxBaseOf rows.toNat cols.toNat))
      (BitVec.ofNat 16 (rowWidthOf cols.toNat)) Config.textBase (cols.setWidth 16)).map Described.act))
    (writing (Regs.setLife .ready)) (s.commit rows cols) with ⟨-, h⟩ | ⟨-, h⟩
  · rw [h]
    refine ⟨l, Regs.setLife .ready regs, hd' _ _ ⟨hd.params, ?_, hd.port, hd.bus⟩, hm, hs⟩
    simp only [writing, writeRegs_regs]
    rw [hd.regs]
  · rw [h]
    exact ⟨l, regs, hd' _ _ hd, hm, hs⟩

end Sys2Proof.Machine
end

