-- ==== Sys2Proof/Tests/Slice0.lean ====
section
/-! SUPPORT. The model's own tests: expected results are those of spec/95_test_vectors.md, or worked out by hand from
the rule a test names; a retry limit of 3 stands for 255 where the vector uses the limit up. And the witnesses: for
each obligation with hypotheses, a state and operands that meet them. -/

namespace Sys2Proof.Tests

open Sys2Proof.Machine

/-! ### Small states -/

/-- The default parameters but a retry limit of 3, with `CFG = (5, 30)`. -/
def params : Params := ⟨3, ⟨0x10000, by decide⟩, 5, 30, .commandReady⟩

/-- The registers after P1. -/
def regsP1 : Regs where
  life := .ready
  rows := 5
  cols := 30
  rowWidth := 32
  textBase := 0x0002
  gfxBase := 0x00D4
  displayMode := 0x0A
  adpShadow := 0x00D4
  entryMode := .graphics
  layoutHeld := true
  displayModeHeld := true
  adpShadowHeld := true

/-- The reference device after P1. -/
def deviceP1 : RefDevice := ⟨[], 0x0AD4, .off, [], 0x0002, 30, 0x00D4, 32, 0x81, 0x9A⟩

/-- A peer with a script and then a constant status, the reference device attached. -/
def peer (script : List Byte) (const : Byte) : Peer := ⟨script, some const, [], true, deviceP1, 0⟩

/-- The engine after P1, with an empty trace and the oracle given. -/
def afterP1 (script : List Byte) (const : Byte) : State :=
  ⟨params, regsP1, Ctl.idle, ⟨Lines.reset, [], peer script const⟩, Port.reset⟩

/-- The engine at power-on, with the oracle given. -/
def powerOn (script : List Byte) (const : Byte) : State :=
  ⟨params, Regs.reset, Ctl.idle, ⟨Lines.reset, [], peer script const⟩, Port.reset⟩

/-- The state with a request pair pending. -/
def submit (w : Word) (payload : List Byte) (s : State) : State :=
  { s with port := { s.port with pending := [⟨w, payload⟩] } }

/-- The next state of an outcome. -/
def after (o : Host.Outcome State Fault Refusal) : Option State :=
  match o with
  | .next t => some t
  | .fault _ => none
  | .refused _ => none

/-- The trace, the port's events and the registers that a step shows. -/
def shown (s : State) : Option (List BusCycle × List PortEvent × Regs) :=
  (after (step s)).map (fun t => (t.bus.trace, t.port.log, t.regs))

/-- The reference device after a step. -/
def deviceAfter (s : State) : Option RefDevice := (after (step s)).map (fun t => t.bus.peer.device)

/-- A status read under `READY`. -/
abbrev S : BusCycle := .statusRead 0x0F

/-- One answer at the port. -/
abbrev answered (c : Code) (count : BitVec 16) (data : List Byte) : List PortEvent := [.response ⟨c, count, data⟩]

/-! ### Well-formed terms -/

theorem test_wellformed_refuses_short_payload : WellFormed (.write 2 [0x48]) = false := by decide
theorem test_wellformed_refuses_payload_without_length : WellFormed (.write 0 [0x48]) = false := by decide

/-! ### Words written out field by field from R91 to R95 and R102 -/

theorem test_decode_open : decodeTableWord 32 0b00000000000000000000000000000000 = some .openReq := by decide
theorem test_decode_write : decodeTableWord 48 0x494810000002 = some (.write 2 [0x48, 0x49]) := by decide
theorem test_decode_read : decodeTableWord 32 0b00100000000000000000000000000010 = some (.read 2) := by decide
theorem test_decode_reset : decodeTableWord 32 0b00110000000000000000010100011110 = some (.ctrlReset 5 30) := by decide
theorem test_decode_setentry : decodeTableWord 32 0b00110001000000010000000000000000 =
    some (.ctrlSetEntry .graphics) := by decide
theorem test_decode_setadp : decodeTableWord 32 0b00110010000000000001001000110100 =
    some (.ctrlSetAdp 0x1234) := by decide
theorem test_decode_setflag : decodeTableWord 32 0b00110011100000100000000000000000 =
    some (.ctrlSetFlag .text true) := by decide
theorem test_decode_setbase : decodeTableWord 32 0b00110100000000010000000010011000 =
    some (.ctrlSetBase .graphics 0x0098) := by decide
theorem test_decode_clear : decodeTableWord 32 0b00110101000000010000000000000000 =
    some (.ctrlClear .graphics) := by decide
theorem test_decode_getstatus : decodeTableWord 32 0b00110110000000000000000000000000 =
    some .ctrlGetStatus := by decide
theorem test_decode_set_adp : decodeTableWord 24 0b000100100011010000100100 = some (.setAdp 0x1234) := by decide
theorem test_decode_txt_home : decodeTableWord 24 0b000000000000001001000000 = some (.txtHome 0x0002) := by decide
theorem test_decode_txt_area : decodeTableWord 24 0b000000000001111001000001 = some (.txtArea 30) := by decide
theorem test_decode_gfx_home : decodeTableWord 24 0b000000001101010001000010 = some (.gfxHome 0x00D4) := by decide
theorem test_decode_gfx_area : decodeTableWord 24 0b000000010000000001000011 = some (.gfxArea 256) := by decide
theorem test_decode_mode_xor : decodeTableWord 8 0b10000001 = some .modeXor := by decide
theorem test_decode_display_mode : decodeTableWord 8 0b10011010 = some (.displayMode 0xA) := by decide
theorem test_decode_auto_write : decodeTableWord 8 0b10110000 = some .autoWrite := by decide
theorem test_decode_auto_read : decodeTableWord 8 0b10110001 = some .autoRead := by decide
theorem test_decode_auto_reset : decodeTableWord 8 0b10110010 = some (.autoReset .commandReady) := by decide

/-- Reserved words of L2.9 and reserved command bytes. -/
theorem test_decode_reserved : ([0x37000000, 0x40000000, 0x31020000, 0x00000001, 0x33FC0000, 0x36010000].map
    (decodeTableWord 32)).all (· == none) ∧ ([0x00, 0x25, 0x44, 0x80, 0xB3].map (decodeTableWord 8)).all (· == none) := by
  decide

/-- R97: a pair of another length is refused by name. -/
theorem test_decode_malformed_pair : decode (.request ⟨0x10000002, [0x48]⟩) = .error .malformedPair := by decide

/-- R106: a bus cycle in trace notation. -/
theorem test_cycle_text : cycleText (.dataWrite 0xD4) = "D←0xD4".toList := by decide

/-! ### Handshake and primitives (L2.1, L2.2, L2.3, L1.4) -/

theorem test_decode_status : decodeStatus 0x50 = ⟨false, false, false, false, false, false⟩ ∧
    decodeStatus 0xF0 = ⟨false, false, false, false, true, true⟩ := by decide
theorem test_poll_third_read : (pollUntil .commandReady (afterP1 [0x00, 0x01, 0x03] 0x00)).2 = .ok ∧
    (pollUntil .commandReady (afterP1 [0x00, 0x01, 0x03] 0x00)).1.bus.trace =
      [.statusRead 0x00, .statusRead 0x01, .statusRead 0x03] := by decide
theorem test_poll_budget : (pollUntil .autoWriteReady (afterP1 [] 0x03)).2 = .handshakeTimeout ∧
    (pollUntil .autoWriteReady (afterP1 [] 0x03)).1.bus.trace = List.replicate 3 (.statusRead 0x03) := by decide
theorem test_writeByte_never : (writeByte 0x41 (afterP1 [] 0xFD)).2 = .handshakeTimeout ∧
    (writeByte 0x41 (afterP1 [] 0xFD)).1.bus.trace = List.replicate 3 (.statusRead 0xFD) := by decide
theorem test_readByte_draw :
    let s := afterP1 [0x03] 0x00
    let s' := { s with bus := { s.bus with peer := { s.bus.peer with attached := false, dataScript := [0x41] } } }
    (readByte s').2 = (.ok, some 0x41) ∧ (readByte s').1.bus.trace = [.statusRead 0x03, .dataRead 0x41] := by decide
theorem test_sendCommand1 : (sendCommand1 0x24 0x34 (afterP1 [] 0x0F)).1.bus.trace =
    [S, .dataWrite 0x34, S, .commandWrite 0x24] := by decide
theorem test_command_stops_before_strobe :
    (sendCommandAddr 0x24 0x1234 (afterP1 [0x03, 0x03] 0x00)).1.bus.trace =
      [.statusRead 0x03, .dataWrite 0x34, .statusRead 0x03, .dataWrite 0x12] ++ List.replicate 3 (.statusRead 0x00) ∧
    (sendCommandAddr 0x24 0x1234 (afterP1 [0x03, 0x03] 0x00)).1.bus.peer.device.latch = [0x34, 0x12] := by decide

/-! ### Bus commands run from the mux's port -/

theorem test_run_gfx_area : (after (step ((afterP1 [] 0x0F).withFetchWord 24 0x010043))).map
    (fun t => (t.bus.trace, t.port.muxResult, t.bus.peer.device.ga)) =
      some ([S, .dataWrite 0x00, S, .dataWrite 0x01, S, .commandWrite 0x43], some .ok, 256) := by decide
theorem test_run_display_mode : (after (step ((afterP1 [] 0x0F).withFetchWord 8 0x9B))).map
    (fun t => (t.bus.trace, t.bus.peer.device.dmode, t.regs.displayMode)) =
      some ([S, .commandWrite 0x9B], 0x9B, 0x0A) := by decide
theorem test_unknown_command_refused :
    (match step ((afterP1 [] 0x0F).withFetchWord 8 0x80) with
      | .refused r => some r
      | .next _ => none
      | .fault _ => none) = some (.noSuchCommand 0x80) := by decide

/-! ### Control requests -/

/-- L2.6: a reset with both regions empty, whole. -/
theorem test_reset_trace : ((shown ((powerOn [] 0x0F).withFetchWord 32 0x30000001)).map Prod.fst) =
    some [S, .commandWrite 0xB2, S, .commandWrite 0x90, S, .dataWrite 0x04, S, .dataWrite 0x00, S, .commandWrite 0x42,
      S, .dataWrite 0x08, S, .dataWrite 0x00, S, .commandWrite 0x43, S, .dataWrite 0x02, S, .dataWrite 0x00,
      S, .commandWrite 0x40, S, .dataWrite 0x01, S, .dataWrite 0x00, S, .commandWrite 0x41, S, .commandWrite 0x81,
      S, .dataWrite 0x02, S, .dataWrite 0x00, S, .commandWrite 0x24, S, .dataWrite 0x04, S, .dataWrite 0x00,
      S, .commandWrite 0x24, S, .commandWrite 0x92, S, .commandWrite 0x92, S, .commandWrite 0x92,
      S, .commandWrite 0x9A] := by decide +kernel
/-- L2.6: a reset that times out at step 3 has written the layout and mode 0x00 and no shadow. -/
theorem test_reset_timeout : shown ((powerOn [0x0F, 0x0F] 0x00).withFetchWord 32 0x3000051E) =
    some ([S, .commandWrite 0xB2, S, .commandWrite 0x90] ++ List.replicate 3 (.statusRead 0x00),
      answered .handshakeTimeout 0 [],
      { Regs.reset with life := .configuring, rows := 5, cols := 30, rowWidth := 32, textBase := 2, gfxBase := 0x00D4,
                        displayMode := 0x00, layoutHeld := true, displayModeHeld := true }) := by decide
/-- R21: 50 bus cycles (R225) and 14 register writes: LIFE, the five layout registers, DISPLAY_MODE, ADP_SHADOW twice,
DISPLAY_MODE four times, LIFE. -/
theorem test_reset_position : (resetEngine 0 1 (powerOn [] 0x0F).acquire).1.ctl.pos = some 64 := by decide +kernel
/-- R300: the first address-set is strobed after 18 status reads, and the second times out. -/
theorem test_reset_timeout_shadow : (shown ((powerOn (List.replicate 18 0x0F) 0x00).withFetchWord 32 0x30000001)).map
    (fun x => (x.2.1, x.2.2.life, x.2.2.adpShadow, x.2.2.adpShadowHeld, x.2.2.displayMode, x.2.2.displayModeHeld)) =
      some (answered .handshakeTimeout 0 [], .configuring, 0x0002, true, 0x00, true) := by decide +kernel
theorem test_open_times_out_as_notready : (shown ((powerOn [] 0x00).withFetchWord 32 0x00000000)).map
    (fun x => (x.1, x.2.1, x.2.2.life)) =
      some (List.replicate 3 (.statusRead 0x00), answered .notReady 0 [], .configuring) := by decide
theorem test_open_when_ready : shown (submit 0x00000000 [] (afterP1 [] 0x0F)) =
    some ([], answered .ok 0 [], regsP1) := by decide
theorem test_setentry : shown (submit 0x31000000 [] (afterP1 [] 0x0F)) =
    some ([], answered .ok 0 [], { regsP1 with entryMode := .text }) := by decide
theorem test_setadp : shown (submit 0x3200FFFF [] (afterP1 [] 0x0F)) =
    some ([S, .dataWrite 0xFF, S, .dataWrite 0xFF, S, .commandWrite 0x24], answered .ok 0 [],
      { regsP1 with adpShadow := 0xFFFF }) := by decide
theorem test_setflag : shown (submit 0x33820000 [] (afterP1 [] 0x0F)) =
    some ([S, .commandWrite 0x9E], answered .ok 0 [], { regsP1 with displayMode := 0x0E }) := by decide
theorem test_setflag_restored : shown (submit 0x33820000 [] (afterP1 [] 0x00)) =
    some (List.replicate 3 (.statusRead 0x00), answered .handshakeTimeout 0 [], regsP1) := by decide
theorem test_setbase_bounds : [0x34010097, 0x3401F601, 0x34000100].all (fun w =>
    shown (submit w [] (afterP1 [] 0x0F)) = some ([], answered .invalidLayout 0 [], regsP1)) = true := by decide
theorem test_setbase_moves : shown (submit 0x3400003E [] (afterP1 [] 0x0F)) =
    some ([S, .dataWrite 0x3E, S, .dataWrite 0x00, S, .commandWrite 0x40], answered .ok 0 [],
      { regsP1 with textBase := 0x003E }) := by decide
/-- R214 with a region of one byte. -/
theorem test_clear :
    let s := afterP1 [] 0x0F
    shown (submit 0x35000000 [] { s with regs := { s.regs with rows := 1, cols := 1 } }) =
      some ([S, .dataWrite 0x02, S, .dataWrite 0x00, S, .commandWrite 0x24, S, .commandWrite 0xB0, S, .dataWrite 0x00,
        S, .commandWrite 0xB2], answered .ok 1 [], { regsP1 with rows := 1, cols := 1, adpShadow := 2 }) := by decide
theorem test_getstatus : shown (submit 0x36000000 [] (afterP1 [] 0x2B)) =
    some ([.statusRead 0x2B], answered .ok 0 [0x2B], regsP1) := by decide

/-! ### Bursts -/

/-- L2.4, the text offset. -/
theorem test_write_text_offset :
    let s := afterP1 [] 0x0F
    (shown (submit 0x10000006 [0x20, 0x41, 0x7E, 0x1F, 0x00, 0xFF]
      { s with regs := { s.regs with entryMode := .text } })).map (fun x => (x.1, x.2.1)) =
      some ([S, .commandWrite 0xB0, S, .dataWrite 0x00, S, .dataWrite 0x21, S, .dataWrite 0x5E, S, .dataWrite 0xFF,
        S, .dataWrite 0xE0, S, .dataWrite 0xDF, S, .commandWrite 0xB2], answered .ok 6 []) := by decide
/-- L2.4, the exit failure: the device is left in auto-write mode with its byte stored. -/
theorem test_write_exit_failure :
    shown (submit 0x10000001 [0x55] (afterP1 [0x0F, 0x0F] 0x00)) =
      some ([S, .commandWrite 0xB0, S, .dataWrite 0x55] ++ List.replicate 3 (.statusRead 0x00),
        answered .handshakeTimeout 1 [], regsP1) ∧
    deviceAfter (submit 0x10000001 [0x55] (afterP1 [0x0F, 0x0F] 0x00)) =
      some { deviceP1 with mem := [(0x0AD4, 0x55)], adp := 0x0AD5, auto := .write } := by decide
/-- L2.4, the read that times out after one byte. -/
theorem test_read_midburst :
    let s := afterP1 [0x0F, 0x0F] 0x0B
    (shown (submit 0x20000003 [] { s with bus := { s.bus with peer := { s.bus.peer with
      device := { s.bus.peer.device with adp := 0x0002, mem := [(0x0002, 0x28)] } } } })).map
        (fun x => (x.1, x.2.1)) =
      some ([S, .commandWrite 0xB1, S, .dataRead 0x28] ++ List.replicate 3 (.statusRead 0x0B) ++
        [.statusRead 0x0B, .commandWrite 0xB2], answered .handshakeTimeout 1 [0x28]) := by decide
theorem test_read_empty : shown (submit 0x20000000 [] (afterP1 [] 0x0F)) = some ([], answered .ok 0 [], regsP1) := by
  decide

/-! ### Codes in their order of precedence (L2.9) -/

theorem test_precedence : ([0x37000000, 0x10000000, 0x31000000, 0x36000000, 0x3401F601, 0x30000000] : List Word).map
    (fun w => (shown (submit w [] (powerOn [] 0x0F))).map (fun x => (x.1, x.2.1))) =
      [some ([], answered .unsupportedOperation 0 []), some ([], answered .notReady 0 []),
       some ([], answered .notReady 0 []), some ([], answered .notReady 0 []), some ([], answered .notReady 0 []),
       some ([], answered .invalidLayout 0 [])] := by decide
theorem test_malformed_pair : shown (submit 0x10000002 [0x48] (afterP1 [] 0x0F)) =
    some ([], [.refusedPair], regsP1) := by decide
theorem test_malformed_before_ready : (shown (submit 0x10000002 [0x48] (powerOn [] 0x0F))).map (fun x => x.2.1) =
    some [.refusedPair] := by decide

/-! ### Layout (L2.5) and display memory -/

theorem test_layout_table : ([(5, 30), (0, 1), (5, 0), (16, 32), (120, 30), (121, 30), (1, 249), (255, 255)].map
    (fun x : Nat × Nat => (rowWidthOf x.2, gfxBaseOf x.1 x.2,
      decide (LayoutValid 0x10000 2 (gfxBaseOf x.1 x.2) x.1 x.2),
      decide (LayoutValid 0x2000 2 (gfxBaseOf x.1 x.2) x.1 x.2)))) =
      [(32, 212, true, true), (8, 4, true, true), (0, 2, false, false), (32, 578, true, false),
       (32, 3662, true, false), (32, 3692, false, false), (256, 749, true, true), (256, 65537, false, false)] := by
  decide
theorem test_memory_write_removes : Memory.write [(2, 0x28), (5, 0x01)] 5 0x00 = [(2, 0x28)] ∧
    Memory.write [(5, 0x01)] 2 0x28 = [(2, 0x28), (5, 0x01)] ∧ Memory.read [(2, 0x28)] 3 = 0x00 := by decide
/-- R70: the pointer wraps at the top of the display space. -/
theorem test_store_wraps : (RefDevice.dataWrite 0x12 { deviceP1 with adp := 0xFFFF, auto := .write }).adp = 0x0000 := by
  decide

/-! ### Witnesses: states and operands that meet the hypotheses of the obligations -/

/-- After P1 under `READY`. -/
def ready : State := afterP1 [] 0x0F

/-- After P1 under `READY`, with the trace's last mode command on it. -/
def traced : State := { ready with bus := { ready.bus with trace := [.commandWrite 0x9A] } }

/-- The controller left in auto-write mode (R189). -/
def leftWriting : State :=
  { ready with bus := { ready.bus with peer := { ready.bus.peer with
    device := { ready.bus.peer.device with auto := .write, adp := 0xFFFF } } } }

theorem ready_oracle : ReadyOracle ready := by unfold ReadyOracle Answers; decide
theorem ready_peerInv : PeerInv ready := by unfold PeerInv; decide
theorem ready_layoutInv : LayoutInv ready := by unfold LayoutInv; decide
theorem ready_machineInv : MachineInv ready := by unfold MachineInv Quiet PeerInv LayoutInv; decide
theorem powerOn_oracle : ReadyOracle (powerOn [] 0x0F) := by unfold ReadyOracle Answers; decide
theorem ready_notStoring : ¬ StoresArguments ready := by unfold StoresArguments; decide

theorem witness_DecodeOfEncodeIsTheInstruction : WellFormed (.write 2 [0x48, 0x49]) = true ∧
    WellFormed (.write 0 []) = true := by decide
theorem witness_EncodeOfDecodeIsTheFrame :
    decode (.request ⟨0x10000001, [0x48]⟩) = .ok (.write 1 [0x48]) ∧
    decode (.command ⟨0x40, [0x02, 0x00], .commandReady⟩) = .ok (.txtHome 2) := by decide
theorem witness_RequestWordsAreTheTableRows :
    (∃ row ∈ requestRows, row.Meets 0x1000FFFF) ∧ (∃ row ∈ requestRows, row.Meets 0x33830000) ∧
    decode (.request ⟨0x34010000, []⟩) = .ok (.ctrlSetBase .graphics 0) ∧
    (∀ row ∈ requestRows, ¬ row.Meets 0x33840000) ∧ (∀ row ∈ requestRows, ¬ row.Meets 0x37000000) := by decide
theorem witness_CommandBytesAreTheTableRows :
    (∃ row ∈ commandRows, row.Meets ((0x9F : Byte).setWidth 32)) ∧
    (∀ row ∈ commandRows, ¬ row.Meets ((0x8F : Byte).setWidth 32)) ∧
    (∀ row ∈ commandRows, ¬ row.Meets ((0xA0 : Byte).setWidth 32)) := by decide
theorem witness_StepRunsTheDecodedInstruction_command :
    let s := ready.withFetchWord 8 0x81
    s.ctl.lock = false ∧ s.port.mux = some ⟨0x81, [], .commandReady⟩ ∧
      decode (.command ⟨0x81, [], .commandReady⟩) = .ok .modeXor := by decide
theorem witness_StepRunsTheDecodedInstruction_request :
    let s := ready.withFetchWord 32 0x36000000
    s.ctl.lock = false ∧ s.port.mux = none ∧ s.port.take = some (⟨0x36000000, []⟩, Port.reset) ∧
      decode (.request ⟨0x36000000, []⟩) = .ok .ctrlGetStatus := by decide
theorem witness_UnsupportedWordIsAnswered :
    let s := submit 0x37000000 [] (powerOn [] 0x0F)
    s.ctl.lock = false ∧ s.port.mux = none ∧ s.port.take = some (⟨0x37000000, []⟩, Port.reset) ∧
      decode (.request ⟨0x37000000, []⟩) = .error .unsupported := by decide
theorem witness_MalformedPairIsRefusedAtThePort_lengths :
    ([] : List Byte).length = (0 : BitVec 16).toNat ∧ ([0x48] : List Byte).length ≠ (0 : BitVec 16).toNat ∧
      ([0x48] : List Byte).length ≠ (2 : BitVec 16).toNat := by decide
theorem witness_MalformedPairIsRefusedAtThePort_step :
    let s := submit 0x10000002 [0x48] ready
    s.ctl.lock = false ∧ s.port.mux = none ∧ s.port.take = some (⟨0x10000002, [0x48]⟩, Port.reset) ∧
      decode (.request ⟨0x10000002, [0x48]⟩) = .error .malformedPair := by decide
theorem witness_NothingIsTakenWhileLocked :
    ({ ready with ctl := ⟨true, some 0, none, none⟩ } : State).ctl.lock = true ∧
      ready.port.mux = none ∧ ready.port.pending = [] := by decide
theorem witness_AnyPendingRequestMayBeNext :
    let p : Port := { Port.reset with pending := [⟨0x32000010, []⟩, ⟨0x32000020, []⟩], grants := [1] }
    p.take = some (⟨0x32000020, []⟩, { Port.reset with pending := [⟨0x32000010, []⟩] }) ∧
      p.pending[1]? = some ⟨0x32000020, []⟩ ∧ p.pending[0]? = some ⟨0x32000010, []⟩ := by decide
theorem witness_StepKeepsTheMachineInvariant :
    MachineInv (submit 0x31000000 [] ready) ∧ ∃ t, step (submit 0x31000000 [] ready) = .next t :=
  ⟨ready_machineInv, _, rfl⟩
theorem witness_StepKeepsTheModeAgreement :
    let s := submit 0x33800000 [] traced
    s.port.mux = none ∧ ModeAgrees s ∧ ∃ t, step s = .next t :=
  ⟨rfl, by unfold ModeAgrees; decide, _, rfl⟩
theorem witness_RegistersChangeOnlyByTheirWriters :
    (∃ t, exec (.ctrlSetAdp 0) ready = .next t) ∧ (∀ m, Instr.ctrlSetAdp 0 ≠ .ctrlSetEntry m) ∧
      (∃ t, exec (.setAdp 0) ready = .next t) :=
  ⟨⟨_, rfl⟩, fun _ => nofun, ⟨_, rfl⟩⟩
theorem witness_LifecycleTransitions :
    ¬ ResetValid params 5 0 ∧ ResetValid params 0 1 ∧ ResetValid params 120 30 ∧ ¬ ResetValid params 121 30 ∧
      (∃ t, step (powerOn [] 0x0F) = .next t ∧ t.regs.life = .uninitialized) :=
  ⟨by decide, by decide, by decide, by decide, _, rfl, rfl⟩
theorem witness_EngineEmitsOnlyItsCommandBytes :
    (∃ t, step ready = .next t) ∧ (ready.withFetchWord 8 0xB3).ctl.lock = false ∧
      (ready.withFetchWord 8 0xB3).port.mux = some ⟨0xB3, [], .commandReady⟩ ∧ (0xB3 : Byte) ∉ emittedBytes :=
  ⟨⟨_, rfl⟩, by decide⟩
theorem witness_BusCyclesDriveTheirLines : Lines.reset.idle = true := by decide
/-- For AddressCommandsComplete, PlainCommandsComplete, AddressCommandsLoadTheDevice and PlainCommandsSetTheDevice. -/
theorem witness_CommandsComplete :
    ReadyOracle ready ∧ ready.bus.peer.attached = true ∧ ready.bus.peer.device.auto ≠ .write :=
  ⟨ready_oracle, by decide⟩
theorem witness_TimedOutCommandIsNotStrobed :
    isRequest (.setAdp 0xFFFF) = false ∧ isRequest (.autoReset .autoReadReady) = false := by decide
theorem witness_WriteCompletes :
    ([0x20, 0x00] : List Byte).length = (2 : BitVec 16).toNat ∧ ready.regs.life = .ready ∧ ReadyOracle ready :=
  ⟨rfl, rfl, ready_oracle⟩
theorem witness_ReadCompletes : (1 : BitVec 16) ≠ 0 ∧ ready.regs.life = .ready ∧ ReadyOracle ready :=
  ⟨by decide, rfl, ready_oracle⟩
/-- For WriteReportsTheBytesMoved, ReadReportsTheBytesRead and EmptyBurstsIssueNoCycle. -/
theorem witness_WriteReportsTheBytesMoved :
    ([0x55] : List Byte).length = (1 : BitVec 16).toNat ∧ (1 : BitVec 16) ≠ 0 ∧ ready.regs.life = .ready := by decide
theorem witness_EntryFailureMovesNothing :
    ([1, 2, 3] : List Byte).length = (3 : BitVec 16).toNat ∧ (3 : BitVec 16) ≠ 0 ∧
      (afterP1 [] 0x0C).regs.life = .ready ∧ Answers 0x0C (afterP1 [] 0x0C) ∧
      meets .commandReady 0x0C = false := by unfold Answers; decide
/-- For ever 0x03, and 0x03 for as long as the budget (3) lasts and then 0x08; byte 0 and the last byte; both values of
`AUTO_EXIT_POLL`. -/
theorem witness_MidBurstTimeoutStillExits :
    let s (k m : Nat) (e : Byte) := afterP1 (List.replicate (k + 1) 0x0F ++ List.replicate m 0x03) e
    ([0x30, 0x31] : List Byte).length = (2 : BitVec 16).toNat ∧ 0 < ([0x30, 0x31] : List Byte).length ∧
      1 < ([0x30, 0x31] : List Byte).length ∧ (s 0 0 0x03).regs.life = .ready ∧ (s 1 3 0x08).regs.life = .ready ∧
      params.retryLimit ≠ 0 ∧ (s 0 0 0x03).bus.peer.statusScript = List.replicate 1 0x0F ++ List.replicate 0 0x03 ∧
      (s 0 0 0x03).bus.peer.statusConst = some 0x03 ∧
      (s 1 3 0x08).bus.peer.statusScript = List.replicate 2 0x0F ++ List.replicate 3 0x03 ∧
      (s 1 3 0x08).bus.peer.statusConst = some 0x08 ∧ 3 = (s 1 3 0x08).params.retryLimit.toNat ∧
      (s 1 3 0x08).params.exitPoll = .commandReady ∧
      ({ s 1 3 0x08 with params := { params with exitPoll := .autoCondition } } : State).params.exitPoll =
        .autoCondition := by decide
theorem witness_ExitFailureReportsTheBytesMoved :
    let s := afterP1 [0x0F, 0x0F] 0x00
    ([0x55] : List Byte).length = (1 : BitVec 16).toNat ∧ (1 : BitVec 16) ≠ 0 ∧ s.regs.life = .ready ∧
      ReadyThen (([0x55] : List Byte).length + 1) 0x00 s := by unfold ReadyThen; decide
theorem witness_ExitPollFollowsItsParameter :
    let s (e : Byte) := afterP1 [0x03] e
    ([0x55] : List Byte).length = (1 : BitVec 16).toNat ∧ (1 : BitVec 16) ≠ 0 ∧ (s 0x08).regs.life = .ready ∧
      (s 0x04).regs.life = .ready ∧ (s 0x08).bus.peer.statusScript = [0x03] ∧
      (s 0x04).bus.peer.statusScript = [0x03] ∧ (s 0x08).bus.peer.statusConst = some 0x08 ∧
      (s 0x04).bus.peer.statusConst = some 0x04 ∧ params.retryLimit ≠ 0 ∧ (s 0x04).params.exitPoll = .commandReady ∧
      ({ s 0x04 with params := { params with exitPoll := .autoCondition } } : State).params.exitPoll =
        .autoCondition := by decide
theorem witness_WriteThenReadReturnsTheBytes :
    ([0xDE, 0xAD, 0xBE] : List Byte).length < 0x10000 ∧ ready.regs.life = .ready ∧
      ready.regs.entryMode = .graphics ∧ ReadyOracle ready ∧ PeerInv ready ∧ ready.bus.peer.attached = true ∧
      ready.bus.peer.device.auto ≠ .write :=
  ⟨by decide, rfl, rfl, ready_oracle, ready_peerInv, rfl, by decide⟩
theorem witness_WriteStoresAtThePointer :
    ([0x55] : List Byte).length = (1 : BitVec 16).toNat ∧ ready.regs.life = .ready ∧ PeerInv ready ∧
      ready.bus.peer.attached = true := ⟨rfl, rfl, ready_peerInv, rfl⟩
theorem witness_RequestsThatStoreNothing :
    (∃ n t, exec (.read n) ready = .next t) ∧ ready.regs.life = .ready ∧ (∃ t, exec .openReq ready = .next t) :=
  ⟨⟨1, _, rfl⟩, rfl, _, rfl⟩
theorem witness_ArgumentBytesStoreOnlyInAutoWrite :
    PeerInv ready ∧ ¬ StoresArguments ready ∧ (∃ t, exec (.ctrlSetAdp 2) ready = .next t) ∧
      PeerInv leftWriting ∧ StoresArguments leftWriting ∧ (∃ t, exec (.ctrlSetAdp 2) leftWriting = .next t) ∧
      pointerAfter leftWriting 0 = 0xFFFF ∧ pointerAfter leftWriting 1 = 0 :=
  ⟨ready_peerInv, ready_notStoring, ⟨_, rfl⟩, by unfold PeerInv; decide, by unfold StoresArguments; decide,
    ⟨_, rfl⟩, by decide, by decide⟩
theorem witness_ClearZeroesItsRegion :
    ready.regs.life = .ready ∧ LayoutInv ready ∧ PeerInv ready ∧ ¬ StoresArguments ready ∧ ReadyOracle ready ∧
      ready.bus.peer.attached = true ∧ (∃ t, exec (.ctrlClear .text) ready = .next t) :=
  ⟨rfl, ready_layoutInv, ready_peerInv, ready_notStoring, ready_oracle, rfl, _, rfl⟩
theorem witness_ResetClearsBothRegions :
    PeerInv ready ∧ ResetValid ready.params 5 30 ∧ ResetValid ready.params 0 1 ∧ ReadyOracle ready ∧
      ready.bus.peer.attached = true ∧ (∃ t, exec (.ctrlReset 0 1) ready = .next t) :=
  ⟨ready_peerInv, by decide, by decide, ready_oracle, rfl, _, rfl⟩
theorem witness_LayoutFormulas : 8 % 8 = 0 ∧ 1 ≤ 8 ∧ rowWidthOf 1 ≤ 8 ∧ 1 ≤ 1 := by decide
theorem witness_FailedLayoutCheckTouchesNothing :
    let s : State := { powerOn [] 0x0F with params := { params with cfgCols := 0 } }
    ¬ ResetValid ready.params 5 0 ∧ ¬ ResetValid ready.params 255 255 ∧
      ready.regs.life = .ready ∧ ¬ LayoutValid 0x10000 0x0002 0x0097 5 30 ∧
      s.regs.life ≠ .ready ∧ ¬ ResetValid s.params s.params.cfgRows s.params.cfgCols := by decide
/-- For ResetCompletes, ResetCycleCount and TimedOutResetStaysConfiguring. -/
theorem witness_ResetCompletes :
    ReadyOracle (powerOn [] 0x0F) ∧ ResetValid (powerOn [] 0x0F).params 5 30 ∧
      ResetValid (powerOn [] 0x0F).params 0 1 := ⟨powerOn_oracle, by decide, by decide⟩
/-- For OpenCompletes and OpenReportsAnyFailureAsNotReady. -/
theorem witness_OpenCompletes :
    ready.regs.life = .ready ∧ (powerOn [] 0x0F).regs.life ≠ .ready ∧ ReadyOracle (powerOn [] 0x0F) ∧
      ResetValid (powerOn [] 0x0F).params (powerOn [] 0x0F).params.cfgRows (powerOn [] 0x0F).params.cfgCols :=
  ⟨rfl, by decide, powerOn_oracle, by decide⟩
theorem witness_RequestsBeforeReadyAreTurnedAway :
    WellFormed (.write 0 []) = true ∧ isRequest (.write 0 []) = true ∧ Instr.write 0 [] ≠ .openReq ∧
      (∀ r c, Instr.write 0 [] ≠ .ctrlReset r c) ∧ (powerOn [] 0x0F).regs.life ≠ .ready :=
  ⟨rfl, rfl, by decide, fun _ _ => nofun, by decide⟩
theorem witness_EveryRequestHasOneResponse :
    isRequest (.ctrlClear .graphics) = true ∧ WellFormed (.ctrlClear .graphics) = true ∧ LayoutInv ready ∧
      ready.regs.life = .ready := ⟨rfl, rfl, ready_layoutInv, rfl⟩
/-- For SetEntryWritesEntryMode, SetAdpCompletes, SetFlagCompletes, FlagsAreIndependent, ClearCompletes,
ClearMovesOnlyTheShadow and GetStatusIsOneStatusRead. -/
theorem witness_ControlRequests :
    ready.regs.life = .ready ∧ ReadyOracle ready ∧ LayoutInv ready ∧ (powerOn [] 0x0F).regs.life ≠ .ready ∧
      modeByte ready.regs.displayMode = ready.regs.displayMode := ⟨rfl, ready_oracle, ready_layoutInv, by decide, by decide⟩
theorem witness_SetBaseWritesOneBase :
    BaseValid ready .graphics 0x0098 ∧ ¬ BaseValid ready .graphics 0x0097 ∧ BaseValid ready .graphics 0xF600 ∧
      ¬ BaseValid ready .graphics 0xF601 ∧ BaseValid ready .text 0x003E ∧ ¬ BaseValid ready .text 0x003F := by decide
theorem witness_CycleBounds :
    ready.params.retryLimit.toNat ≠ 0 ∧ ([0x55] : List Byte) ≠ [] ∧ 1 ≠ 0 ∧ ready.regs.life = .ready ∧
      (∃ t, exec .ctrlGetStatus ready = .next t) := ⟨by decide, by decide, by decide, rfl, _, rfl⟩

end Sys2Proof.Tests
end

section
/-! Proofs of the handshake family (40_handshake.md): the status bytes a poll tests are the peer's answers, each read
fresh (R134, R138). -/

namespace Sys2Proof.Machine

@[simp] theorem length_statusBytes (n : Nat) (p : Peer) : (statusBytes n p).length = n := by
  induction n generalizing p with
  | zero => rfl
  | succ n ih => simp [statusBytes, ih]

/-- The retry counter has no value after a poll (R29). -/
theorem pollUntil_retry (c : PollCond) (s : State) : (pollUntil c s).1.ctl.retry = none := rfl

/-- Lists of status reads that leave one bus in the same state read the same bytes. -/
theorem run_statusReads_injective (b : Bus) :
    Function.Injective fun bs : List Byte => b.run (bs.map .statusRead) := by
  intro bs bs' h
  have ht : b.trace ++ bs.map BusCycle.statusRead = b.trace ++ bs'.map BusCycle.statusRead := by
    simpa only [run_trace] using congrArg Bus.trace h
  exact List.map_injective_iff.2 (fun _ _ => BusCycle.statusRead.inj) (List.append_cancel_left ht)

/-- Every cycle of a poll is a status read that takes the peer's next answer (R138). -/
theorem pollLoop_bus (c : PollCond) (n : Nat) (s : State) :
    ∃ k, (pollLoop c n s).1.bus = s.bus.run ((statusBytes k s.bus.peer).map .statusRead) := by
  induction n generalizing s with
  | zero => exact ⟨0, rfl⟩
  | succ n ih =>
    by_cases h : meets c s.bus.peer.statusAnswer = true
    · exact ⟨1, by simp [pollLoop, busStatusRead, h, statusBytes]⟩
    · obtain ⟨k, hk⟩ := ih (s.cycle (.statusRead s.bus.peer.statusAnswer)).countRetry
      have e : pollLoop c (n + 1) s =
          pollLoop c n (s.cycle (.statusRead s.bus.peer.statusAnswer)).countRetry := by
        simp [pollLoop, busStatusRead, h]
      exact ⟨k + 1, by rw [e]; exact hk⟩

/-- `pollUntil_spec` with its bytes named: they are the peer's next answers to status reads. -/
theorem pollUntil_statusBytes (c : PollCond) (s : State) :
    ∃ n, Ran s (pollUntil c s).1 ((statusBytes n s.bus.peer).map .statusRead) ∧
      PollReads c s.params.retryLimit.toNat (statusBytes n s.bus.peer) (pollUntil c s).2 := by
  obtain ⟨bs, hr, hb⟩ := pollUntil_spec c s
  obtain ⟨n, hn⟩ := pollLoop_bus c s.params.retryLimit.toNat s.startPoll
  have hbs : bs = statusBytes n s.bus.peer := run_statusReads_injective s.bus (hr.bus.symm.trans hn)
  exact ⟨n, hbs ▸ hr, hbs ▸ hb⟩

/-- Settles O21: the loop issues the peer's next answers only (`pollLoop_bus`), and `PollReads` says of them where the
poll ends. -/
theorem pollReadsUntilTheFirstMatch : Obligations.PollReadsUntilTheFirstMatch := by
  intro c s
  obtain ⟨n, hr, hb⟩ := pollUntil_statusBytes c s
  refine ⟨n, hr.bus, hr.regs, hr.port, hr.params, pollUntil_retry c s, ?_⟩
  rcases pollUntil_code c s with hc | hc
  · rw [hc] at hb
    obtain ⟨early, last, heq, hlast, hearly, hle⟩ := hb
    exact .inl ⟨hc, by simpa using hle, early, last, heq, hlast, hearly⟩
  · rw [hc] at hb
    obtain ⟨hlen, hnone⟩ := hb
    exact .inr ⟨hc, by simpa using hlen, hnone⟩

end Sys2Proof.Machine
end

section
/-! Proofs of the transfer family (41_transfer.md): the single-byte primitives are a poll and, where it succeeds, one data
cycle (R157, R158). -/

namespace Sys2Proof.Machine

/-! ### A byte after its poll, or the poll's code alone -/

theorem writeByte_ok {v : Byte} {s : State} (h : (pollUntil .commandReady s).2 = .ok) :
    writeByte v s = (busDataWrite v (pollUntil .commandReady s).1, .ok) := by
  rw [writeByte, andThen_ok h]

theorem writeByte_err {v : Byte} {s : State} (h : (pollUntil .commandReady s).2 ≠ .ok) :
    writeByte v s = pollUntil .commandReady s := by
  rw [writeByte, andThen_err h]

theorem readByte_ok {s : State} (h : (pollUntil .commandReady s).2 = .ok) :
    readByte s = ((busDataRead (pollUntil .commandReady s).1).1, .ok,
      some (busDataRead (pollUntil .commandReady s).1).2) := by
  unfold readByte
  rcases hp : pollUntil .commandReady s with ⟨t, e⟩
  obtain rfl : e = .ok := by simpa [hp] using h
  rfl

theorem readByte_err {s : State} (h : (pollUntil .commandReady s).2 ≠ .ok) :
    readByte s = ((pollUntil .commandReady s).1, (pollUntil .commandReady s).2, none) := by
  unfold readByte
  rcases hp : pollUntil .commandReady s with ⟨t, e⟩
  cases e with
  | ok => exact absurd (by rw [hp]) h
  | handshakeTimeout | notReady | unsupportedOperation | invalidLayout => rfl

/-! ### What they issue, after a poll that issued `l` -/

theorem ran_writeByte_ok {v : Byte} {s : State} {l : List BusCycle} (hr : Ran s (pollUntil .commandReady s).1 l)
    (h : (pollUntil .commandReady s).2 = .ok) : Ran s (writeByte v s).1 (l ++ [.dataWrite v]) := by
  rw [writeByte_ok h]
  exact hr.trans (ran_cycle _ _)

/-- The byte `readByte` returns is the peer's answer after the poll's cycles, and its read is the last cycle. -/
theorem ran_readByte_ok {s : State} {l : List BusCycle} (hr : Ran s (pollUntil .commandReady s).1 l)
    (h : (pollUntil .commandReady s).2 = .ok) :
    Ran s (readByte s).1 (l ++ [.dataRead (s.bus.run l).peer.dataAnswer]) ∧
      (readByte s).2 = (.ok, some (s.bus.run l).peer.dataAnswer) := by
  rw [readByte_ok h, ← hr.bus]
  exact ⟨hr.trans (ran_cycle _ _), rfl⟩

/-- Settles O22: the poll reads the peer's next answers (`pollUntil_statusBytes`); the primitive adds its data cycle
where the poll met its condition, and ends where the poll did otherwise. -/
theorem singleBytePrimitives : Obligations.SingleBytePrimitives := by
  intro s v
  obtain ⟨n, hr, hb⟩ := pollUntil_statusBytes .commandReady s
  refine ⟨n, ?_⟩
  rcases pollUntil_code .commandReady s with hc | hc
  · have hw := ran_writeByte_ok (v := v) hr hc
    obtain ⟨hd, hd2⟩ := ran_readByte_ok hr hc
    rw [hc] at hb
    obtain ⟨early, last, heq, hlast, hearly, hle⟩ := hb
    exact ⟨.inl ⟨by simpa using hle, ⟨early, last, heq, hlast, hearly⟩, by rw [writeByte_ok hc],
      by rw [hw.bus, run_append], hd2, by rw [hd.bus, run_append]⟩, hw.regs, hd.regs⟩
  · have hne : (pollUntil .commandReady s).2 ≠ .ok := by simp [hc]
    rw [hc] at hb
    obtain ⟨hlen, hnone⟩ := hb
    rw [writeByte_err hne, readByte_err hne, hc]
    exact ⟨.inr ⟨by simpa using hlen, hnone, rfl, rfl, hr.bus, hr.bus⟩, hr.regs, hr.regs⟩

end Sys2Proof.Machine
end

section
/-! Proofs of the auto-burst family (42_auto_burst.md): a burst of length 0 leaves the engine as it stands (R183), so
the `WRITE` or `READ` that asks for it only responds. -/

namespace Sys2Proof.Machine

/-! ### The burst requests on a `Ready` engine -/

/-- A `WRITE` on a `Ready` engine responds with the result of its burst, which changes no register (R252). -/
theorem exec_write_ready {n : BitVec 16} {payload : List Byte} {s : State} {l : List BusCycle}
    (hn : payload.length = n.toNat) (h : s.regs.life = .ready)
    (hr : Ran s.acquire (writeRule payload s.acquire).1 l) :
    exec (.write n payload) s = .next (s.done s.regs l (writeRule payload s.acquire).2) := by
  have harm : exec (.write n payload) s = answer (whenReady (writeRule payload)) s := if_pos hn
  rw [harm]
  exact answer_ready h hr.did

/-- A `READ` on a `Ready` engine responds with the result of its burst, which changes no register (R253). -/
theorem exec_read_ready {n : BitVec 16} {s : State} {l : List BusCycle} (h : s.regs.life = .ready)
    (hr : Ran s.acquire (burstRead n.toNat s.acquire).1 l) :
    exec (.read n) s = .next (s.done s.regs l (burstRead n.toNat s.acquire).2) :=
  answer_ready (body := burstRead n.toNat) h hr.did

/-! ### Bursts of no byte -/

theorem exec_write_empty {s : State} (h : s.regs.life = .ready) :
    exec (.write 0 []) s = .next (s.done s.regs [] ⟨.ok, 0, []⟩) := by
  have hb : writeRule [] s.acquire = (s.acquire, ⟨.ok, 0, []⟩) := burstWrite_empty _ _
  have hr : Ran s.acquire (writeRule [] s.acquire).1 [] := by rw [hb]; exact .refl _
  rw [exec_write_ready rfl h hr, hb]

theorem exec_read_zero {s : State} (h : s.regs.life = .ready) :
    exec (.read 0) s = .next (s.done s.regs [] ⟨.ok, 0, []⟩) := by
  have hb : burstRead (0 : BitVec 16).toNat s.acquire = (s.acquire, ⟨.ok, 0, []⟩) := burstRead_zero _
  have hr : Ran s.acquire (burstRead (0 : BitVec 16).toNat s.acquire).1 [] := by rw [hb]; exact .refl _
  rw [exec_read_ready h hr, hb]

/-- Settles O30: the two primitives by their equations at length 0, and the two requests because their rule is then
that primitive. -/
theorem emptyBurstsIssueNoCycle : Obligations.EmptyBurstsIssueNoCycle := fun s =>
  ⟨fun text => burstWrite_empty text s, burstRead_zero s, fun h => ⟨exec_write_empty h, exec_read_zero h⟩⟩

end Sys2Proof.Machine
end

section
/-! Proofs of the layout and mode family (43_layout_mode.md): the layout check and what fails it (R200 to R206), the
bits of `DISPLAY_MODE` (R208 to R210), and the length of a reset (R225). -/

namespace Sys2Proof.Machine

/-! ### The layout formulas (R201 to R205) -/

theorem rowWidthOf_mod (c : Nat) : rowWidthOf c % 8 = 0 := Nat.mul_mod_left _ _

theorem le_rowWidthOf (c : Nat) : c ≤ rowWidthOf c := by
  unfold rowWidthOf
  omega

/-- The row width is the least of the multiples of 8 that reach `c`. -/
theorem rowWidthOf_least {c m : Nat} (h8 : m % 8 = 0) (h : c ≤ m) : rowWidthOf c ≤ m := by
  unfold rowWidthOf
  omega

theorem rowWidthOf_eq (c : Nat) : rowWidthOf c = 8 * ((c + 7) / 8) := Nat.mul_comm _ _

theorem gfxBaseOf_eq (r c : Nat) : gfxBaseOf r c = 2 + r * c + 2 * c := rfl

theorem not_layoutValid_zero_cols (space tb gb r : Nat) : ¬ LayoutValid space tb gb r 0 := fun ⟨h, _⟩ => nomatch h

/-- Conditions 2 and 3 of the check, which a reset's graphics base meets wherever condition 1 holds. -/
theorem gfxBaseOf_above_text (r : Nat) {c : Nat} (h : 1 ≤ c) :
    2 < gfxBaseOf r c ∧ 2 + textLen r c ≤ gfxBaseOf r c := by
  rw [gfxBaseOf_eq, textLen]
  omega

/-- The check of a reset is conditions 1, 4 and 5 of R205 for its own bases. -/
theorem resetValid_iff (rows cols : Byte) (p : Params) :
    ResetValid p rows cols ↔ 1 ≤ cols.toNat ∧ gfxBaseOf rows.toNat cols.toNat < p.addrSpace.val ∧
      gfxBaseOf rows.toNat cols.toNat + gfxLen rows.toNat (rowWidthOf cols.toNat) ≤ p.addrSpace.val :=
  ⟨fun ⟨h1, _, _, h4, h5⟩ => ⟨h1, h4, h5⟩,
    fun ⟨h1, h4, h5⟩ => ⟨h1, (gfxBaseOf_above_text _ h1).1, (gfxBaseOf_above_text _ h1).2, h4, h5⟩⟩

/-- Settles O43: the row width is the least multiple of 8 that reaches `c`, and the graphics base lies past the text
region by `2 * c`, which condition 1 makes positive. -/
theorem layoutFormulas : Obligations.LayoutFormulas :=
  ⟨fun c => ⟨rowWidthOf_mod c, le_rowWidthOf c, fun _ => rowWidthOf_least⟩, rfl, rfl, rfl, rfl, rfl, rfl,
    not_layoutValid_zero_cols, gfxBaseOf_eq, rfl, fun r _ => gfxBaseOf_above_text r⟩

/-! ### A failed layout check (R206) -/

/-- A request whose rule leaves the engine as it took it only responds (R250). -/
theorem answer_unchanged {body : State → State × Response} {s : State} {r : Response}
    (h : body s.acquire = (s.acquire, r)) : answer body s = .next (s.done s.regs [] r) := by
  rw [answer_did (regs := s.regs) (l := []) (by rw [h]; exact (Ran.refl _).did), h]

theorem setBaseAddress_invalid {r : Region} {a : Addr} {s : State} (h : ¬ BaseValid s r a) :
    setBaseAddress r a s = (s, .invalidLayout) := if_neg h

theorem openBody_invalid {s : State} (hl : s.regs.life ≠ .ready)
    (h : ¬ ResetValid s.params s.params.cfgRows s.params.cfgCols) : openBody s = (s, ⟨.notReady, 0, []⟩) := by
  rw [openBody, if_neg hl, resetEngine_invalid h]
  rfl

theorem exec_ctrlReset_invalid {rows cols : Byte} {s : State} (h : ¬ ResetValid s.params rows cols) :
    exec (.ctrlReset rows cols) s = .next (s.done s.regs [] ⟨.invalidLayout, 0, []⟩) :=
  answer_unchanged (body := plainResult (resetEngine rows cols)) (by
    rw [plainResult, resetEngine_invalid (s := s.acquire) h]
    rfl)

theorem exec_ctrlSetBase_invalid {r : Region} {a : Addr} {s : State} (hl : s.regs.life = .ready)
    (h : ¬ BaseValid s r a) :
    exec (.ctrlSetBase r a) s = .next (s.done s.regs [] ⟨.invalidLayout, 0, []⟩) :=
  answer_unchanged (body := whenReady (plainResult (setBaseAddress r a))) (by
    rw [whenReady_ready hl, plainResult, setBaseAddress_invalid (s := s.acquire) h]
    rfl)

theorem exec_openReq_invalid {s : State} (hl : s.regs.life ≠ .ready)
    (h : ¬ ResetValid s.params s.params.cfgRows s.params.cfgCols) :
    exec .openReq s = .next (s.done s.regs [] ⟨.notReady, 0, []⟩) :=
  answer_unchanged (openBody_invalid (s := s.acquire) hl h)

/-- Settles O44: each of the three requests makes its check before anything else, and where that fails its rule leaves
the engine as it took it. -/
theorem failedLayoutCheckTouchesNothing : Obligations.FailedLayoutCheckTouchesNothing := by
  refine ⟨fun _ _ _ h => exec_ctrlReset_invalid h, fun r a s hl h => exec_ctrlSetBase_invalid hl ?_,
    fun s hl h => exec_openReq_invalid hl h, fun rows cols p => ?_⟩
  · cases r with
    | text => exact h
    | graphics => exact h
  · rw [resetValid_iff, gfxBaseOf_eq, gfxLen, rowWidthOf_eq]

/-! ### The bits of the mode byte (R25, R209, R210) -/

theorem getLsbD_lowNibble (i : Nat) : (0x0F : Byte).getLsbD i = decide (i < 4) := by
  by_cases h : i < 8
  · interval_cases i <;> rfl
  · rw [BitVec.getLsbD_of_ge _ _ (by omega)]
    simp only [false_eq_decide_iff]
    omega

theorem getLsbD_modeByte (m : Byte) (i : Nat) : (modeByte m).getLsbD i = (m.getLsbD i && decide (i < 4)) := by
  rw [modeByte, BitVec.getLsbD_and, getLsbD_lowNibble]

theorem flagBit_lt (f : Flag) : flagBit f < 4 := by cases f <;> decide

/-- The one bit that `withFlag` sets or clears is the flag's. -/
theorem getLsbD_flagMask (f : Flag) (i : Nat) : (1#8 <<< flagBit f).getLsbD i = decide (flagBit f = i) := by
  have h : flagBit f < 8 := (flagBit_lt f).trans (by decide)
  rw [← BitVec.twoPow_eq, BitVec.getLsbD_twoPow]
  simp only [h, decide_true, Bool.true_and]

theorem getLsbD_withFlag (m : Byte) (f : Flag) (on : Bool) {i : Nat} (hi : i < 8) :
    (withFlag m f on).getLsbD i = if flagBit f = i then on else m.getLsbD i := by
  cases on with
  | true =>
    simp only [withFlag, if_true, BitVec.getLsbD_or, getLsbD_flagMask]
    by_cases h : flagBit f = i <;> simp [h]
  | false =>
    simp only [withFlag, Bool.false_eq_true, if_false, BitVec.getLsbD_and, BitVec.getLsbD_not, getLsbD_flagMask, hi]
    by_cases h : flagBit f = i <;> simp [h]

/-- `DISPLAY_MODE` with a flag set (R209): the flag's bit, and every other bit as it reads. -/
theorem getLsbD_flaggedMode (r : Regs) (f : Flag) (on : Bool) (i : Nat) :
    (modeByte (flaggedMode r f on)).getLsbD i =
      if flagBit f = i then on else (modeByte r.displayMode).getLsbD i := by
  rw [getLsbD_modeByte]
  by_cases h4 : i < 4
  · rw [getLsbD_withFlag _ f on (by omega)]
    simp only [h4, decide_true, Bool.and_true]
  · have hne : flagBit f ≠ i := fun h => h4 (h ▸ flagBit_lt f)
    simp [h4, hne, getLsbD_modeByte]

@[simp] theorem displayMode_setMode (m : Byte) (r : Regs) : (Regs.setMode m r).displayMode = modeByte m := rfl

/-- A step of one transfer that timed out has issued no transfer: the part it sent is empty, so it opened no burst. -/
theorem stopped_singleton {c : BusCycle} {l : List BusCycle} (h : Stopped [c] l) : transfers l = [] := by
  obtain ⟨p, -, hlen, ht⟩ := h
  obtain rfl : p = [] := List.length_eq_zero_iff.1 (by simpa using hlen)
  rcases ht with ht | ⟨⟨q, sent, hq⟩, -⟩
  · exact ht
  · simp at hq

/-- Settles O55: `spec_setDisplayFlag` says that the step leaves either the registers it met or the flagged mode, whose
bits are the old ones but for the flag's (`getLsbD_flaggedMode`). -/
theorem flagsAreIndependent : Obligations.FlagsAreIndependent := by
  intro f on s bit
  have hbit : bit = flagBit f := by cases f <;> rfl
  rw [hbit]
  refine ⟨fun hm i hi => ?_, fun hl => ?_⟩
  · obtain ⟨l, regs, hd, -, ⟨-, rfl, -⟩ | ⟨-, rfl, -⟩⟩ := spec_setDisplayFlag f on s
    · rw [hd.regs, displayMode_setMode, getLsbD_flaggedMode, if_neg hi.symm, hm]
    · rw [hd.regs]
  · obtain ⟨l, regs, c, hx, -, ⟨rfl, rfl, -⟩ | ⟨rfl, rfl, hst⟩⟩ := answer_plain hl (spec_setDisplayFlag f on)
    · refine ⟨_, _, l, .ok, hx, fun i h4 hi => ?_, .inl ⟨rfl, ?_, rfl⟩⟩
      · rw [getLsbD_flaggedMode, if_neg hi.symm, getLsbD_modeByte]
        simp only [h4, decide_true, Bool.and_true]
      · rw [getLsbD_flaggedMode, if_pos rfl]
    · exact ⟨_, _, l, .handshakeTimeout, hx, fun _ _ _ => rfl, .inr ⟨rfl, rfl, rfl, stopped_singleton hst⟩⟩

/-! ### The cycles of a reset, counted (R225) -/

theorem length_readyCycles (l : List BusCycle) : (readyCycles l).length = 2 * l.length := by
  induction l with
  | nil => rfl
  | cons c l ih =>
    rw [readyCycles_cons]
    simp only [List.length_cons, ih]
    omega

/-- A burst of no byte is no cycle (R183); any other is its bytes with an entry and an exit. -/
theorem length_burstCycles (sent : List Byte) :
    (burstCycles sent).length = if sent.length = 0 then 0 else 2 + sent.length := by
  cases sent with
  | nil => rfl
  | cons b rest =>
    simp only [burstCycles, reduceCtorEq, if_false, List.length_append, List.length_cons, List.length_map,
      List.length_nil]
    omega

theorem length_clearCycles (base : Addr) (len : Nat) :
    (clearCycles base len).length = 3 + if len = 0 then 0 else 2 + len := by
  rw [clearCycles, List.length_append, length_burstCycles, List.length_replicate]
  rfl

/-- R216 to R222: seven commands without data and four with an address, and the two clears. -/
theorem length_resetCycles (rows cols : Byte) :
    (resetCycles rows cols).length = 19 + (clearCycles 0x0002 (textLen rows.toNat cols.toNat)).length +
      (clearCycles (BitVec.ofNat 16 (gfxBaseOf rows.toNat cols.toNat))
        (gfxLen rows.toNat (rowWidthOf cols.toNat))).length := by
  simp only [resetCycles, addrCycles, List.length_append, List.length_cons, List.length_nil]
  omega

/-- The formula of R225, with its steps in the order of R216 to R222. -/
theorem length_ready_resetCycles (rows cols : Byte) :
    (readyCycles (resetCycles rows cols)).length = 2 + 2 + 12 + 12 + 2 +
      (6 + if textLen rows.toNat cols.toNat = 0 then 0 else 4 + 2 * textLen rows.toNat cols.toNat) +
      (6 + if gfxLen rows.toNat (rowWidthOf cols.toNat) = 0 then 0
        else 4 + 2 * gfxLen rows.toNat (rowWidthOf cols.toNat)) + 8 := by
  rw [length_readyCycles, length_resetCycles, length_clearCycles, length_clearCycles]
  split <;> split <;> omega

/-! ### The cycles of a reset are writes, and what they write -/

/-- The cycle writes a data byte or a command byte. -/
def BusCycle.isWrite : BusCycle → Bool
  | .dataWrite _ | .commandWrite _ => true
  | .statusRead _ | .dataRead _ => false

theorem isTransfer_of_isWrite {c : BusCycle} (h : c.isWrite = true) : c.isTransfer = true := by
  cases c with
  | statusRead s => cases h
  | dataRead v => cases h
  | dataWrite v => rfl
  | commandWrite op => rfl

theorem isWrite_addrCycles {op : Byte} {a : Addr} {c : BusCycle} (h : c ∈ addrCycles op a) : c.isWrite = true := by
  simp only [addrCycles, List.mem_cons, List.not_mem_nil, or_false] at h
  rcases h with rfl | rfl | rfl <;> rfl

theorem isWrite_burstCycles {sent : List Byte} {c : BusCycle} (h : c ∈ burstCycles sent) : c.isWrite = true := by
  unfold burstCycles at h
  split at h
  · cases h
  · simp only [List.mem_append, List.mem_cons, List.mem_map, List.not_mem_nil, or_false] at h
    rcases h with (rfl | ⟨v, -, rfl⟩) | rfl <;> rfl

theorem isWrite_clearCycles {base : Addr} {len : Nat} {c : BusCycle} (h : c ∈ clearCycles base len) :
    c.isWrite = true :=
  (List.mem_append.1 h).elim isWrite_addrCycles isWrite_burstCycles

/-- A reset reads nothing but status (R216 to R222). -/
theorem isWrite_resetCycles {rows cols : Byte} {c : BusCycle} (h : c ∈ resetCycles rows cols) :
    c.isWrite = true := by
  simp only [resetCycles, List.mem_append, List.mem_cons, List.not_mem_nil, or_false] at h
  rcases h with ((((((((rfl | rfl) | h) | h) | h) | h) | rfl) | h) | h) | rfl | rfl | rfl | rfl
  exacts [rfl, rfl, isWrite_addrCycles h, isWrite_addrCycles h, isWrite_addrCycles h, isWrite_addrCycles h, rfl,
    isWrite_clearCycles h, isWrite_clearCycles h, rfl, rfl, rfl, rfl]

theorem bytesRead_of_isWrite {l : List BusCycle} (h : ∀ c ∈ l, c.isWrite = true) : bytesRead l = [] := by
  refine List.filterMap_eq_nil_iff.2 fun c hc => ?_
  have hw := h c hc
  cases c with
  | dataRead v => cases hw
  | statusRead s => rfl
  | dataWrite v => rfl
  | commandWrite op => rfl

/-- The status reads of `READY` drop out of whatever is read off the other cycles. -/
theorem filterMap_readyCycles {f : BusCycle → Option Byte} (h : f (.statusRead 0x0F) = none) (l : List BusCycle) :
    (readyCycles l).filterMap f = l.filterMap f := by
  induction l with
  | nil => rfl
  | cons c l ih => simp only [readyCycles_cons, List.filterMap_cons, h, ih]

theorem bytesRead_readyCycles (l : List BusCycle) : bytesRead (readyCycles l) = bytesRead l :=
  filterMap_readyCycles rfl l

theorem bytesWritten_readyCycles (l : List BusCycle) : bytesWritten (readyCycles l) = bytesWritten l :=
  filterMap_readyCycles rfl l

theorem bytesWritten_append (l l' : List BusCycle) : bytesWritten (l ++ l') = bytesWritten l ++ bytesWritten l' :=
  List.filterMap_append

theorem bytesWritten_map_dataWrite (sent : List Byte) : bytesWritten (sent.map .dataWrite) = sent := by
  simp [bytesWritten, List.filterMap_map]

theorem bytesWritten_burstCycles (sent : List Byte) : bytesWritten (burstCycles sent) = sent := by
  cases sent with
  | nil => rfl
  | cons b rest =>
    have hcycles : burstCycles (b :: rest) =
        [.commandWrite 0xB0] ++ (b :: rest).map .dataWrite ++ [.commandWrite 0xB2] := if_neg (List.cons_ne_nil b rest)
    rw [hcycles, bytesWritten_append, bytesWritten_append, bytesWritten_map_dataWrite]
    exact List.append_nil _

theorem length_bytesWritten_clearCycles (base : Addr) (len : Nat) :
    (bytesWritten (clearCycles base len)).length = 2 + len := by
  rw [clearCycles, bytesWritten_append, bytesWritten_burstCycles, List.length_append, List.length_replicate]
  rfl

/-- The data bytes of a reset: two for each of its four address commands, and those of its two clears. -/
theorem length_bytesWritten_resetCycles (rows cols : Byte) :
    (bytesWritten (resetCycles rows cols)).length =
      12 + textLen rows.toNat cols.toNat + gfxLen rows.toNat (rowWidthOf cols.toNat) := by
  simp only [resetCycles, bytesWritten_append, List.length_append, length_bytesWritten_clearCycles]
  simp only [bytesWritten, addrCycles, List.filterMap_cons, List.filterMap_nil, List.length_cons, List.length_nil]
  omega

/-- Settles O46: under `READY` a reset issues `resetCycles` with a status read before each (`resetEngine_ready`), so its
length is the formula's (`length_ready_resetCycles`). -/
theorem resetCycleCount : Obligations.ResetCycleCount := by
  intro rows cols s h hv B r c
  obtain ⟨hd, -⟩ := resetEngine_ready (s := s.acquire) h hv
  have ht : transfers (readyCycles (resetCycles rows cols)) = resetCycles rows cols :=
    transfers_readyCycles fun _ hc => isTransfer_of_isWrite (isWrite_resetCycles hc)
  refine ⟨_, readyCycles (resetCycles rows cols), answer_did (body := plainResult (resetEngine rows cols)) hd,
    run_trace _ _, ?_, by rw [ht], ?_⟩
  · rw [length_ready_resetCycles, textLen, gfxLen, rowWidthOf_eq]
  · rintro rfl rfl
    rw [ht, bytesWritten_readyCycles, bytesRead_readyCycles, length_ready_resetCycles, length_resetCycles,
      length_clearCycles, length_clearCycles, length_bytesWritten_resetCycles]
    exact ⟨rfl, rfl, rfl, bytesRead_of_isWrite fun _ => isWrite_resetCycles⟩

end Sys2Proof.Machine
end

section
/-! Proofs of the control surface family (44_control_surface.md): a word that spells no request is answered before
`LIFE` is looked at (R261); two requests that do their one thing on a `Ready` engine (R255, R260) and nothing before it
(R250). -/

namespace Sys2Proof.Machine

/-! ### An unsupported word (R261) -/

/-- With the lock clear and nothing at the mux's own command port, the work is the request taken (R250, R305). -/
theorem nextWork_request {s : State} {r : Submission} {p : Port} (hl : s.ctl.lock = false) (hm : s.port.mux = none)
    (ht : s.port.take = some (r, p)) : nextWork s = workOfRequest r { s with port := p } := by
  simp only [nextWork, hl, hm, ht, Bool.false_eq_true, if_false]

theorem workOfRequest_unsupported {r : Submission} (h : decode (.request r) = .error .unsupported) (s : State) :
    workOfRequest r s = .unsupported s := by
  simp only [workOfRequest, h]

/-- Answering an unsupported word issues no cycle and writes no register. -/
theorem rejectUnsupported_eq_done (s : State) :
    rejectUnsupported s = s.done s.regs [] (Response.plain .unsupportedOperation) := rfl

theorem step_unsupported {s : State} {r : Submission} {p : Port} (hl : s.ctl.lock = false) (hm : s.port.mux = none)
    (ht : s.port.take = some (r, p)) (hd : decode (.request r) = .error .unsupported) :
    step s = .next (({ s with port := p } : State).done s.regs [] (Response.plain .unsupportedOperation)) := by
  rw [step, nextWork_request hl hm ht, workOfRequest_unsupported hd, ← rejectUnsupported_eq_done]

/-- Settles O8: the step is `step_unsupported`. The example words fail in four ways, whatever the payload: no `CMD` 7
(R93), no `OP` 4 (R92), no `SEL` 2 of an entry mode (R94), and an `ARG` that `OPEN` must have as 0 (R95). -/
theorem unsupportedWordIsAnswered : Obligations.UnsupportedWordIsAnswered := by
  refine ⟨fun s r p hl hm ht hd => step_unsupported hl hm ht hd, fun w hw payload => decode_unsupported.2 ?_⟩
  simp only [List.mem_cons, List.not_mem_nil, or_false] at hw
  obtain rfl | rfl | rfl | rfl := hw
  · rfl
  · rfl
  · rfl
  · rfl

/-! ### `CTRL.SETENTRY` (R255) -/

theorem exec_ctrlSetEntry_ready {m : EntryMode} {s : State} (h : s.regs.life = .ready) :
    exec (.ctrlSetEntry m) s = .next (s.done (s.regs.setEntry m) [] (Response.plain .ok)) :=
  answer_ready (body := plainResult (writing (Regs.setEntry m))) h ⟨rfl, rfl, rfl, rfl⟩

/-- Settles O52: on a `Ready` engine the rule is one register write, before `Ready` it is not reached
(`answer_notReady`). -/
theorem setEntryWritesEntryMode : Obligations.SetEntryWritesEntryMode := fun _ _ =>
  ⟨exec_ctrlSetEntry_ready, answer_notReady, rfl, rfl⟩

/-! ### `CTRL.GETSTATUS` (R260) -/

/-- The rule is one bus cycle, so there is no poll that could time out. -/
theorem statusRule_ran (s : State) : Ran s (statusRule s).1 [.statusRead s.bus.peer.statusAnswer] := ran_cycle _ s

theorem exec_ctrlGetStatus_ready {s : State} (h : s.regs.life = .ready) :
    exec .ctrlGetStatus s =
      .next (s.done s.regs [.statusRead s.bus.peer.statusAnswer] ⟨.ok, 0, [s.bus.peer.statusAnswer]⟩) :=
  answer_ready (body := statusRule) h (statusRule_ran s.acquire).did

/-- Settles O59: on a `Ready` engine the rule is one status read and its byte, before `Ready` it is not reached
(`answer_notReady`). -/
theorem getStatusIsOneStatusRead : Obligations.GetStatusIsOneStatusRead := fun _ =>
  ⟨exec_ctrlGetStatus_ready, answer_notReady, rfl⟩

end Sys2Proof.Machine
end

section
/-! Proofs of the encoding family (30_encoding.md): the two spellings of an instruction, on the request port and at the
mux's command port, and the rows of the opcode table they meet. -/

namespace Sys2Proof

open Machine

/-! ### From an instruction to its spelling and back -/

/-- A pair whose word is built of fields decodes as those fields say, once its payload has the length they give. -/
theorem decode_fields {f : Fields} {payload : List Byte} {i : Instr} (h : requestOfFields f payload = some i)
    (hl : payload.length = payloadLength f) : decode (.request ⟨f.toWord, payload⟩) = .ok i :=
  decode_request.2 (by rw [ofWord_toWord]; exact ⟨h, hl⟩)

theorem decode_plainRequest {op cmd : BitVec 4} {sel : BitVec 8} {arg : BitVec 16} {i : Instr}
    (h : requestOfFields ⟨op, cmd, sel, arg⟩ [] = some i) (hop : op ≠ 0x1) :
    decode (plainRequest op cmd sel arg) = .ok i :=
  decode_fields h (if_neg hop).symm

/-- The selector of `CTRL.SETFLAG` names its flag and its value (R94). -/
theorem flagOfSel_flag (f : Flag) (on : Bool) :
    flagOfSel (BitVec.ofBool on ++ 0#5 ++ flagBits f) = some (.ctrlSetFlag f on) := by
  cases f <;> cases on <;> decide

theorem bySel_regionSel (r : Region) : bySel (regionSel r) Region.text .graphics = some r := by cases r <;> rfl

theorem bySel_entrySel (m : EntryMode) : bySel (entrySel m) EntryMode.text .graphics = some m := by cases m <;> rfl

/-- The two bytes of a 16-bit argument, put together again (R65). -/
theorem addrForm_addr (mk : Addr → Instr) (op : Byte) (a : Addr) :
    addrForm mk ⟨op, [a.extractLsb' 0 8, a.extractLsb' 8 8], .commandReady⟩ = .ok (mk a) :=
  addrForm_ok.2 ⟨a, rfl, rfl⟩

theorem displayMode_bits (m : BitVec 4) :
    decode (plainCommand (0x9#4 ++ m)) = .ok (.displayMode m) := by
  revert m; decide

/-- Settles O1: a request's fields are those its word holds (`decode_fields`), and a command's two data bytes are its
argument (`addrForm_addr`). -/
theorem decodeOfEncodeIsTheInstruction : Obligations.DecodeOfEncodeIsTheInstruction := by
  intro i hw
  cases i with
  | openReq => exact decode_plainRequest rfl (by decide)
  | write n payload => exact decode_fields (f := ⟨0x1, 0x0, 0, n⟩) rfl (beq_iff_eq.1 hw)
  | read n => exact decode_plainRequest rfl (by decide)
  | ctrlReset rows cols =>
    refine decode_plainRequest ?_ (by decide)
    show some (Instr.ctrlReset ((rows ++ cols).extractLsb' 8 8) ((rows ++ cols).extractLsb' 0 8)) = _
    rw [high_append, low_append]
  | ctrlSetEntry m => exact decode_plainRequest (congrArg (Option.map _) (bySel_entrySel m)) (by decide)
  | ctrlSetAdp a => exact decode_plainRequest rfl (by decide)
  | ctrlSetFlag f on => exact decode_plainRequest (flagOfSel_flag f on) (by decide)
  | ctrlSetBase r a => exact decode_plainRequest (congrArg (Option.map _) (bySel_regionSel r)) (by decide)
  | ctrlClear r => exact decode_plainRequest (congrArg (Option.map _) (bySel_regionSel r)) (by decide)
  | ctrlGetStatus => exact decode_plainRequest rfl (by decide)
  | setAdp a => exact addrForm_addr .setAdp 0x24 a
  | txtHome a => exact addrForm_addr .txtHome 0x40 a
  | txtArea p => exact addrForm_addr .txtArea 0x41 p
  | gfxHome a => exact addrForm_addr .gfxHome 0x42 a
  | gfxArea p => exact addrForm_addr .gfxArea 0x43 p
  | modeXor => rfl
  | displayMode m => exact displayMode_bits m
  | autoWrite => rfl
  | autoRead => rfl
  | autoReset cond => cases cond <;> rfl

/-! ### From a spelling to its instruction and back -/

/-- The only selector that names a flag and a value (R94). -/
theorem sel_of_flagOfSel {sel : BitVec 8} (h : sel.extractLsb' 2 5 = 0) :
    BitVec.ofBool (sel.getLsbD 7) ++ 0#5 ++ flagBits (flagOfBits (sel.extractLsb' 0 2)) = sel := by
  revert sel; decide

/-- A control request that fields spell has those fields in its spelling (R93 to R95). -/
theorem encode_of_controlOfFields {cmd : BitVec 4} {sel : BitVec 8} {arg : BitVec 16} {i : Instr}
    (h : controlOfFields ⟨0x3, cmd, sel, arg⟩ = some i) : encode i = plainRequest 0x3 cmd sel arg := by
  unfold controlOfFields at h
  simp only at h
  split_ifs at h with h0 hs h1 ha h2 hs h3 ha h4 h5 ha h6 hz
  · cases h; subst h0 hs
    rw [encode, append_halves]
  · obtain ⟨m, hm, rfl⟩ := Option.map_eq_some_iff.1 h
    subst h1 ha
    rcases bySel_some.1 hm with ⟨rfl, rfl⟩ | ⟨rfl, rfl⟩ <;> rfl
  · cases h; subst h2 hs
    rfl
  · unfold flagOfSel at h
    split_ifs at h with hb
    cases h; subst h3 ha
    rw [encode, sel_of_flagOfSel hb]
  · obtain ⟨r, hr, rfl⟩ := Option.map_eq_some_iff.1 h
    subst h4
    rcases bySel_some.1 hr with ⟨rfl, rfl⟩ | ⟨rfl, rfl⟩ <;> rfl
  · obtain ⟨r, hr, rfl⟩ := Option.map_eq_some_iff.1 h
    subst h5 ha
    rcases bySel_some.1 hr with ⟨rfl, rfl⟩ | ⟨rfl, rfl⟩ <;> rfl
  · cases h
    obtain ⟨rfl, rfl⟩ := hz
    subst h6
    rfl

/-- The request that fields and a payload of their length spell is spelled by them alone (R92). -/
theorem encode_of_requestOfFields {f : Fields} {payload : List Byte} {i : Instr}
    (h : requestOfFields f payload = some i) (hl : payload.length = payloadLength f) :
    encode i = .request ⟨f.toWord, payload⟩ := by
  obtain ⟨op, cmd, sel, arg⟩ := f
  unfold payloadLength at hl
  unfold requestOfFields at h
  simp only at h hl
  by_cases h1 : op = 0x1
  · subst h1
    rw [if_neg (by decide), if_pos rfl] at h
    split_ifs at h with hz
    obtain ⟨rfl, rfl⟩ := hz
    cases h
    rfl
  · rw [if_neg h1, List.length_eq_zero_iff] at hl
    subst hl
    split_ifs at h with h0 hz h2 hz h3
    · obtain ⟨rfl, rfl, rfl⟩ := hz
      cases h; subst h0
      rfl
    · obtain ⟨rfl, rfl⟩ := hz
      cases h; subst h2
      rfl
    · subst h3
      exact encode_of_controlOfFields h

/-- A frame with a 16-bit argument that decodes is an address command (R103). -/
theorem addrCommand_of_addrForm {mk : Addr → Instr} {op : Byte} {c : BusFrame} {i : Instr} (hop : c.op = op)
    (h : addrForm mk c = .ok i) : ∃ a, i = mk a ∧ addrCommand op a = .command c := by
  obtain ⟨a, rfl, hc⟩ := addrForm_ok.1 h
  exact ⟨a, rfl, by rw [hc, hop, addrCommand]⟩

theorem plainCommand_of_plainForm {j : Instr} {op : Byte} {c : BusFrame} {i : Instr} (hop : c.op = op)
    (h : plainForm j c = .ok i) : i = j ∧ plainCommand op = .command c := by
  obtain ⟨rfl, hc⟩ := plainForm_ok.1 h
  exact ⟨rfl, by rw [hc, hop, plainCommand]⟩

/-- A display-mode byte is its high half, 9, and its mode bits (R101). -/
theorem displayMode_byte {op : Byte} (h : op.extractLsb' 4 4 = 0x9) : op = 0x9#4 ++ op.extractLsb' 0 4 := by
  revert op; decide

theorem encode_of_decodeCommand {c : BusFrame} {i : Instr} (h : decodeCommand c = .ok i) :
    encode i = .command c := by
  rcases decodeCommand_cases h with h | h | h | h | h | h | h | h | h | ⟨hop, hd, rfl⟩
  iterate 5
    obtain ⟨a, rfl, hc⟩ := addrCommand_of_addrForm h.1 h.2
    exact hc
  · obtain ⟨rfl, hc⟩ := plainCommand_of_plainForm h.1 h.2
    exact hc
  · obtain ⟨rfl, hc⟩ := plainCommand_of_plainForm (displayMode_byte h.1) h.2
    exact hc
  iterate 2
    obtain ⟨rfl, hc⟩ := plainCommand_of_plainForm h.1 h.2
    exact hc
  · rw [encode, ← hop, ← hd]

theorem encode_of_decode {f : Frame} {i : Instr} (h : decode f = .ok i) : encode i = f := by
  cases f with
  | request r =>
    obtain ⟨hf, hl⟩ := decode_request.1 h
    rw [encode_of_requestOfFields hf hl, toWord_ofWord]
  | command c => exact encode_of_decodeCommand h

/-- Only a `WRITE` can be ill-formed (R97), and it is no bus command. -/
theorem wellFormed_of_command {i : Instr} (h : isRequest i = false) : WellFormed i = true := by
  cases i with
  | write n payload => cases h
  | _ => rfl

/-- Settles O2: each way a frame decodes leaves its fields or its bytes in the instruction (`encode_of_decode`). -/
theorem encodeOfDecodeIsTheFrame : Obligations.EncodeOfDecodeIsTheFrame := by
  intro f i h
  refine ⟨encode_of_decode h, ?_⟩
  cases f with
  | request r => exact (isRequest_of_decode h).2
  | command c => exact wellFormed_of_command (isCommand_of_decode h)

end Sys2Proof
end

section
/-! Proofs of the rows of the opcode table (30_encoding.md rules R96 and R102): the words and command bytes that have a
meaning are those that meet a row. -/

namespace Sys2Proof

open Machine

/-! ### Request rows, field by field -/

/-- A word of fields meets a row whose mask and match are words of fields exactly where each field does. -/
theorem meets_toWord {row : Row} {f g h : Fields} (hm : row.mask = g.toWord) (hp : row.pattern = h.toWord) :
    row.Meets f.toWord ↔ f.op &&& g.op = h.op ∧ f.cmd &&& g.cmd = h.cmd ∧ f.sel &&& g.sel = h.sel ∧
      f.arg &&& g.arg = h.arg := by
  rw [Row.Meets, hm, hp, toWord_and, toWord_inj, Fields.mk.injEq]

/-- Whether a word's fields spell a request does not hang on the payload (R96). -/
theorem requestOfFields_isSome_payload (f : Fields) (payload payload' : List Byte) :
    (requestOfFields f payload).isSome = (requestOfFields f payload').isSome := by
  unfold requestOfFields
  split_ifs <;> rfl

/-- Fields that spell a request spell one with a payload of the length they give. -/
theorem decodes_of_isSome {f : Fields} (h : (requestOfFields f []).isSome = true) :
    ∃ payload i, decode (.request ⟨f.toWord, payload⟩) = .ok i := by
  rw [requestOfFields_isSome_payload f [] (zeros (payloadLength f))] at h
  obtain ⟨i, hi⟩ := Option.isSome_iff_exists.1 h
  exact ⟨_, i, decode_fields hi (by simp [zeros])⟩

theorem and_four (x : BitVec 4) : x &&& 0xF = x := BitVec.and_allOnes
theorem and_eight (x : BitVec 8) : x &&& 0xFF = x := BitVec.and_allOnes
theorem and_sixteen (x : BitVec 16) : x &&& 0xFFFF = x := BitVec.and_allOnes

/-- A selector whose bits 7 to 1 are zero is 0 or 1 (R94). -/
theorem bySel_isSome {α : Type} {sel : BitVec 8} (h : sel &&& 0xFE = 0) (zero one : α) :
    (bySel sel zero one).isSome = true := by
  have hs : sel = 0 ∨ sel = 1 := by revert sel; decide
  rcases hs with rfl | rfl <;> rfl

theorem flagOfSel_isSome {sel : BitVec 8} (h : sel &&& 0x7C = 0) : (flagOfSel sel).isSome = true := by
  have hs : sel.extractLsb' 2 5 = 0 := by revert sel; decide
  rw [flagOfSel, if_pos hs]
  rfl

/-- The fields of a word that meets a request row spell a request: the row fixes the fields that choose the request,
and of a selector the bits that R94 has zero. -/
theorem isSome_of_meets {f : Fields} {row : Row} (hr : row ∈ requestRows) (h : row.Meets f.toWord) :
    (requestOfFields f []).isSome = true := by
  obtain ⟨op, cmd, sel, arg⟩ := f
  have fields : ∀ g k : Fields, row.mask = g.toWord → row.pattern = k.toWord →
      op &&& g.op = k.op ∧ cmd &&& g.cmd = k.cmd ∧ sel &&& g.sel = k.sel ∧ arg &&& g.arg = k.arg :=
    fun g k hg hk => (meets_toWord hg hk).1 h
  simp only [requestRows, List.mem_cons, List.not_mem_nil, or_false] at hr
  rcases hr with rfl | rfl | rfl | rfl | rfl | rfl | rfl | rfl | rfl | rfl
  · have hf := fields ⟨0xF, 0xF, 0xFF, 0xFFFF⟩ ⟨0, 0, 0, 0⟩ rfl rfl
    simp only [and_four, and_eight, and_sixteen] at hf
    obtain ⟨rfl, rfl, rfl, rfl⟩ := hf
    rfl
  · have hf := fields ⟨0xF, 0xF, 0xFF, 0⟩ ⟨1, 0, 0, 0⟩ rfl rfl
    simp only [and_four, and_eight] at hf
    obtain ⟨rfl, rfl, rfl, -⟩ := hf
    rfl
  · have hf := fields ⟨0xF, 0xF, 0xFF, 0⟩ ⟨2, 0, 0, 0⟩ rfl rfl
    simp only [and_four, and_eight] at hf
    obtain ⟨rfl, rfl, rfl, -⟩ := hf
    rfl
  · have hf := fields ⟨0xF, 0xF, 0xFF, 0⟩ ⟨3, 0, 0, 0⟩ rfl rfl
    simp only [and_four, and_eight] at hf
    obtain ⟨rfl, rfl, rfl, -⟩ := hf
    rfl
  · have hf := fields ⟨0xF, 0xF, 0xFE, 0xFFFF⟩ ⟨3, 1, 0, 0⟩ rfl rfl
    simp only [and_four, and_sixteen] at hf
    obtain ⟨rfl, rfl, hs, rfl⟩ := hf
    exact (Option.isSome_map ..).trans (bySel_isSome hs EntryMode.text .graphics)
  · have hf := fields ⟨0xF, 0xF, 0xFF, 0⟩ ⟨3, 2, 0, 0⟩ rfl rfl
    simp only [and_four, and_eight] at hf
    obtain ⟨rfl, rfl, rfl, -⟩ := hf
    rfl
  · have hf := fields ⟨0xF, 0xF, 0x7C, 0xFFFF⟩ ⟨3, 3, 0, 0⟩ rfl rfl
    simp only [and_four, and_sixteen] at hf
    obtain ⟨rfl, rfl, hs, rfl⟩ := hf
    exact flagOfSel_isSome hs
  · have hf := fields ⟨0xF, 0xF, 0xFE, 0⟩ ⟨3, 4, 0, 0⟩ rfl rfl
    simp only [and_four] at hf
    obtain ⟨rfl, rfl, hs, -⟩ := hf
    exact (Option.isSome_map ..).trans (bySel_isSome hs Region.text .graphics)
  · have hf := fields ⟨0xF, 0xF, 0xFE, 0xFFFF⟩ ⟨3, 5, 0, 0⟩ rfl rfl
    simp only [and_four, and_sixteen] at hf
    obtain ⟨rfl, rfl, hs, rfl⟩ := hf
    exact (Option.isSome_map ..).trans (bySel_isSome hs Region.text .graphics)
  · have hf := fields ⟨0xF, 0xF, 0xFF, 0xFFFF⟩ ⟨3, 6, 0, 0⟩ rfl rfl
    simp only [and_four, and_eight, and_sixteen] at hf
    obtain ⟨rfl, rfl, rfl, rfl⟩ := hf
    rfl

/-! ### An instruction and its row -/

/-- The word or command byte of every instruction's spelling meets the instruction's row. -/
theorem row_meets_encode (i : Instr) : i.row.Meets (encode i).bits := by
  cases i with
  | openReq => exact Laws.EncodesItsRow.openReq
  | write n payload => exact Laws.EncodesItsRow.write n payload
  | read n => exact Laws.EncodesItsRow.read n
  | ctrlReset rows cols => exact Laws.EncodesItsRow.ctrlReset rows cols
  | ctrlSetEntry m => exact Laws.EncodesItsRow.ctrlSetEntry m
  | ctrlSetAdp a => exact Laws.EncodesItsRow.ctrlSetAdp a
  | ctrlSetFlag f on => exact Laws.EncodesItsRow.ctrlSetFlag f on
  | ctrlSetBase r a => exact Laws.EncodesItsRow.ctrlSetBase r a
  | ctrlClear r => exact Laws.EncodesItsRow.ctrlClear r
  | ctrlGetStatus => exact Laws.EncodesItsRow.ctrlGetStatus
  | setAdp a => exact Laws.EncodesItsRow.setAdp a
  | txtHome a => exact Laws.EncodesItsRow.txtHome a
  | txtArea p => exact Laws.EncodesItsRow.txtArea p
  | gfxHome a => exact Laws.EncodesItsRow.gfxHome a
  | gfxArea p => exact Laws.EncodesItsRow.gfxArea p
  | modeXor => exact Laws.EncodesItsRow.modeXor
  | displayMode m => exact Laws.EncodesItsRow.displayMode m
  | autoWrite => exact Laws.EncodesItsRow.autoWrite
  | autoRead => exact Laws.EncodesItsRow.autoRead
  | autoReset cond => exact Laws.EncodesItsRow.autoReset cond

theorem row_meets_of_decode {f : Frame} {i : Instr} (h : decode f = .ok i) : i.row.Meets f.bits :=
  encode_of_decode h ▸ row_meets_encode i

/-- The row of a host request is one of the request table, that of a bus command one of the command table. -/
theorem row_mem (i : Instr) : i.row ∈ if isRequest i then requestRows else commandRows := by
  cases i with
  | _ => simp [Instr.row, isRequest, requestRows, commandRows]

theorem row_mem_requestRows {i : Instr} (h : isRequest i = true) : i.row ∈ requestRows := by
  simpa [h] using row_mem i

theorem row_mem_commandRows {i : Instr} (h : isRequest i = false) : i.row ∈ commandRows := by
  simpa [h] using row_mem i

/-- Two rows that one word meets agree in the bits both masks test. -/
theorem meets_both {row row' : Row} {w : Word} (h : row.Meets w) (h' : row'.Meets w) :
    row.pattern &&& row'.mask = row'.pattern &&& row.mask := by
  rw [← h, ← h', BitVec.and_assoc, BitVec.and_assoc, BitVec.and_comm row.mask]

/-- No two request rows agree in the bits both their masks test. -/
theorem requestRows_apart : ∀ row ∈ requestRows, ∀ row' ∈ requestRows,
    row.pattern &&& row'.mask = row'.pattern &&& row.mask → row = row' := by decide

theorem request_supported_iff (w : Word) :
    (∃ payload i, decode (.request ⟨w, payload⟩) = .ok i) ↔ ∃ row ∈ requestRows, row.Meets w := by
  constructor
  · rintro ⟨payload, i, h⟩
    exact ⟨i.row, row_mem_requestRows (isRequest_of_decode h).1, row_meets_of_decode h⟩
  · rintro ⟨row, hr, h⟩
    rw [← toWord_ofWord w] at h ⊢
    exact decodes_of_isSome (isSome_of_meets hr h)

/-- Settles O3: a word that decodes meets its instruction's row (`row_meets_of_decode`), and a word that meets a row has
fields that spell a request (`isSome_of_meets`). -/
theorem requestWordsAreTheTableRows : Obligations.RequestWordsAreTheTableRows := by
  intro w
  refine ⟨request_supported_iff w, fun row hr row' hr' h h' => requestRows_apart row hr row' hr' (meets_both h h'),
    fun payload i h => ⟨row_mem_requestRows (isRequest_of_decode h).1, row_meets_of_decode h⟩, ?_⟩
  intro hno payload
  rw [decode_unsupported, ← Option.not_isSome_iff_eq_none, requestOfFields_isSome_payload _ payload []]
  intro hsome
  obtain ⟨payload', i, h⟩ := decodes_of_isSome hsome
  rw [toWord_ofWord] at h
  exact hno _ (row_mem_requestRows (isRequest_of_decode h).1) (row_meets_of_decode h)

/-! ### Command rows -/

/-- The command bytes that meet a row are those the engine emits (R102). -/
theorem mem_emittedBytes_iff_meets {op : Byte} :
    op ∈ emittedBytes ↔ ∃ row ∈ commandRows, row.Meets (op.setWidth 32) := by
  revert op; decide

/-- Each of them has a meaning, with a 16-bit argument or with none. -/
theorem decodes_of_emitted {op : Byte} (h : op ∈ emittedBytes) :
    ∃ data cond i, decode (.command ⟨op, data, cond⟩) = .ok i := by
  have hd : ∀ op ∈ emittedBytes,
      (decode (.command ⟨op, if takesAddr op then [0, 0] else [], .commandReady⟩)).toOption.isSome = true := by decide
  have hs := hd op h
  revert hs
  rcases hx : decode (.command ⟨op, if takesAddr op then [0, 0] else [], .commandReady⟩) with e | i
  · exact fun hs => nomatch hs
  · exact fun _ => ⟨_, _, i, hx⟩

/-- A byte the engine does not emit is none of the ten commands' (R104). -/
theorem decodeCommand_unknown {c : BusFrame} (h : c.op ∉ emittedBytes) :
    decodeCommand c = .error .unknownCommand := by
  have hne : ∀ b ∈ emittedBytes, c.op ≠ b := fun b hb e => h (e ▸ hb)
  have hmode : c.op.extractLsb' 4 4 ≠ 0x9 := fun e => h (by
    rw [displayMode_byte e]
    generalize c.op.extractLsb' 0 4 = m
    revert m; decide)
  rw [decodeCommand, if_neg (hne _ (by decide)), if_neg (hne _ (by decide)), if_neg (hne _ (by decide)),
    if_neg (hne _ (by decide)), if_neg (hne _ (by decide)), if_neg (hne _ (by decide)), if_neg hmode,
    if_neg (hne _ (by decide)), if_neg (hne _ (by decide)), if_neg (hne _ (by decide))]

/-- Settles O4: a command byte has a meaning exactly where the engine emits it, which is where it meets a row. -/
theorem commandBytesAreTheTableRows : Obligations.CommandBytesAreTheTableRows := by
  intro op
  refine ⟨⟨?_, fun h => decodes_of_emitted (mem_emittedBytes_iff_meets.2 h)⟩, fun hno data cond => ?_⟩
  · rintro ⟨data, cond, i, h⟩
    exact ⟨i.row, row_mem_commandRows (isCommand_of_decode h), row_meets_of_decode h⟩
  · refine decodeCommand_unknown fun h => ?_
    obtain ⟨row, hr, hm⟩ := mem_emittedBytes_iff_meets.1 h
    exact hno row hr hm

/-! ### Words and lines written out -/

/-- Settles O5: the words and bytes are literals, and the decoder computes. -/
theorem specWordsDecode : Obligations.SpecWordsDecode := by
  unfold Obligations.SpecWordsDecode
  decide

/-- Settles O6: the lines are literals, and the assembler computes. -/
theorem writtenRequestsAssemble : Obligations.WrittenRequestsAssemble := by
  unfold Obligations.WrittenRequestsAssemble
  decide

end Sys2Proof
end

section
/-! Proofs of the request port and of a step's choice (10_state.md §7, 44_control_surface.md R250, 60_exceptions.md R305):
what a step takes, and what it leaves pending. -/

namespace Sys2Proof.Machine

/-! ### What a step takes -/

theorem workOfRequest_ok {r : Submission} {i : Instr} (h : decode (.request r) = .ok i) (s : State) :
    workOfRequest r s = .run i s := by
  simp only [workOfRequest, h]

theorem workOfRequest_malformed {r : Submission} (h : decode (.request r) = .error .malformedPair) (s : State) :
    workOfRequest r s = .malformed s := by
  simp only [workOfRequest, h]

/-- With the lock clear, a command at the mux's own port is the work, before any request (assumption 8). -/
theorem nextWork_command {s : State} {c : BusFrame} (hl : s.ctl.lock = false) (hm : s.port.mux = some c) :
    nextWork s = workOfCommand c s := by
  simp only [nextWork, hl, hm, Bool.false_eq_true, if_false]

theorem workOfCommand_ok {c : BusFrame} {i : Instr} (h : decode (.command c) = .ok i) (s : State) :
    workOfCommand c s = .run i { s with port := { s.port with mux := none } } := by
  simp only [workOfCommand, h]

theorem workOfCommand_error {c : BusFrame} {e : Reject} (h : decode (.command c) = .error e) (s : State) :
    workOfCommand c s = .noCommand c.op := by
  simp only [workOfCommand, h]

/-- Settles O7: the work is the command at the mux's port or the request taken, and it is run as it decodes. -/
theorem stepRunsTheDecodedInstruction : Obligations.StepRunsTheDecodedInstruction := by
  intro s i hl
  refine ⟨fun c hm hd => ?_, fun r p hm ht hd => ?_⟩
  · rw [step, nextWork_command hl hm, workOfCommand_ok hd]
  · rw [step, nextWork_request hl hm ht, workOfRequest_ok hd]

/-- The word of a `WRITE` spells it with any payload; the pair is malformed where the length is another (R97). -/
theorem decode_write_word (n : BitVec 16) (payload : List Byte) :
    decode (.request ⟨0x1000#16 ++ n, payload⟩) =
      if payload.length = n.toNat then .ok (.write n payload) else .error .malformedPair := by
  rw [decode, decodeRequest, ofWord_write]
  rfl

/-- Settles O9: `decode_write_word` decides the pair, and a malformed one only shows its refusal. -/
theorem malformedPairIsRefusedAtThePort : Obligations.MalformedPairIsRefusedAtThePort := by
  refine ⟨fun n payload => ⟨fun h => ?_, fun h => ?_⟩, fun s r p hl hm ht hd => ?_⟩
  · rw [decode_write_word, if_pos h]
  · rw [decode_write_word, if_neg h]
  · rw [step, nextWork_request hl hm ht, workOfRequest_malformed hd]
    rfl

theorem nextWork_locked {s : State} (h : s.ctl.lock = true) : nextWork s = .idle := if_pos h

theorem nextWork_nothing {s : State} (hm : s.port.mux = none) (hp : s.port.pending = []) : nextWork s = .idle := by
  have ht : s.port.take = none := by rw [Port.take, hp]
  simp only [nextWork, hm, ht, ite_self]

theorem step_idle {s : State} (h : nextWork s = .idle) : step s = .next s := by
  rw [step, h]

/-- Settles O10: in both cases there is no work. -/
theorem nothingIsTakenWhileLocked : Obligations.NothingIsTakenWhileLocked := fun _ =>
  ⟨fun h => step_idle (nextWork_locked h), fun hm hp => step_idle (nextWork_nothing hm hp)⟩

/-! ### The choice among pending requests (R305) -/

/-- A choice moves the grants or the counter and nothing else of the port. -/
theorem choice_port (p : Port) : p.choice.2.log = p.log ∧ p.choice.2.mux = p.mux ∧ p.choice.2.muxResult = p.muxResult := by
  unfold Port.choice
  split <;> exact ⟨rfl, rfl, rfl⟩

/-- The request taken stands at some place among the pending ones, and the others stay. -/
theorem take_spec {p q : Port} {r : Submission} (h : p.take = some (r, q)) :
    (∃ k, p.pending[k]? = some r ∧ q.pending = p.pending.eraseIdx k) ∧
      q.log = p.log ∧ q.mux = p.mux ∧ q.muxResult = p.muxResult := by
  unfold Port.take at h
  split at h
  · cases h
  · rename_i x hp
    cases h
    exact ⟨⟨0, by rw [hp]; rfl, by rw [hp]; rfl⟩, rfl, rfl, rfl⟩
  · rename_i x y rest hp
    cases h
    have hk : p.choice.1 % (rest.length + 2) < p.pending.length := by
      rw [hp]
      exact Nat.mod_lt _ (by omega)
    exact ⟨⟨p.choice.1 % (rest.length + 2), by rw [List.getD_eq_getElem _ _ hk, List.getElem?_eq_getElem hk], by rw [hp]⟩,
      choice_port p⟩

/-- A grant of a pending request's place is followed. -/
theorem take_granted {p : Port} {k : Nat} {r : Submission} (h : p.pending[k]? = some r) :
    ∃ q, ({ p with grants := k :: p.grants } : Port).take = some (r, q) := by
  obtain ⟨hk, hr⟩ := List.getElem?_eq_some_iff.1 h
  unfold Port.take
  split
  · rename_i hp
    simp only at hp
    rw [hp] at h
    cases h
  · rename_i x hp
    simp only at hp
    have hx : k = 0 ∧ x = r := by
      rw [hp] at h
      cases k with
      | zero => exact ⟨rfl, Option.some.inj h⟩
      | succ k => cases h
    exact ⟨_, by rw [hx.2]⟩
  · rename_i x y rest hp
    simp only at hp
    have hlen : k < rest.length + 2 := by
      rw [hp] at hk
      exact hk
    refine ⟨_, congrArg some (Prod.ext ?_ rfl)⟩
    simp only [Port.choice, Nat.mod_eq_of_lt hlen]
    rw [List.getD_eq_getElem _ _ hk, hr]

/-- Settles O11: the place taken is the choice's, modulo their number (`take_spec`), and a grant may name any
(`take_granted`). -/
theorem anyPendingRequestMayBeNext : Obligations.AnyPendingRequestMayBeNext :=
  ⟨fun _ _ _ => take_spec, fun _ _ _ => take_granted⟩

end Sys2Proof.Machine
end

section
/-! What every instruction can do, said once: the registers it may write, the command bytes it strobes, and what those say
of `DISPLAY_MODE` (10_state.md §9, 43_layout_mode.md, 44_control_surface.md). -/

namespace Sys2Proof.Machine

/-! ### What a list of cycles strobes -/

/-- The lists and registers a `Did` speaks of are fixed by the two states. -/
theorem Did.unique {s t : State} {r r' : Regs} {l l' : List BusCycle} (h : Did s t r l) (h' : Did s t r' l') :
    r = r' ∧ l = l' := by
  have ht := congrArg Bus.trace (h.bus.symm.trans h'.bus)
  rw [run_trace, run_trace] at ht
  exact ⟨h.regs.symm.trans h'.regs, List.append_cancel_left ht⟩

theorem strobe_mem_transfers {op : Byte} {l : List BusCycle} :
    .commandWrite op ∈ transfers l ↔ .commandWrite op ∈ l := by
  simp [transfers, BusCycle.isTransfer]

/-- What was strobed on the way through the transfers `w`: one of theirs, or the exit of a burst. -/
theorem strobe_of_stopped {w l : List BusCycle} (h : transfers l = w ∨ Stopped w l) {op : Byte}
    (hm : .commandWrite op ∈ l) : .commandWrite op ∈ w ∨ op = 0xB2 := by
  rw [← strobe_mem_transfers] at hm
  rcases h with h | ⟨p, hp, -, h | ⟨-, h⟩⟩
  · exact .inl (h ▸ hm)
  · exact .inl (hp.subset (h ▸ hm))
  · rw [h, List.mem_append] at hm
    exact hm.imp (fun hm => hp.subset hm) (by simp)

/-- Cycles that strobe no mode command leave `DISPLAY_MODE` where the registers do (R25). -/
theorem modeAfter_kept {r r' : Regs} {l : List BusCycle} (h : ∀ op, .commandWrite op ∈ l → op.extractLsb' 4 4 ≠ 0x9)
    (hm : r'.displayMode = r.displayMode) (hh : r'.displayModeHeld = r.displayModeHeld) : ModeAfter r l r' := by
  rw [ModeAfter, lastModeCommand_none h]
  exact ⟨hm, hh⟩

theorem modeAfter_nil (r : Regs) : ModeAfter r [] r := ⟨rfl, rfl⟩

/-- An address command strobes its byte, and a burst its entry and exit; no other byte of them is a command. -/
theorem strobe_addrCycles {op o : Byte} {a : Addr} (h : .commandWrite o ∈ addrCycles op a) : o = op := by
  simpa [addrCycles] using h

theorem strobe_burstCycles {sent : List Byte} {op : Byte} (h : .commandWrite op ∈ burstCycles sent) :
    op = 0xB0 ∨ op = 0xB2 := by
  unfold burstCycles at h
  split at h
  · cases h
  · simpa using h

/-- A read burst strobes its entry and its exit, and nothing else (R180). -/
theorem readBurst_strobes {n : Nat} {l : List BusCycle} {r : Response} (h : ReadBurst n l r) (op : Byte)
    (hm : .commandWrite op ∈ l) : op = 0xB1 ∨ op = 0xB2 := by
  rw [← strobe_mem_transfers] at hm
  cases h with
  | entryFailed ht hr => rw [ht] at hm; cases hm
  | moved exit hk ht hx hr hc =>
    rw [ht] at hm
    rcases hx with rfl | ⟨rfl, -⟩
    · simpa using hm
    · exact .inl (by simpa using hm)

/-! ### Which registers an instruction may write -/

/-- The registers `regs` that the instruction `i` may leave where it met the registers `r` (R22 to R27, R33): each
register is written by its own requests alone. -/
inductive Writes (p : Params) (r : Regs) (i : Instr) : Regs → Prop
  | nothing : Writes p r i r
  | entry (m : EntryMode) (hi : i = .ctrlSetEntry m) : Writes p r i (r.setEntry m)
  | shadow (a : Addr) (hi : i = .ctrlSetAdp a ∨ ∃ region, i = .ctrlClear region) : Writes p r i (r.setShadow a)
  | mode (f : Flag) (on : Bool) (hi : i = .ctrlSetFlag f on) : Writes p r i (r.setMode (flaggedMode r f on))
  | base (region : Region) (a : Addr) (hi : i = .ctrlSetBase region a)
      (hv : LayoutValid p.addrSpace.val (r.setBase region a).textBase.toNat (r.setBase region a).gfxBase.toNat
        r.rows.toNat r.cols.toNat) : Writes p r i (r.setBase region a)
  | reset (rows cols : Byte) (hi : i = .openReq ∨ i = .ctrlReset rows cols) (hv : ResetValid p rows cols) :
      Writes p r i (resetRegs rows cols r)
  | resetStopped (rows cols : Byte) (hi : i = .openReq ∨ i = .ctrlReset rows cols) {regs : Regs}
      (hk : ResetKeeps (committed rows cols r) regs) : Writes p r i regs

/-- The rule of the instruction `i`: it strobes only the engine's command bytes, `DISPLAY_MODE` follows the mode commands
it strobes, and it writes only the registers that are its own. -/
def Behaves (i : Instr) (body : State → State × Response) : Prop :=
  ∀ s, ∃ l regs, Did s (body s).1 regs l ∧ OnlyEmitted l ∧ ModeAfter s.regs l regs ∧ Writes s.params s.regs i regs

theorem behaves_whenReady {i : Instr} {body : State → State × Response} (h : Behaves i body) :
    Behaves i (whenReady body) := by
  intro s
  unfold whenReady
  split
  · exact h s
  · exact ⟨[], s.regs, (Ran.refl s).did, onlyEmitted_nil, modeAfter_nil _, .nothing⟩

theorem behaves_write (n : BitVec 16) (payload : List Byte) : Behaves (.write n payload) (writeRule payload) := by
  intro s
  obtain ⟨l, hr, he, hc⟩ := burstWrite_code payload (s.regs.entryMode == .text) s
  refine ⟨l, s.regs, hr.did, he, modeAfter_kept (fun op hm => ?_) rfl rfl, .nothing⟩
  rcases strobe_of_stopped (hc.imp And.right And.right) hm with h | rfl
  · rcases strobe_burstCycles h with rfl | rfl <;> decide
  · decide

theorem behaves_read (n : BitVec 16) : Behaves (.read n) (burstRead n.toNat) := by
  intro s
  by_cases hn : n.toNat = 0
  · rw [hn, burstRead_zero]
    exact ⟨[], s.regs, (Ran.refl s).did, onlyEmitted_nil, modeAfter_nil _, .nothing⟩
  · obtain ⟨l, hr, he⟩ := burstRead_ran n.toNat s
    obtain ⟨l', hr', hw⟩ := burstRead_spec n.toNat s hn
    obtain ⟨-, rfl⟩ := hr.did.unique hr'.did
    refine ⟨l, s.regs, hr.did, he, modeAfter_kept (fun op hm => ?_) rfl rfl, .nothing⟩
    rcases readBurst_strobes hw op hm with rfl | rfl <;> decide

/-- A reset leaves its registers or stops on the way, with nothing written where its check fails (R206, R215, R226). -/
theorem resetEngine_writes {i : Instr} {rows cols : Byte} (hi : i = .openReq ∨ i = .ctrlReset rows cols) (s : State) :
    ∃ l regs, Did s (resetEngine rows cols s).1 regs l ∧ OnlyEmitted l ∧ ModeAfter s.regs l regs ∧
      Writes s.params s.regs i regs := by
  by_cases hv : ResetValid s.params rows cols
  · obtain ⟨l, regs, hd, he, hc⟩ := resetEngine_spec hv
    obtain ⟨l', regs', hd', hm, -⟩ := resetEngine_follows hv
    obtain ⟨rfl, rfl⟩ := hd.unique hd'
    refine ⟨l, regs, hd, he, hm, ?_⟩
    rcases hc with ⟨-, rfl, -⟩ | ⟨-, hk, -⟩
    · exact .reset rows cols hi hv
    · exact .resetStopped rows cols hi hk
  · rw [resetEngine_invalid hv]
    exact ⟨[], s.regs, (Ran.refl s).did, onlyEmitted_nil, modeAfter_nil _, .nothing⟩

theorem behaves_ctrlReset (rows cols : Byte) :
    Behaves (.ctrlReset rows cols) (plainResult (resetEngine rows cols)) :=
  resetEngine_writes (.inr rfl)

/-- `OPEN` on an engine that is not `Ready` leaves the state its reset leaves (R251). -/
theorem openBody_fst {s : State} (h : s.regs.life ≠ .ready) :
    (openBody s).1 = (resetEngine s.params.cfgRows s.params.cfgCols s).1 := by
  rw [openBody, if_neg h]
  rcases resetEngine s.params.cfgRows s.params.cfgCols s with ⟨t, c⟩
  cases c <;> rfl

theorem openBody_ready {s : State} (h : s.regs.life = .ready) : openBody s = (s, Response.plain .ok) := if_pos h

theorem behaves_openReq : Behaves .openReq openBody := by
  intro s
  by_cases h : s.regs.life = .ready
  · rw [openBody_ready h]
    exact ⟨[], s.regs, (Ran.refl s).did, onlyEmitted_nil, modeAfter_nil _, .nothing⟩
  · rw [openBody_fst h]
    exact resetEngine_writes (.inl rfl) s

theorem behaves_ctrlSetEntry (m : EntryMode) :
    Behaves (.ctrlSetEntry m) (plainResult (writing (Regs.setEntry m))) := fun s =>
  ⟨[], s.regs.setEntry m, ⟨rfl, rfl, rfl, rfl⟩, onlyEmitted_nil, ⟨rfl, rfl⟩, .entry m rfl⟩

theorem behaves_ctrlSetAdp (a : Addr) : Behaves (.ctrlSetAdp a) (plainResult (setAddressPointer a)) := by
  intro s
  obtain ⟨l, regs, hd, he, hc⟩ := spec_setAddressPointer a s
  have hm : ∀ op, .commandWrite op ∈ l → op.extractLsb' 4 4 ≠ 0x9 := fun op hm => by
    rcases strobe_of_stopped (hc.imp (fun h => h.2.2) (fun h => h.2.2)) hm with h | rfl
    · rw [strobe_addrCycles h]; decide
    · decide
  refine ⟨l, regs, hd, he, ?_⟩
  rcases hc with ⟨-, rfl, -⟩ | ⟨-, rfl, -⟩
  · exact ⟨modeAfter_kept hm rfl rfl, .shadow a (.inl rfl)⟩
  · exact ⟨modeAfter_kept hm rfl rfl, .nothing⟩

theorem behaves_ctrlSetFlag (f : Flag) (on : Bool) :
    Behaves (.ctrlSetFlag f on) (plainResult (setDisplayFlag f on)) := by
  intro s
  obtain ⟨l, regs, hd, he, hc⟩ := spec_setDisplayFlag f on s
  obtain ⟨l', regs', hd', -, -, hm, -⟩ :=
    follows_setMode s.regs.textBase s.regs.gfxBase (flaggedMode s.regs f on) s rfl rfl
  obtain ⟨rfl, rfl⟩ := hd.unique hd'
  refine ⟨l, regs, hd, he, hm, ?_⟩
  rcases hc with ⟨-, rfl, -⟩ | ⟨-, rfl, -⟩
  · exact .mode f on rfl
  · exact .nothing

theorem behaves_ctrlSetBase (r : Region) (a : Addr) :
    Behaves (.ctrlSetBase r a) (plainResult (setBaseAddress r a)) := by
  intro s
  by_cases hv : BaseValid s r a
  · have hpast : setBaseAddress r a s = Action.andThen (muxHome r a) (writing (Regs.setBase r a)) s := if_pos hv
    obtain ⟨l, regs, hd, he, hc⟩ := spec_setBase r a s
    have hm : ∀ op, .commandWrite op ∈ l → op.extractLsb' 4 4 ≠ 0x9 := fun op hm => by
      rcases strobe_of_stopped (hc.imp (fun h => h.2.2) (fun h => h.2.2)) hm with h | rfl
      · rw [strobe_addrCycles h]
        cases r <;> decide
      · decide
    refine ⟨l, regs, by rw [plainResult, hpast]; exact hd, he, ?_⟩
    rcases hc with ⟨-, rfl, -⟩ | ⟨-, rfl, -⟩
    · exact ⟨modeAfter_kept hm (by cases r <;> rfl) (by cases r <;> rfl), .base r a rfl hv⟩
    · exact ⟨modeAfter_kept hm rfl rfl, .nothing⟩
  · rw [plainResult, setBaseAddress_invalid hv]
    exact ⟨[], s.regs, (Ran.refl s).did, onlyEmitted_nil, modeAfter_nil _, .nothing⟩

theorem behaves_ctrlClear (r : Region) : Behaves (.ctrlClear r) (clearRegion r) := by
  intro s
  obtain ⟨l, regs, hd, he, hc⟩ := spec_clearStep r s
  obtain ⟨l', regs', hd', -, -, hm, -⟩ := follows_clearStep s.regs.textBase s.regs.gfxBase r s rfl rfl
  obtain ⟨rfl, rfl⟩ := hd.unique hd'
  refine ⟨l, regs, hd, he, hm, ?_⟩
  rcases hc with ⟨-, rfl, -⟩ | ⟨-, rfl | rfl, -⟩
  · exact .shadow _ (.inr ⟨r, rfl⟩)
  · exact .nothing
  · exact .shadow _ (.inr ⟨r, rfl⟩)

theorem behaves_ctrlGetStatus : Behaves .ctrlGetStatus statusRule := fun s =>
  ⟨_, s.regs, (statusRule_ran s).did, by simp [OnlyEmitted], modeAfter_kept (by simp) rfl rfl, .nothing⟩

theorem answer_behaves {i : Instr} {body : State → State × Response} (h : Behaves i body) (s : State) :
    ∃ regs l r, answer body s = .next (s.done regs l r) ∧ OnlyEmitted l ∧ ModeAfter s.regs l regs ∧
      Writes s.params s.regs i regs := by
  obtain ⟨l, regs, hd, hrest⟩ := h s.acquire
  exact ⟨regs, l, _, answer_did hd, hrest⟩

/-- A well-formed host request is done, and its rule behaves. -/
theorem exec_writes (i : Instr) (s : State) (hi : isRequest i = true) (hw : WellFormed i = true) :
    ∃ regs l r, exec i s = .next (s.done regs l r) ∧ OnlyEmitted l ∧ ModeAfter s.regs l regs ∧
      Writes s.params s.regs i regs := by
  cases i with
  | openReq => exact answer_behaves behaves_openReq s
  | write n payload =>
    have harm : exec (.write n payload) s = answer (whenReady (writeRule payload)) s := if_pos (beq_iff_eq.1 hw)
    rw [harm]
    exact answer_behaves (behaves_whenReady (behaves_write n payload)) s
  | read n => exact answer_behaves (behaves_whenReady (behaves_read n)) s
  | ctrlReset rows cols => exact answer_behaves (behaves_ctrlReset rows cols) s
  | ctrlSetEntry m => exact answer_behaves (behaves_whenReady (behaves_ctrlSetEntry m)) s
  | ctrlSetAdp a => exact answer_behaves (behaves_whenReady (behaves_ctrlSetAdp a)) s
  | ctrlSetFlag f on => exact answer_behaves (behaves_whenReady (behaves_ctrlSetFlag f on)) s
  | ctrlSetBase r a => exact answer_behaves (behaves_whenReady (behaves_ctrlSetBase r a)) s
  | ctrlClear r => exact answer_behaves (behaves_whenReady (behaves_ctrlClear r)) s
  | ctrlGetStatus => exact answer_behaves (behaves_whenReady behaves_ctrlGetStatus) s
  | setAdp | txtHome | txtArea | gfxHome | gfxArea | modeXor | displayMode | autoWrite | autoRead | autoReset => cases hi

/-- A bus command given to the mux sends its transfers, or stops short of its strobe; it writes no register (R166). -/
theorem exec_command_done {i : Instr} (hi : isRequest i = false) (s : State) :
    ∃ l c, exec i s = .next (s.commandDone l c) ∧ OnlyEmitted l ∧ Sent (commandTransfers i) l c := by
  obtain ⟨f, -, hop, ht, hx⟩ := exec_command hi
  obtain ⟨l, hr, hs⟩ := sendCommand_spec f.op f.data f.cond s.acquire
  obtain ⟨l', regs, hd, he, -⟩ := spec_sendCommand f.op f.data f.cond hop s.acquire
  obtain ⟨-, rfl⟩ := hr.did.unique hd
  exact ⟨l, _, by rw [hx, runCommand_ran hr], he, ht ▸ hs⟩

/-- A `WRITE` of another length than its payload is refused at the port (R97). -/
theorem exec_write_malformed {n : BitVec 16} {payload : List Byte} (h : payload.length ≠ n.toNat) (s : State) :
    exec (.write n payload) s = .next (refusePair s) := if_neg h

/-- No instruction writes a parameter, and each writes only the registers that are its own. -/
theorem exec_next_writes {i : Instr} {s t : State} (h : exec i s = .next t) :
    t.params = s.params ∧ Writes s.params s.regs i t.regs := by
  rcases hi : isRequest i
  · obtain ⟨l, c, hx, -⟩ := exec_command_done hi s
    obtain rfl := Host.Outcome.next.inj (hx.symm.trans h)
    exact ⟨rfl, .nothing⟩
  · by_cases hw : WellFormed i = true
    · obtain ⟨regs, l, r, hx, -, -, hreg⟩ := exec_writes i s hi hw
      obtain rfl := Host.Outcome.next.inj (hx.symm.trans h)
      exact ⟨rfl, hreg⟩
    · cases i with
      | write n payload =>
        have hx := exec_write_malformed (n := n) (payload := payload) (fun e => hw (beq_iff_eq.2 e)) s
        obtain rfl := Host.Outcome.next.inj (hx.symm.trans h)
        exact ⟨rfl, .nothing⟩
      | _ => exact absurd rfl hw

end Sys2Proof.Machine
end

section
/-! Proofs of the invariants of a step (10_state.md §3, §4 and §9, 60_exceptions.md §5): each follows from what an
instruction may write (`Writes`) and from the bus side being a run of cycles. -/

namespace Sys2Proof.Machine

/-! ### What a step leaves -/

/-- What a step from `s` to `t` that issued the cycles `l` leaves: the parameters, registers that its instruction may
write, an engine that is idle or as it was found, and `DISPLAY_MODE` as the mode commands say, unless a command was given
to the mux by itself, which writes no register (R166, assumption 8). -/
structure Stepped (s t : State) (l : List BusCycle) : Prop where
  params : t.params = s.params
  writes : ∃ i, Writes s.params s.regs i t.regs
  bus : t.bus = s.bus.run l
  emitted : OnlyEmitted l
  ctl : t.ctl = s.ctl ∨ t.ctl = Ctl.idle
  mode : (t.port.mux = s.port.mux ∧ ModeAfter s.regs l t.regs) ∨ (s.port.mux ≠ none ∧ t.regs = s.regs)

theorem stepped {s t : State} (h : step s = .next t) : ∃ l, Stepped s t l := by
  rcases step_cases h with rfl | ⟨i, r, p, -, hm, ht, hd, hx⟩ | ⟨i, c, -, hm, hd, hx⟩ | ⟨r, p, -, hm, ht, rfl | rfl⟩
  · exact ⟨[], rfl, ⟨.openReq, .nothing⟩, rfl, onlyEmitted_nil, .inl rfl, .inl ⟨rfl, modeAfter_nil _⟩⟩
  · obtain ⟨hi, hw⟩ := isRequest_of_decode hd
    obtain ⟨regs, l, res, hx', he, hmode, hreg⟩ := exec_writes i { s with port := p } hi hw
    obtain rfl := Host.Outcome.next.inj (hx'.symm.trans hx)
    exact ⟨l, rfl, ⟨i, hreg⟩, rfl, he, .inr rfl, .inl ⟨(take_spec ht).2.2.1, hmode⟩⟩
  · obtain ⟨l, c', hx', he, -⟩ := exec_command_done (isCommand_of_decode hd) { s with port := { s.port with mux := none } }
    obtain rfl := Host.Outcome.next.inj (hx'.symm.trans hx)
    exact ⟨l, rfl, ⟨i, .nothing⟩, rfl, he, .inr rfl, .inr ⟨by simp [hm], rfl⟩⟩
  · exact ⟨[], rfl, ⟨.openReq, .nothing⟩, rfl, onlyEmitted_nil, .inr rfl, .inl ⟨(take_spec ht).2.2.1, modeAfter_nil _⟩⟩
  · exact ⟨[], rfl, ⟨.openReq, .nothing⟩, rfl, onlyEmitted_nil, .inl rfl, .inl ⟨(take_spec ht).2.2.1, modeAfter_nil _⟩⟩

/-! ### The layout (R24) -/

/-- What `LayoutInv` asks of the parameters and the registers (R24, R35). -/
def RegsLayout (p : Params) (r : Regs) : Prop :=
  r.life = .ready →
    r.layoutHeld = true ∧ r.displayModeHeld = true ∧ r.adpShadowHeld = true ∧
    r.rowWidth.toNat = rowWidthOf r.cols.toNat ∧
    LayoutValid p.addrSpace.val r.textBase.toNat r.gfxBase.toNat r.rows.toNat r.cols.toNat

theorem layoutInv_iff (s : State) : LayoutInv s ↔ RegsLayout s.params s.regs := Iff.rfl

theorem rowWidth_toNat (cols : Byte) : (BitVec.ofNat 16 (rowWidthOf cols.toNat)).toNat = rowWidthOf cols.toNat := by
  have := rowWidthOf_le cols.isLt
  rw [BitVec.toNat_ofNat, Nat.mod_eq_of_lt (by omega)]

/-- A graphics base that passed the check fits its register (R205). -/
theorem gfxBase_toNat {p : Params} {rows cols : Byte} (h : ResetValid p rows cols) :
    (BitVec.ofNat 16 (gfxBaseOf rows.toNat cols.toNat)).toNat = gfxBaseOf rows.toNat cols.toNat := by
  have hlt := ((resetValid_iff rows cols p).1 h).2.1
  have hspace := p.addrSpace.isLt
  rw [BitVec.toNat_ofNat, Nat.mod_eq_of_lt (by omega)]

theorem regsLayout_reset {p : Params} {rows cols : Byte} (r : Regs) (h : ResetValid p rows cols) :
    RegsLayout p (resetRegs rows cols r) := by
  refine fun _ => ⟨rfl, rfl, rfl, rowWidth_toNat cols, ?_⟩
  show LayoutValid _ _ (BitVec.ofNat 16 (gfxBaseOf rows.toNat cols.toNat)).toNat _ _
  rw [gfxBase_toNat h]
  exact h

/-- Whatever an instruction writes, the layout stays valid on a `Ready` engine: a base is written past its check, and a
reset that stops is not `Ready`. -/
theorem Writes.regsLayout {p : Params} {r regs : Regs} {i : Instr} (h : Writes p r i regs) (hr : RegsLayout p r) :
    RegsLayout p regs := by
  cases h with
  | nothing => exact hr
  | entry m hi => exact hr
  | shadow a hi =>
    intro hl
    obtain ⟨h1, h2, -, h4⟩ := hr hl
    exact ⟨h1, h2, rfl, h4⟩
  | mode f on hi =>
    intro hl
    obtain ⟨h1, -, h3⟩ := hr hl
    exact ⟨h1, rfl, h3⟩
  | base region a hi hv =>
    intro hl
    cases region with
    | text =>
      obtain ⟨h1, h2, h3, h4, -⟩ := hr hl
      exact ⟨h1, h2, h3, h4, hv⟩
    | graphics =>
      obtain ⟨h1, h2, h3, h4, -⟩ := hr hl
      exact ⟨h1, h2, h3, h4, hv⟩
  | reset rows cols hi hv => exact regsLayout_reset r hv
  | resetStopped rows cols hi hk => exact fun hl => nomatch hk.life.symm.trans hl

/-! ### `DISPLAY_MODE` (R25) -/

/-- The last mode command of a list is a mode command. -/
theorem lastModeCommand_some {l : List BusCycle} {op : Byte} (h : lastModeCommand l = some op) :
    op.extractLsb' 4 4 = 0x9 := by
  obtain ⟨c, -, hc⟩ := List.mem_filterMap.1 (List.mem_of_getLast? h)
  cases c with
  | commandWrite o =>
    by_cases ho : o.extractLsb' 4 4 = 0x9
    · exact Option.some.inj ((if_pos ho).symm.trans hc) ▸ ho
    · exact nomatch (if_neg ho).symm.trans hc
  | statusRead b => cases hc
  | dataRead v => cases hc
  | dataWrite v => cases hc

/-- Bits 7 to 4 of `DISPLAY_MODE` stay zero: a mode command's byte is cut to its mode bits. -/
theorem ModeAfter.modeByte {r r' : Regs} {l : List BusCycle} (h : ModeAfter r l r')
    (hr : modeByte r.displayMode = r.displayMode) : modeByte r'.displayMode = r'.displayMode := by
  unfold ModeAfter at h
  split at h
  · rw [h.1, hr]
  · rw [h.1, Machine.modeByte, BitVec.and_assoc]
    rfl

theorem modeCommand_of_mode {op : Byte} (h : op.extractLsb' 4 4 = 0x9) : 0x90 ||| (op &&& 0x0F) = op := by
  revert op; decide

/-- `DISPLAY_MODE` goes on being what the last mode command strobed carried (R25, R208). -/
theorem ModeAfter.agrees {s t : State} {l : List BusCycle} (h : ModeAfter s.regs l t.regs) (hs : ModeAgrees s)
    (hb : t.bus = s.bus.run l) : ModeAgrees t := by
  intro hheld
  rw [hb, run_trace, lastModeCommand_append]
  unfold ModeAfter at h
  split at h
  · rename_i hl
    rw [hl, Option.none_or, h.1]
    exact hs (h.2 ▸ hheld)
  · rename_i op hl
    rw [hl, Option.some_or, h.1, modeCommand_of_mode (lastModeCommand_some hl)]

/-! ### The obligations -/

/-- Settles O12: the layout by what an instruction may write (`Writes.regsLayout`), the rest by the bus side being a run of
cycles. -/
theorem stepKeepsTheMachineInvariant : Obligations.StepKeepsTheMachineInvariant := by
  rintro s t ⟨⟨hctl, hlines⟩, hlayout, hmode, hpeer⟩ h
  obtain ⟨l, hst⟩ := stepped h
  obtain ⟨i, hw⟩ := hst.writes
  refine ⟨⟨hst.ctl.elim (·.trans hctl) id, ?_⟩, ?_, ?_, ?_⟩
  · rw [hst.bus]
    exact run_idle _ _ hlines
  · rw [layoutInv_iff, hst.params]
    exact hw.regsLayout hlayout
  · rcases hst.mode with ⟨-, hm⟩ | ⟨-, hr⟩
    · exact hm.modeByte hmode
    · rw [hr, hmode]
  · rw [PeerInv, hst.bus]
    exact peerInv_run _ _ hpeer

/-- Settles O13: each clause is read off the state at power-on; on an engine that is not `Ready` the layout is not
spoken of, and with its mark clear neither is `DISPLAY_MODE`. -/
theorem powerOnMeetsTheInvariants : Obligations.PowerOnMeetsTheInvariants :=
  ⟨⟨⟨rfl, rfl⟩, nofun, rfl, rfl, Nat.zero_le _⟩, nofun, rfl⟩

/-- Settles O14: on a machine with nothing at the mux's own port every step follows its mode commands (`Stepped.mode`). -/
theorem stepKeepsTheModeAgreement : Obligations.StepKeepsTheModeAgreement := by
  intro s t hmux hs h
  obtain ⟨l, hst⟩ := stepped h
  rcases hst.mode with ⟨hm, hmode⟩ | ⟨hm, -⟩
  · exact ⟨hmode.agrees hs hst.bus, hm.trans hmux⟩
  · exact absurd hmux hm

/-- Settles O15: each clause is read off the state at power-on, where nothing is to be taken. -/
theorem powerOnState : Obligations.PowerOnState :=
  ⟨rfl, rfl, rfl, rfl, rfl, rfl, rfl, rfl, rfl, rfl, rfl, rfl, rfl, rfl, step_idle (nextWork_nothing rfl rfl)⟩

/-- Settles O16: the writers of each register are the constructors of `Writes`. -/
theorem registersChangeOnlyByTheirWriters : Obligations.RegistersChangeOnlyByTheirWriters := by
  intro i s t h
  obtain ⟨hp, hw⟩ := exec_next_writes h
  refine ⟨hp, ?_⟩
  generalize t.regs = regs at hw
  cases hw with
  | nothing => simp
  | entry m hi => subst hi; simp [Regs.setEntry]
  | shadow a hi => rcases hi with rfl | ⟨r, rfl⟩ <;> simp [Regs.setShadow]
  | mode f on hi => subst hi; simp [Regs.setMode]
  | base r a hi hv => subst hi; cases r <;> simp [Regs.setBase]
  | reset rows cols hi hv => rcases hi with rfl | rfl <;> simp [resetRegs]
  | resetStopped rows cols hi hk =>
    have he : regs.entryMode = s.regs.entryMode := hk.entryMode
    rcases hi with rfl | rfl <;> simp [he]

/-- No instruction writes `Uninitialized` into `LIFE` (R207). -/
theorem Writes.life {p : Params} {r regs : Regs} {i : Instr} (h : Writes p r i regs)
    (hl : regs.life = .uninitialized) : r.life = .uninitialized := by
  cases h with
  | nothing => exact hl
  | entry m hi => exact hl
  | shadow a hi => exact hl
  | mode f on hi => exact hl
  | base region a hi hv => cases region <;> exact hl
  | reset rows cols hi hv => cases hl
  | resetStopped rows cols hi hk => exact nomatch hk.life.symm.trans hl

/-- A reset with a valid layout, as the request (R223, R226). -/
theorem exec_ctrlReset_valid {rows cols : Byte} {s : State} (hv : ResetValid s.params rows cols) :
    ∃ regs l c, exec (.ctrlReset rows cols) s = .next (s.done regs l ⟨c, 0, []⟩) ∧
      ((c = .ok ∧ regs = resetRegs rows cols s.regs ∧ transfers l = resetCycles rows cols) ∨
        (c = .handshakeTimeout ∧ ResetKeeps (committed rows cols s.regs) regs ∧ Stopped (resetCycles rows cols) l)) := by
  obtain ⟨l, regs, hd, -, hc⟩ := resetEngine_spec (s := s.acquire) hv
  exact ⟨regs, l, _, answer_did (body := plainResult (resetEngine rows cols)) hd, hc⟩

/-- Settles O17: a reset's two outcomes are `exec_ctrlReset_valid`'s, and no instruction writes `Uninitialized`. -/
theorem lifecycleTransitions : Obligations.LifecycleTransitions := by
  refine ⟨fun rows cols s => ⟨fun hv => ⟨_, exec_ctrlReset_invalid hv, rfl⟩, fun hv => ?_⟩, fun s t h hl => ?_⟩
  · obtain ⟨regs, l, c, hx, hc⟩ := exec_ctrlReset_valid hv
    refine ⟨_, c, hx, rfl, ?_⟩
    rcases hc with ⟨rfl, rfl, -⟩ | ⟨rfl, hk, -⟩
    · exact .inl ⟨rfl, rfl⟩
    · exact .inr ⟨rfl, hk.life⟩
  · obtain ⟨l, hst⟩ := stepped h
    obtain ⟨i, hw⟩ := hst.writes
    exact hw.life hl

/-- Settles O18: the cycles of a step strobe only the engine's bytes (`Stepped.emitted`), and a byte outside them has no
meaning (`decodeCommand_unknown`). -/
theorem engineEmitsOnlyItsCommandBytes : Obligations.EngineEmitsOnlyItsCommandBytes := by
  refine ⟨fun s t h => ?_, fun s c hl hm hop => ?_⟩
  · obtain ⟨l, hst⟩ := stepped h
    exact ⟨l, by rw [hst.bus, run_trace], hst.emitted⟩
  · rw [step, nextWork_command hl hm, workOfCommand_error (decodeCommand_unknown hop)]

end Sys2Proof.Machine
end

section
/-! Proofs of the bus cycles, the poll conditions and the bus commands (40_handshake.md, 41_transfer.md): what each leaves
on the lines, in the trace and in the reference device. -/

namespace Sys2Proof.Machine

/-- Settles O19: the outputs are idle but for their data byte, so each cycle's calls compute. -/
theorem busCyclesDriveTheirLines : Obligations.BusCyclesDriveTheirLines := by
  rintro ⟨dir, out, cd, wr, rd, ce⟩ v h
  simp only [Lines.idle, Bool.and_eq_true, beq_iff_eq] at h
  obtain ⟨⟨⟨⟨rfl, rfl⟩, rfl⟩, rfl⟩, rfl⟩ := h
  exact ⟨rfl, rfl, rfl, rfl, rfl, rfl, rfl, rfl⟩

/-- A condition tests bits below 4 only. -/
theorem meets_low_nibble (c : PollCond) (b : Byte) : meets c (b &&& 0x0F) = meets c b := by
  cases c <;> revert b <;> decide

/-- Settles O20: each condition by its bits (R131 to R133). -/
theorem conditionsTestTheirBits : Obligations.ConditionsTestTheirBits := fun b =>
  ⟨by simp [meets, condHolds, decodeStatus], by simp [meets, condHolds, decodeStatus],
    by simp [meets, condHolds, decodeStatus], fun c => meets_low_nibble c b⟩

/-! ### Bus commands under `READY` -/

theorem lo8_eq (a : Addr) : lo8 a = BitVec.ofNat 8 (a.toNat % 256) := by
  apply BitVec.eq_of_toNat_eq
  simp [lo8]

theorem hi8_eq (a : Addr) : hi8 a = BitVec.ofNat 8 (a.toNat / 256) := by
  apply BitVec.eq_of_toNat_eq
  simp [hi8, Nat.shiftRight_eq_div_pow]

theorem addrCycles_eq (op : Byte) (a : Addr) :
    addrCycles op a = [.dataWrite (BitVec.ofNat 8 (a.toNat % 256)), .dataWrite (BitVec.ofNat 8 (a.toNat / 256)),
      .commandWrite op] := by
  rw [← lo8_eq, ← hi8_eq]
  rfl

/-- Under `READY` a bus command given to the mux by itself issues its transfers, each after one status read. -/
theorem exec_command_ready {i : Instr} (hi : isRequest i = false) {s : State} (h : ReadyOracle s) :
    exec i s = .next (s.commandDone (readyCycles (commandTransfers i)) .ok) := by
  obtain ⟨f, -, -, ht, hx⟩ := exec_command hi
  obtain ⟨hr, hc⟩ := sendCommand_ready f.op f.data f.cond s.acquire h
  rw [hx, runCommand_ran hr, hc, ht]

/-- Settles O23: `exec_command_ready`, with the two bytes of the argument as numbers (`addrCycles_eq`). -/
theorem addressCommandsComplete : Obligations.AddressCommandsComplete := by
  intro s a h sent
  have hsent : ∀ op, sent op = readyCycles (addrCycles op a) := fun op => by rw [addrCycles_eq]
  simp only [hsent]
  exact ⟨exec_command_ready rfl h, exec_command_ready rfl h, exec_command_ready rfl h, exec_command_ready rfl h,
    exec_command_ready rfl h⟩

theorem displayMode_number (m : BitVec 4) : BitVec.ofNat 8 (0x90 + m.toNat) = modeCommand m := by
  revert m; decide

/-- Settles O24: `exec_command_ready` for each command without data. -/
theorem plainCommandsComplete : Obligations.PlainCommandsComplete := by
  intro s h sent
  refine ⟨exec_command_ready rfl h, fun m => ?_, exec_command_ready rfl h, exec_command_ready rfl h,
    fun c => exec_command_ready (i := .autoReset c) rfl h⟩
  rw [displayMode_number]
  exact exec_command_ready (i := .displayMode m) rfl h

/-- Settles O25: a bus command is one `sendCommand` (`exec_command_done`), whose transfers are all sent or stop short of
the strobe. -/
theorem timedOutCommandIsNotStrobed : Obligations.TimedOutCommandIsNotStrobed := by
  intro i s hi
  obtain ⟨l, c, hx, -, hs⟩ := exec_command_done hi s
  refine ⟨l, c, hx, ?_⟩
  cases c with
  | ok => exact .inl ⟨rfl, hs⟩
  | handshakeTimeout => exact .inr ⟨rfl, _, rfl, hs⟩
  | notReady => exact hs.elim
  | unsupportedOperation => exact hs.elim
  | invalidLayout => exact hs.elim

/-! ### What a bus command leaves in the reference device (R70) -/

theorem isTransfer_addrCycles {op : Byte} {a : Addr} : ∀ c ∈ addrCycles op a, c.isTransfer = true :=
  fun _ hc => isTransfer_of_isWrite (isWrite_addrCycles hc)

/-- An address command, under `READY`: the device carries out its case with the argument. -/
theorem exec_address_device {i : Instr} {op : Byte} {a : Addr} (hi : isRequest i = false)
    (ht : commandTransfers i = addrCycles op a) {s : State} (h : ReadyOracle s) (ha : s.bus.peer.attached = true)
    (hw : s.bus.peer.device.auto ≠ .write) :
    ∃ t, exec i s = .next t ∧ t.bus.peer.device = { RefDevice.carryOut op a { s.bus.peer.device with
      latch := [a.extractLsb' 0 8, a.extractLsb' 8 8] } with latch := [] } :=
  ⟨_, exec_command_ready hi h, (device_addrCycles s.bus
    (by rw [ht, transfers_readyCycles isTransfer_addrCycles]) ha hw).1⟩

/-- Settles O26: `exec_address_device`, with the device's case for each byte. -/
theorem addressCommandsLoadTheDevice : Obligations.AddressCommandsLoadTheDevice := fun _ a h ha hw =>
  ⟨exec_address_device (i := .setAdp a) rfl rfl h ha hw, exec_address_device (i := .txtHome a) rfl rfl h ha hw,
    exec_address_device (i := .txtArea a) rfl rfl h ha hw, exec_address_device (i := .gfxHome a) rfl rfl h ha hw,
    exec_address_device (i := .gfxArea a) rfl rfl h ha hw⟩

/-- A command without data, under `READY`: the device carries out its case, which takes no argument. -/
theorem exec_plain_device {i : Instr} {op : Byte} {d : RefDevice} (hi : isRequest i = false)
    (ht : commandTransfers i = [.commandWrite op]) {s : State} (h : ReadyOracle s) (ha : s.bus.peer.attached = true)
    (hd : ∀ a, s.bus.peer.device.commandWrite op a = d) :
    ∃ t, exec i s = .next t ∧ t.bus.peer.device = d := by
  obtain ⟨-, a, hdev⟩ := device_command s.bus (l := readyCycles [.commandWrite op]) rfl ha
  exact ⟨_, exec_command_ready hi h, by rw [ht]; exact hdev.trans (hd a)⟩

theorem modeCommand_append (m : BitVec 4) : modeCommand m = 0x9#4 ++ m := by
  revert m; decide

/-- Settles O27: `exec_plain_device`, with the device's case for each byte. -/
theorem plainCommandsSetTheDevice : Obligations.PlainCommandsSetTheDevice := by
  intro s h ha d
  refine ⟨exec_plain_device rfl rfl h ha fun _ => rfl, fun m => ?_, exec_plain_device rfl rfl h ha fun _ => rfl,
    exec_plain_device rfl rfl h ha fun _ => rfl,
    fun c => exec_plain_device (i := .autoReset c) rfl rfl h ha fun _ => rfl⟩
  refine exec_plain_device (i := .displayMode m) rfl rfl h ha fun a => ?_
  rw [RefDevice.commandWrite, ← modeCommand_append]
  exact congrArg (fun d : RefDevice => { d with latch := [] }) (carryOut_displayMode m a s.bus.peer.device)

end Sys2Proof.Machine
end

section
/-! Bursts under a peer whose answers to status reads are known in advance, one after the other (20_memory.md R71,
42_auto_burst.md): the script and then the constant are one stream of bytes, and each poll takes its next ones. -/

namespace Sys2Proof.Machine

/-! ### The stream of answers to status reads -/

/-- The next status reads answer `f 0`, `f 1` and so on: first the script, then the constant for ever (R71). -/
def Peer.Tells (p : Peer) (f : Nat → Byte) : Prop :=
  ∃ e, p.statusConst = some e ∧ ∀ i, p.statusScript.getD i e = f i

theorem tells_script {p : Peer} {script : List Byte} {e : Byte} (hs : p.statusScript = script)
    (hc : p.statusConst = some e) : p.Tells (script.getD · e) :=
  ⟨e, hc, fun i => by rw [hs]⟩

theorem tells_of_answers {b : Byte} {s : State} (h : Answers b s) : s.bus.peer.Tells fun _ => b :=
  ⟨b, h.2, fun i => by rw [h.1]; rfl⟩

theorem Peer.Tells.answer {p : Peer} {f : Nat → Byte} (h : p.Tells f) : p.statusAnswer = f 0 := by
  obtain ⟨e, hc, hf⟩ := h
  rw [← hf 0, Peer.statusAnswer]
  rcases hs : p.statusScript with _ | ⟨b, rest⟩
  · simp [hc]
  · rfl

theorem afterStatusRead_script {p : Peer} {e : Byte} (hc : p.statusConst = some e) :
    p.afterStatusRead = { p with statusScript := p.statusScript.tail } := by
  unfold Peer.afterStatusRead
  split
  · rename_i hs
    rw [hs]
    rfl
  · rename_i hs
    obtain ⟨script, const, data, att, dev, draws⟩ := p
    obtain rfl : script = [] := hs
    obtain rfl : const = some e := hc
    rfl

/-- A status read takes the stream's first answer, and a transfer none. -/
theorem Peer.Tells.after {p : Peer} {f : Nat → Byte} (h : p.Tells f) (c : BusCycle) :
    (p.after c).Tells fun i => f (i + if c.isTransfer then 0 else 1) := by
  obtain ⟨e, hc, hf⟩ := h
  by_cases ht : c.isTransfer = true
  · obtain ⟨hs', hc'⟩ := after_statusScript p c ht
    exact ⟨e, hc'.trans hc, fun i => by rw [hs', hf, if_pos ht]; rfl⟩
  · cases c with
    | statusRead s =>
      refine ⟨e, ?_, fun i => ?_⟩
      · rw [Peer.after, afterStatusRead_script hc]
        exact hc
      · rw [Peer.after, afterStatusRead_script hc, if_neg ht]
        refine Eq.trans ?_ (hf (i + 1))
        simp only
        cases p.statusScript <;> rfl
    | dataRead v => exact absurd rfl ht
    | dataWrite v => exact absurd rfl ht
    | commandWrite op => exact absurd rfl ht

/-- How many of the cycles are status reads. -/
def statusReads (l : List BusCycle) : Nat := l.countP fun c => !c.isTransfer

theorem Peer.Tells.run {b : Bus} {f : Nat → Byte} (h : b.peer.Tells f) (l : List BusCycle) :
    (b.run l).peer.Tells fun i => f (i + statusReads l) := by
  induction l generalizing b f with
  | nil => exact h
  | cons c l ih =>
    have hcons : statusReads (c :: l) = statusReads l + if c.isTransfer then 0 else 1 := by
      rw [statusReads, List.countP_cons]
      cases c.isTransfer <;> rfl
    have hrest := ih (b := b.cycle c) (h.after c)
    simp only [hcons, ← Nat.add_assoc]
    exact hrest

theorem Ran.tells {s t : State} {l : List BusCycle} {f : Nat → Byte} (hr : Ran s t l) (h : s.bus.peer.Tells f) :
    t.bus.peer.Tells fun i => f (i + statusReads l) := by
  rw [hr.bus]
  exact h.run l

@[simp] theorem statusReads_nil : statusReads [] = 0 := rfl

@[simp] theorem statusReads_statusRead (b : Byte) (l : List BusCycle) :
    statusReads (.statusRead b :: l) = statusReads l + 1 := by simp [statusReads, BusCycle.isTransfer]

@[simp] theorem statusReads_commandWrite (op : Byte) (l : List BusCycle) :
    statusReads (.commandWrite op :: l) = statusReads l := by simp [statusReads, BusCycle.isTransfer]

@[simp] theorem statusReads_append (l l' : List BusCycle) : statusReads (l ++ l') = statusReads l + statusReads l' :=
  List.countP_append

@[simp] theorem statusReads_replicate (n : Nat) (b : Byte) :
    statusReads (List.replicate n (.statusRead b)) = n := by
  simp [statusReads, List.countP_replicate, BusCycle.isTransfer]

/-! ### Polls and strobes -/

theorem pollUntil_told {c : PollCond} {s : State} {f : Nat → Byte} {x : Byte} (h : s.bus.peer.Tells f)
    (hL : s.params.retryLimit ≠ 0) (h0 : f 0 = x) (hx : meets c x = true) :
    Ran s (pollUntil c s).1 [.statusRead x] ∧ (pollUntil c s).2 = .ok := by
  have ha := h.answer.trans h0
  have hp := pollUntil_first c s hL (by rw [ha]; exact hx)
  rwa [ha] at hp

theorem pollLoop_told_never {c : PollCond} {x : Byte} (hx : meets c x = false) (n : Nat) {s : State} {f : Nat → Byte}
    (h : s.bus.peer.Tells f) (hf : ∀ i, i < n → f i = x) :
    Ran s (pollLoop c n s).1 (List.replicate n (.statusRead x)) ∧ (pollLoop c n s).2 = .handshakeTimeout := by
  induction n generalizing s f with
  | zero => exact ⟨Ran.refl s, rfl⟩
  | succ n ih =>
    have ha : s.bus.peer.statusAnswer = x := h.answer.trans (hf 0 (by omega))
    have hloop : pollLoop c (n + 1) s = pollLoop c n (s.cycle (.statusRead x)).countRetry := by
      simp [pollLoop, busStatusRead, ha, hx]
    obtain ⟨hr, hc⟩ := ih (s := (s.cycle (.statusRead x)).countRetry) (h.after (.statusRead x))
      fun i hi => hf (i + 1) (by omega)
    rw [hloop]
    exact ⟨(ran_cycle _ s).trans (l' := List.replicate n (.statusRead x)) ⟨hr.params, hr.regs, hr.port, hr.bus⟩, hc⟩

theorem pollUntil_told_never {c : PollCond} {s : State} {f : Nat → Byte} {x : Byte} (h : s.bus.peer.Tells f)
    (hf : ∀ i, i < s.params.retryLimit.toNat → f i = x) (hx : meets c x = false) :
    Ran s (pollUntil c s).1 (List.replicate s.params.retryLimit.toNat (.statusRead x)) ∧
      (pollUntil c s).2 = .handshakeTimeout := by
  obtain ⟨hr, hc⟩ := pollLoop_told_never hx s.params.retryLimit.toNat (s := s.startPoll) h hf
  exact ⟨⟨hr.params, hr.regs, hr.port, hr.bus⟩, hc⟩

/-- A command without data is its strobe (R161). -/
theorem sendCommand_none (op : Byte) (cond : PollCond) (s : State) :
    sendCommand op .none cond s = strobeCommand op cond s := by
  show Action.andThen (strobeCommand op cond) (inOrder []) s = _
  rcases andThen_cases (strobeCommand op cond) (inOrder []) s with ⟨hok, h⟩ | ⟨-, h⟩
  · rw [h, inOrder_nil, ← hok]
  · exact h

theorem sendCommand_told {op : Byte} {cond : PollCond} {s : State} {f : Nat → Byte} {x : Byte}
    (h : s.bus.peer.Tells f) (hL : s.params.retryLimit ≠ 0) (h0 : f 0 = x) (hx : meets cond x = true) :
    Ran s (sendCommand op .none cond s).1 [.statusRead x, .commandWrite op] ∧
      (sendCommand op .none cond s).2 = .ok := by
  obtain ⟨hr, hc⟩ := pollUntil_told h hL h0 hx
  rw [sendCommand_none, strobeCommand, andThen_ok hc]
  exact ⟨hr.trans (ran_cycle _ _), rfl⟩

theorem sendCommand_told_never {op : Byte} {cond : PollCond} {s : State} {f : Nat → Byte} {x : Byte}
    (h : s.bus.peer.Tells f) (hf : ∀ i, i < s.params.retryLimit.toNat → f i = x) (hx : meets cond x = false) :
    Ran s (sendCommand op .none cond s).1 (List.replicate s.params.retryLimit.toNat (.statusRead x)) ∧
      (sendCommand op .none cond s).2 = .handshakeTimeout := by
  obtain ⟨hr, hc⟩ := pollUntil_told_never h hf hx
  rw [sendCommand_none, strobeCommand, andThen_err (by simp [hc])]
  exact ⟨hr, hc⟩

/-! ### The data bytes a peer returns do not hang on its status script -/

/-- The peer but for its status script. -/
def Peer.unscripted (p : Peer) : Peer := { p with statusScript := [] }

theorem afterDataRead_unscripted (p : Peer) : p.afterDataRead.unscripted = p.unscripted.afterDataRead := by
  have hd : p.unscripted.deviceReads = p.deviceReads := rfl
  by_cases h : p.deviceReads = true
  · rw [Peer.afterDataRead, Peer.afterDataRead, if_pos h, if_pos (hd.trans h)]
    rfl
  · rw [Peer.afterDataRead, Peer.afterDataRead, if_neg h, if_neg (hd ▸ h)]
    obtain ⟨script, const, data, att, dev, draws⟩ := p
    cases data <;> rfl

theorem afterCommandWrite_unscripted (op : Byte) (p : Peer) :
    (p.afterCommandWrite op).unscripted = p.unscripted.afterCommandWrite op := by
  have ha : p.unscripted.attached = p.attached := rfl
  unfold Peer.afterCommandWrite
  rw [ha]
  split <;> rfl

theorem readBytes_unscripted (n : Nat) (p : Peer) : readBytes n p = readBytes n p.unscripted := by
  induction n generalizing p with
  | zero => rfl
  | succ n ih =>
    show p.dataAnswer :: readBytes n p.afterDataRead = p.dataAnswer :: readBytes n p.unscripted.afterDataRead
    rw [ih p.afterDataRead, afterDataRead_unscripted]

theorem readBytes_congr {n : Nat} {p q : Peer} (h : p.unscripted = q.unscripted) : readBytes n p = readBytes n q := by
  rw [readBytes_unscripted n p, readBytes_unscripted n q, h]

/-- Where the answers to status reads are known, a status read moves on the script and nothing else. -/
theorem unscripted_statusRead {p : Peer} {f : Nat → Byte} (h : p.Tells f) (b : Byte) :
    (p.after (.statusRead b)).unscripted = p.unscripted := by
  obtain ⟨e, hc, -⟩ := h
  rw [Peer.after, afterStatusRead_script hc]
  rfl

/-! ### Bodies -/

theorem writeBody_told {text : Bool} {bytes : List Byte} {s : State} {f : Nat → Byte} {x : Byte} {k0 : BitVec 16}
    (hk : s.ctl.burst = some k0) (h : s.bus.peer.Tells f) (hL : s.params.retryLimit ≠ 0)
    (hf : ∀ i, i < bytes.length → f i = x) (hx : meets .autoWriteReady x = true) :
    Ran s (writeBody text bytes s).1 (bytes.flatMap fun b => [.statusRead x, .dataWrite (sentByte text b)]) ∧
      (writeBody text bytes s).2 = .ok ∧
      (writeBody text bytes s).1.ctl.burst = some (k0 + BitVec.ofNat 16 bytes.length) := by
  induction bytes generalizing s f k0 with
  | nil => exact ⟨Ran.refl s, rfl, by simp [writeBody, hk]⟩
  | cons b bytes ih =>
    obtain ⟨hr, hc⟩ := pollUntil_told h hL (hf 0 (by simp)) hx
    have hr' := hr.trans (ran_cycle (.dataWrite (sentByte text b)) _)
    obtain ⟨hl, ht, hb⟩ := ih (s := (busDataWrite (sentByte text b) (pollUntil .autoWriteReady s).1).countByte)
      (k0 := k0 + 1) (by simp [busDataWrite, hk]) (hr'.tells h) (by rw [← hr.params] at hL; exact hL)
      (fun i hi => hf (i + 1) (by simpa using hi))
    rw [writeBody_cons_ok hc]
    exact ⟨hr'.trans ⟨hl.params, hl.regs, hl.port, hl.bus⟩, ht, by rw [hb, ofNat_succ_add]; rfl⟩

/-- A write body goes on where its first bytes left off. -/
theorem writeBody_append {text : Bool} {as bs : List Byte} {s : State} (h : (writeBody text as s).2 = .ok) :
    writeBody text (as ++ bs) s = writeBody text bs (writeBody text as s).1 := by
  induction as generalizing s with
  | nil => rfl
  | cons a as ih =>
    by_cases hp : (pollUntil .autoWriteReady s).2 = .ok
    · rw [writeBody_cons_ok hp] at h ⊢
      rw [List.cons_append, writeBody_cons_ok hp, ih h]
    · rw [writeBody_cons_err hp] at h
      exact absurd h hp

theorem readBody_told {n : Nat} {s : State} {f : Nat → Byte} {x : Byte} {k0 : BitVec 16}
    (hk : s.ctl.burst = some k0) (h : s.bus.peer.Tells f) (hL : s.params.retryLimit ≠ 0)
    (hf : ∀ i, i < n → f i = x) (hx : meets .autoReadReady x = true) :
    Ran s (readBody n s).1 ((readBytes n s.bus.peer).flatMap fun v => [.statusRead x, .dataRead v]) ∧
      (readBody n s).2 = (.ok, readBytes n s.bus.peer) ∧
      (readBody n s).1.ctl.burst = some (k0 + BitVec.ofNat 16 n) := by
  induction n generalizing s f k0 with
  | zero => exact ⟨Ran.refl s, rfl, by simp [readBody, hk]⟩
  | succ n ih =>
    obtain ⟨hr, hc⟩ := pollUntil_told h hL (hf 0 (by simp)) hx
    have hp : (pollUntil .autoReadReady s).1.bus.peer = s.bus.peer.after (.statusRead x) := by
      rw [hr.bus]
      rfl
    have hu := unscripted_statusRead h x
    have hans : (pollUntil .autoReadReady s).1.bus.peer.dataAnswer = s.bus.peer.dataAnswer := by
      rw [hp]
      exact (congrArg Peer.dataAnswer hu :)
    have hd : busDataRead (pollUntil .autoReadReady s).1 =
        ((pollUntil .autoReadReady s).1.cycle (.dataRead s.bus.peer.dataAnswer), s.bus.peer.dataAnswer) := by
      rw [busDataRead, hans]
    have hr' := hr.trans (ran_cycle (.dataRead s.bus.peer.dataAnswer) _)
    have hrest : readBytes n ((pollUntil .autoReadReady s).1.cycle (.dataRead s.bus.peer.dataAnswer)).bus.peer =
        readBytes n s.bus.peer.afterDataRead := by
      refine readBytes_congr ?_
      show (pollUntil .autoReadReady s).1.bus.peer.afterDataRead.unscripted = _
      rw [hp, afterDataRead_unscripted, hu, ← afterDataRead_unscripted]
    obtain ⟨hl, ht, hb⟩ := ih (s := ((pollUntil .autoReadReady s).1.cycle (.dataRead s.bus.peer.dataAnswer)).countByte)
      (k0 := k0 + 1) (by simp [hk]) (hr'.tells h) (by rw [← hr.params] at hL; exact hL)
      (fun i hi => hf (i + 1) (by simpa using hi))
    rw [countByte_bus, hrest] at hl ht
    rw [readBody_succ_ok hc, hd]
    refine ⟨hr'.trans ⟨hl.params, hl.regs, hl.port, hl.bus⟩, ?_, ?_⟩
    · simp only [ht]
      rfl
    · simp only [hb, ofNat_succ_add]

/-- A read body goes on where its first reads left off. -/
theorem readBody_add {j n : Nat} {s : State} (h : (readBody j s).2.1 = .ok) :
    readBody (j + n) s = ((readBody n (readBody j s).1).1, (readBody n (readBody j s).1).2.1,
      (readBody j s).2.2 ++ (readBody n (readBody j s).1).2.2) := by
  induction j generalizing s with
  | zero =>
    rw [Nat.zero_add]
    rfl
  | succ j ih =>
    by_cases hp : (pollUntil .autoReadReady s).2 = .ok
    · rw [readBody_succ_ok hp] at h ⊢
      rw [Nat.succ_add, readBody_succ_ok hp, ih h]
      rfl
    · rw [readBody_succ_err hp] at h
      exact absurd h hp

/-! ### Bursts, by their parts -/

theorem burstWrite_entry_err {bytes : List Byte} {text : Bool} {s : State} (hb : bytes ≠ [])
    (h : (muxAutoWrite s).2 = .handshakeTimeout) :
    burstWrite bytes text s = ((muxAutoWrite s).1, ⟨.handshakeTimeout, 0, []⟩) := by
  rw [burstWrite, if_neg hb]
  rcases hm : muxAutoWrite s with ⟨t, c⟩
  rw [hm] at h
  subst h
  rfl

theorem burstWrite_entry_ok {bytes : List Byte} {text : Bool} {s : State} (hb : bytes ≠ [])
    (h : (muxAutoWrite s).2 = .ok) :
    burstWrite bytes text s = burstExit .autoWriteReady (writeBody text bytes (muxAutoWrite s).1.startBurst).2 []
      (writeBody text bytes (muxAutoWrite s).1.startBurst).1 := by
  rw [burstWrite, if_neg hb]
  rcases hm : muxAutoWrite s with ⟨t, c⟩
  rw [hm] at h
  subst h
  rfl

theorem burstRead_entry_err {n : Nat} {s : State} (hn : n ≠ 0) (h : (muxAutoRead s).2 = .handshakeTimeout) :
    burstRead n s = ((muxAutoRead s).1, ⟨.handshakeTimeout, 0, []⟩) := by
  rw [burstRead, if_neg hn]
  rcases hm : muxAutoRead s with ⟨t, c⟩
  rw [hm] at h
  subst h
  rfl

theorem burstRead_entry_ok {n : Nat} {s : State} (hn : n ≠ 0) (h : (muxAutoRead s).2 = .ok) :
    burstRead n s = burstExit .autoReadReady (readBody n (muxAutoRead s).1.startBurst).2.1
      (readBody n (muxAutoRead s).1.startBurst).2.2 (readBody n (muxAutoRead s).1.startBurst).1 := by
  rw [burstRead, if_neg hn]
  rcases hm : muxAutoRead s with ⟨t, c⟩
  rw [hm] at h
  subst h
  rfl

/-- The cycles of a burst's exit where the status reads answer `e` from there on: one read and the strobe, or a budget
of reads (R184). -/
def exitCycles (p : Params) (own : PollCond) (e : Byte) : List BusCycle :=
  if meets (exitCond p.exitPoll own) e then [.statusRead e, .commandWrite 0xB2]
  else List.replicate p.retryLimit.toNat (.statusRead e)

/-- The code of a burst whose body ended with `c`, with such an exit (R184, R189). -/
def exitCode (p : Params) (own : PollCond) (e : Byte) (c : Code) : Code :=
  if meets (exitCond p.exitPoll own) e then c else .handshakeTimeout

theorem burstExit_told {own : PollCond} {c : Code} {out : List Byte} {s : State} {f : Nat → Byte} {e : Byte}
    (h : s.bus.peer.Tells f) (hL : s.params.retryLimit ≠ 0) (hf : ∀ i, f i = e) :
    Ran s (burstExit own c out s).1 (exitCycles s.params own e) ∧
      (burstExit own c out s).2 = ⟨exitCode s.params own e c, s.burstCount, out⟩ := by
  unfold burstExit muxAutoReset exitCycles exitCode
  by_cases hx : meets (exitCond s.params.exitPoll own) e = true
  · obtain ⟨hr, hc⟩ := sendCommand_told (op := 0xB2) h hL (hf 0) hx
    rcases hcmd : sendCommand 0xB2 .none (exitCond s.params.exitPoll own) s with ⟨t, c'⟩
    rw [hcmd] at hr hc
    subst hc
    rw [if_pos hx, if_pos hx]
    exact ⟨⟨hr.params, hr.regs, hr.port, hr.bus⟩, rfl⟩
  · have hx' : meets (exitCond s.params.exitPoll own) e = false := by simpa using hx
    obtain ⟨hr, hc⟩ := sendCommand_told_never (op := 0xB2) h (fun i _ => hf i) hx'
    rcases hcmd : sendCommand 0xB2 .none (exitCond s.params.exitPoll own) s with ⟨t, c'⟩
    rw [hcmd] at hr hc
    subst hc
    rw [if_neg hx, if_neg hx]
    exact ⟨⟨hr.params, hr.regs, hr.port, hr.bus⟩, rfl⟩

end Sys2Proof.Machine
end

section
/-! Proofs of the auto-burst family (42_auto_burst.md): a `WRITE` and a `READ` under `READY`, whatever the peer answers, and
under the scripts of 95_test_vectors.md. -/

namespace Sys2Proof.Machine

/-! ### The bytes on the bus -/

/-- The bytes of a `WRITE` as they go on the bus (R186, R187). -/
theorem map_sentByte (payload : List Byte) (m : EntryMode) :
    payload.map (sentByte (m == .text)) = payload.map fun b => if m = .text then b - 0x20 else b := by
  cases m <;> rfl

theorem ofNat_length {n : BitVec 16} {l : List Byte} (h : l.length = n.toNat) : BitVec.ofNat 16 l.length = n := by
  rw [h, BitVec.ofNat_toNat, BitVec.setWidth_eq]

theorem toNat_ne_zero {n : BitVec 16} (h : n ≠ 0) : n.toNat ≠ 0 := fun e => h (BitVec.eq_of_toNat_eq e)

theorem payload_ne_nil {n : BitVec 16} {payload : List Byte} (hn : payload.length = n.toNat) (h0 : n ≠ 0) :
    payload ≠ [] := fun e => toNat_ne_zero h0 (by rw [← hn, e]; rfl)

/-- Settles O28: under `READY` the burst is whole (`burstWrite_ready`). -/
theorem writeCompletes : Obligations.WriteCompletes := by
  intro n payload s hn hl h
  obtain ⟨hr, hres⟩ := burstWrite_ready payload (s.regs.entryMode == .text) s.acquire h
  rw [exec_write_ready hn hl hr, ← map_sentByte]
  exact congrArg (fun r => Host.Outcome.next (s.done _ _ r)) (hres.trans (by rw [ofNat_length hn]))

/-- Settles O29: under `READY` the burst is whole and returns what the peer's data reads return (`burstRead_ready`). -/
theorem readCompletes : Obligations.ReadCompletes := by
  intro n s h0 hl h data
  obtain ⟨hr, hres⟩ := burstRead_ready n.toNat s.acquire h (toNat_ne_zero h0)
  rw [exec_read_ready hl hr]
  exact congrArg (fun r => Host.Outcome.next (s.done _ _ r)) (hres.trans (by rw [BitVec.ofNat_toNat, BitVec.setWidth_eq]; rfl))

/-! ### Whatever the peer answers (R180, R185, R189, R190) -/

theorem bytesWritten_transfers (l : List BusCycle) : bytesWritten (transfers l) = bytesWritten l := by
  induction l with
  | nil => rfl
  | cons c l ih => cases c <;> simp_all [bytesWritten]

theorem bytesRead_transfers (l : List BusCycle) : bytesRead (transfers l) = bytesRead l := by
  induction l with
  | nil => rfl
  | cons c l ih => cases c <;> simp_all [bytesRead]

theorem bytesRead_append (l l' : List BusCycle) : bytesRead (l ++ l') = bytesRead l ++ bytesRead l' :=
  List.filterMap_append

theorem bytesRead_map_dataRead (data : List Byte) : bytesRead (data.map .dataRead) = data := by
  simp [bytesRead, List.filterMap_map]

/-- The bytes that a write burst has written: the first `k` of them as sent. -/
theorem bytesWritten_moved {bytes : List Byte} {exit l : List BusCycle}
    (ht : transfers l = .commandWrite 0xB0 :: bytes.map .dataWrite ++ exit)
    (hx : exit = [.commandWrite 0xB2] ∨ exit = []) : bytesWritten l = bytes := by
  have hparts : transfers l = [.commandWrite 0xB0] ++ bytes.map .dataWrite ++ exit := ht
  rw [← bytesWritten_transfers, hparts, bytesWritten_append, bytesWritten_append, bytesWritten_map_dataWrite]
  rcases hx with rfl | rfl <;> simp [bytesWritten]

theorem bytesRead_moved {data : List Byte} {exit l : List BusCycle}
    (ht : transfers l = .commandWrite 0xB1 :: data.map .dataRead ++ exit)
    (hx : exit = [.commandWrite 0xB2] ∨ exit = []) : bytesRead l = data := by
  have hparts : transfers l = [.commandWrite 0xB1] ++ data.map .dataRead ++ exit := ht
  rw [← bytesRead_transfers, hparts, bytesRead_append, bytesRead_append, bytesRead_map_dataRead]
  rcases hx with rfl | rfl <;> simp [bytesRead]

theorem map_take_sent (payload : List Byte) (text : Bool) (k : Nat) :
    (payload.take k).map (fun b => BusCycle.dataWrite (sentByte text b)) =
      ((payload.map (sentByte text)).take k).map .dataWrite := by
  rw [← List.map_take, List.map_map]
  rfl

/-- Settles O31: the three ways a write burst goes are `WriteBurst`'s, and its data writes are the bytes it reports. -/
theorem writeReportsTheBytesMoved : Obligations.WriteReportsTheBytesMoved := by
  intro n payload s hn h0 hl sent
  have hsent : sent = payload.map (sentByte (s.regs.entryMode == .text)) := (map_sentByte _ _).symm
  obtain ⟨l, hr, hw⟩ := burstWrite_spec payload (s.regs.entryMode == .text) s.acquire (payload_ne_nil hn h0)
  have hx := exec_write_ready hn hl hr
  have hrule : writeRule payload s.acquire = burstWrite payload (s.regs.entryMode == .text) s.acquire := rfl
  rw [hrule] at hx
  generalize (burstWrite payload (s.regs.entryMode == .text) s.acquire).2 = r at hw hx
  cases hw with
  | entryFailed ht hr' =>
    subst hr'
    exact ⟨l, _, 0, hx, Nat.zero_le _, by rw [← bytesWritten_transfers, ht]; rfl, .inl ⟨rfl, rfl, ht⟩⟩
  | moved k exit hk ht hexit hr' hc =>
    obtain ⟨c, count, data⟩ := r
    obtain ⟨rfl, rfl⟩ : count = BitVec.ofNat 16 k ∧ data = [] := hr'
    rw [map_take_sent, ← hsent] at ht
    refine ⟨l, c, k, hx, hk, bytesWritten_moved ht (hexit.imp id And.left), ?_⟩
    rcases hexit with rfl | ⟨rfl, hcode⟩
    · refine .inr (.inr ⟨ht, hc.imp (fun h => ⟨h.1, h.2.1⟩) fun h => ⟨h.1, h.2.resolve_right (by simp)⟩⟩)
    · exact .inr (.inl ⟨hcode, by rw [ht, List.append_nil]⟩)

/-- Settles O32: the three ways a read burst goes are `ReadBurst`'s, and its data reads are the bytes it returns. -/
theorem readReportsTheBytesRead : Obligations.ReadReportsTheBytesRead := by
  intro n s h0 hl
  obtain ⟨l, hr, hw⟩ := burstRead_spec n.toNat s.acquire (toNat_ne_zero h0)
  have hx := exec_read_ready hl hr
  generalize (burstRead n.toNat s.acquire).2 = r at hw hx
  cases hw with
  | entryFailed ht hr' =>
    subst hr'
    exact ⟨l, _, [], hx, Nat.zero_le _, by rw [← bytesRead_transfers, ht]; rfl, .inl ⟨rfl, rfl, ht⟩⟩
  | moved exit hk ht hexit hr' hc =>
    obtain ⟨c, count, data⟩ := r
    obtain rfl : count = BitVec.ofNat 16 data.length := hr'
    refine ⟨l, c, data, hx, hk, bytesRead_moved ht (hexit.imp id And.left), ?_⟩
    rcases hexit with rfl | ⟨rfl, hcode⟩
    · exact .inr (.inr ⟨ht, hc.imp (fun h => ⟨h.1, h.2.1⟩) fun h => ⟨h.1, h.2.resolve_right (by simp)⟩⟩)
    · exact .inr (.inl ⟨hcode, ht.trans (List.append_nil _)⟩)

/-! ### Where the entry never becomes ready (R188) -/

/-- Settles O33: each poll of the entry takes its whole budget of the one answer (`sendCommand_told_never`). -/
theorem entryFailureMovesNothing : Obligations.EntryFailureMovesNothing := by
  intro n payload b s hn h0 hl hb hx reads
  have ht : s.acquire.bus.peer.Tells fun _ => b := tells_of_answers hb
  refine ⟨?_, ?_⟩
  · obtain ⟨hr, hc⟩ := sendCommand_told_never (op := 0xB0) ht (fun _ _ => rfl) hx
    have hburst : writeRule payload s.acquire = _ := burstWrite_entry_err (payload_ne_nil hn h0) hc
    rw [exec_write_ready hn hl (l := reads) (by rw [hburst]; exact hr), hburst]
  · obtain ⟨hr, hc⟩ := sendCommand_told_never (op := 0xB1) ht (fun _ _ => rfl) hx
    have hburst := burstRead_entry_err (toNat_ne_zero h0) hc
    rw [exec_read_ready hl (l := reads) (by rw [hburst]; exact hr), hburst]

end Sys2Proof.Machine
end

section
/-! Proofs of the auto-burst family under the scripts of 95_test_vectors.md (42_auto_burst.md): a burst is its entry, its
body and its exit, each taking its part of the peer's stream of answers. -/

namespace Sys2Proof.Machine

@[simp] theorem statusReads_dataWrites (x : Byte) (g : Byte → Byte) (bytes : List Byte) :
    statusReads (bytes.flatMap fun b => [.statusRead x, .dataWrite (g b)]) = bytes.length := by
  induction bytes with
  | nil => rfl
  | cons b bytes ih =>
    rw [List.flatMap_cons, statusReads_append, ih, Nat.add_comm]
    rfl

@[simp] theorem statusReads_dataReads (x : Byte) (data : List Byte) :
    statusReads (data.flatMap fun v => [.statusRead x, .dataRead v]) = data.length := by
  induction data with
  | nil => rfl
  | cons v data ih =>
    rw [List.flatMap_cons, statusReads_append, ih, Nat.add_comm]
    rfl

@[simp] theorem length_readBytes (n : Nat) (p : Peer) : (readBytes n p).length = n := by
  induction n generalizing p with
  | zero => rfl
  | succ n ih => simp [readBytes, ih]

/-! ### A body that a poll stops (R185) -/

theorem writeBody_told_stops {text : Bool} {moved rest : List Byte} {s : State} {f : Nat → Byte} {x z : Byte}
    {k0 : BitVec 16} (hk : s.ctl.burst = some k0) (h : s.bus.peer.Tells f) (hL : s.params.retryLimit ≠ 0)
    (hf : ∀ i, i < moved.length → f i = x) (hx : meets .autoWriteReady x = true) (hrest : rest ≠ [])
    (hz : ∀ i, i < s.params.retryLimit.toNat → f (i + moved.length) = z) (hz' : meets .autoWriteReady z = false) :
    Ran s (writeBody text (moved ++ rest) s).1
        ((moved.flatMap fun b => [.statusRead x, .dataWrite (sentByte text b)]) ++
          List.replicate s.params.retryLimit.toNat (.statusRead z)) ∧
      (writeBody text (moved ++ rest) s).2 = .handshakeTimeout ∧
      (writeBody text (moved ++ rest) s).1.ctl.burst = some (k0 + BitVec.ofNat 16 moved.length) := by
  obtain ⟨b, rest, rfl⟩ := List.exists_cons_of_ne_nil hrest
  obtain ⟨hr, hc, hb⟩ := writeBody_told (text := text) hk h hL hf hx
  have ht := hr.tells h
  rw [statusReads_dataWrites] at ht
  obtain ⟨hr', hc'⟩ := pollUntil_told_never ht (by rw [hr.params]; exact hz) hz'
  rw [hr.params] at hr'
  rw [writeBody_append hc, writeBody_cons_err (by simp [hc'])]
  exact ⟨hr.trans hr', hc', (pollUntil_burst _ _).trans hb⟩

theorem readBody_told_stops {j n : Nat} {s : State} {f : Nat → Byte} {x z : Byte} {k0 : BitVec 16}
    (hk : s.ctl.burst = some k0) (h : s.bus.peer.Tells f) (hL : s.params.retryLimit ≠ 0)
    (hf : ∀ i, i < j → f i = x) (hx : meets .autoReadReady x = true) (hn : n ≠ 0)
    (hz : ∀ i, i < s.params.retryLimit.toNat → f (i + j) = z) (hz' : meets .autoReadReady z = false) :
    Ran s (readBody (j + n) s).1
        (((readBytes j s.bus.peer).flatMap fun v => [.statusRead x, .dataRead v]) ++
          List.replicate s.params.retryLimit.toNat (.statusRead z)) ∧
      (readBody (j + n) s).2 = (.handshakeTimeout, readBytes j s.bus.peer) ∧
      (readBody (j + n) s).1.ctl.burst = some (k0 + BitVec.ofNat 16 j) := by
  obtain ⟨n, rfl⟩ := Nat.exists_eq_succ_of_ne_zero hn
  obtain ⟨hr, hc, hb⟩ := readBody_told hk h hL hf hx
  have ht := hr.tells h
  rw [statusReads_dataReads, length_readBytes] at ht
  obtain ⟨hr', hc'⟩ := pollUntil_told_never ht (by rw [hr.params]; exact hz) hz'
  rw [hr.params] at hr'
  rw [readBody_add (by rw [hc]), readBody_succ_err (by simp [hc']), hc, hc']
  exact ⟨hr.trans hr', by rw [List.append_nil], (pollUntil_burst _ _).trans hb⟩

/-! ### Entry, body and exit -/

/-- A write burst whose entry meets its condition at the first answer `y`: the body is known as a function of the stream
from there on, and the exit is told `e`. -/
theorem burstWrite_told {bytes : List Byte} {text : Bool} {s : State} {f : Nat → Byte} {y e : Byte} {l : List BusCycle}
    {c : Code} {k : BitVec 16} (hb : bytes ≠ []) (h : s.bus.peer.Tells f) (hL : s.params.retryLimit ≠ 0)
    (h0 : f 0 = y) (hy : meets .commandReady y = true)
    (body : ∀ t : State, t.params = s.params → t.bus.peer.Tells (fun i => f (i + 1)) → t.ctl.burst = some 0 →
      Ran t (writeBody text bytes t).1 l ∧ (writeBody text bytes t).2 = c ∧
        (writeBody text bytes t).1.ctl.burst = some k)
    (he : ∀ i, f (i + statusReads l + 1) = e) :
    Ran s (burstWrite bytes text s).1
        ([.statusRead y, .commandWrite 0xB0] ++ l ++ exitCycles s.params .autoWriteReady e) ∧
      (burstWrite bytes text s).2 = ⟨exitCode s.params .autoWriteReady e c, k, []⟩ := by
  obtain ⟨hr, hc⟩ : Ran s (muxAutoWrite s).1 _ ∧ (muxAutoWrite s).2 = .ok := sendCommand_told (op := 0xB0) h hL h0 hy
  rw [burstWrite_entry_ok hb hc]
  have hr0 : Ran s (muxAutoWrite s).1.startBurst _ := ⟨hr.params, hr.regs, hr.port, hr.bus⟩
  obtain ⟨hr1, hc1, hk1⟩ := body (muxAutoWrite s).1.startBurst hr.params (hr0.tells h) rfl
  generalize writeBody text bytes (muxAutoWrite s).1.startBurst = body' at hr1 hc1 hk1
  have hr2 := hr0.trans hr1
  obtain ⟨hr3, hres⟩ := burstExit_told (own := .autoWriteReady) (c := body'.2) (out := []) (hr1.tells (hr0.tells h))
    (by rw [hr2.params]; exact hL) he
  rw [hr2.params] at hr3 hres
  refine ⟨hr2.trans hr3, ?_⟩
  rw [hres, hc1, State.burstCount, hk1]
  rfl

theorem burstRead_told {n : Nat} {s : State} {f : Nat → Byte} {y e : Byte} {l : List BusCycle} {c : Code}
    {k : BitVec 16} {out : List Byte} (hn : n ≠ 0) (h : s.bus.peer.Tells f) (hL : s.params.retryLimit ≠ 0)
    (h0 : f 0 = y) (hy : meets .commandReady y = true)
    (body : ∀ t : State, t.params = s.params → t.bus.peer.Tells (fun i => f (i + 1)) → t.ctl.burst = some 0 →
      t.bus.peer.unscripted = (s.bus.peer.afterCommandWrite 0xB1).unscripted →
      Ran t (readBody n t).1 l ∧ (readBody n t).2 = (c, out) ∧ (readBody n t).1.ctl.burst = some k)
    (he : ∀ i, f (i + statusReads l + 1) = e) :
    Ran s (burstRead n s).1 ([.statusRead y, .commandWrite 0xB1] ++ l ++ exitCycles s.params .autoReadReady e) ∧
      (burstRead n s).2 = ⟨exitCode s.params .autoReadReady e c, k, out⟩ := by
  obtain ⟨hr, hc⟩ : Ran s (muxAutoRead s).1 _ ∧ (muxAutoRead s).2 = .ok := sendCommand_told (op := 0xB1) h hL h0 hy
  rw [burstRead_entry_ok hn hc]
  have hr0 : Ran s (muxAutoRead s).1.startBurst _ := ⟨hr.params, hr.regs, hr.port, hr.bus⟩
  have hpeer : (muxAutoRead s).1.startBurst.bus.peer.unscripted = (s.bus.peer.afterCommandWrite 0xB1).unscripted := by
    rw [hr0.bus]
    show ((s.bus.peer.after (.statusRead y)).afterCommandWrite 0xB1).unscripted = _
    rw [afterCommandWrite_unscripted, unscripted_statusRead h, ← afterCommandWrite_unscripted]
  obtain ⟨hr1, hc1, hk1⟩ := body (muxAutoRead s).1.startBurst hr.params (hr0.tells h) rfl hpeer
  generalize readBody n (muxAutoRead s).1.startBurst = body' at hr1 hc1 hk1
  have hr2 := hr0.trans hr1
  obtain ⟨hr3, hres⟩ := burstExit_told (own := .autoReadReady) (c := body'.2.1) (out := body'.2.2)
    (hr1.tells (hr0.tells h)) (by rw [hr2.params]; exact hL) he
  rw [hr2.params] at hr3 hres
  refine ⟨hr2.trans hr3, ?_⟩
  rw [hres, hc1, State.burstCount, hk1]
  rfl

/-! ### The two requests, their bodies whole or stopped -/

/-- A `WRITE` whose answers are `y` at the entry, `x` before each byte and `e` from the exit on. -/
theorem exec_write_told {n : BitVec 16} {payload : List Byte} {s : State} {f : Nat → Byte} {y x e : Byte}
    (hn : payload.length = n.toNat) (hn0 : n ≠ 0) (hl : s.regs.life = .ready) (h : s.bus.peer.Tells f)
    (hL : s.params.retryLimit ≠ 0) (h0 : f 0 = y) (hy : meets .commandReady y = true)
    (hf : ∀ i, i < payload.length → f (i + 1) = x) (hx : meets .autoWriteReady x = true)
    (he : ∀ i, f (i + payload.length + 1) = e) :
    exec (.write n payload) s = .next (s.done s.regs
      ([.statusRead y, .commandWrite 0xB0] ++
        (payload.flatMap fun b => [.statusRead x, .dataWrite (sentByte (s.regs.entryMode == .text) b)]) ++
        exitCycles s.params .autoWriteReady e) ⟨exitCode s.params .autoWriteReady e .ok, n, []⟩) := by
  obtain ⟨hr, hres⟩ := burstWrite_told (text := s.regs.entryMode == .text) (s := s.acquire) (k := n)
    (payload_ne_nil hn hn0) h hL h0 hy (fun t hp ht hk => by
      have hbody := writeBody_told (text := s.regs.entryMode == .text) hk ht (by rw [hp]; exact hL) hf hx
      rw [ofNat_length hn, zero_add] at hbody
      exact hbody) (by rw [statusReads_dataWrites]; exact he)
  rw [exec_write_ready hn hl hr]
  exact congrArg (fun r => Host.Outcome.next (s.done _ _ r)) hres

/-- A `READ` whose answers are `y` at the entry, `x` before each byte and `e` from the exit on. -/
theorem exec_read_told {n : BitVec 16} {s : State} {f : Nat → Byte} {y x e : Byte}
    (hn0 : n ≠ 0) (hl : s.regs.life = .ready) (h : s.bus.peer.Tells f)
    (hL : s.params.retryLimit ≠ 0) (h0 : f 0 = y) (hy : meets .commandReady y = true)
    (hf : ∀ i, i < n.toNat → f (i + 1) = x) (hx : meets .autoReadReady x = true)
    (he : ∀ i, f (i + n.toNat + 1) = e) :
    exec (.read n) s = .next (s.done s.regs
      ([.statusRead y, .commandWrite 0xB1] ++
        ((readBytes n.toNat (s.bus.peer.afterCommandWrite 0xB1)).flatMap fun v => [.statusRead x, .dataRead v]) ++
        exitCycles s.params .autoReadReady e)
      ⟨exitCode s.params .autoReadReady e .ok, n, readBytes n.toNat (s.bus.peer.afterCommandWrite 0xB1)⟩) := by
  obtain ⟨hr, hres⟩ := burstRead_told (s := s.acquire) (k := n) (toNat_ne_zero hn0) h hL h0 hy
    (fun t hp ht hk hu => by
      have hbody := readBody_told hk ht (by rw [hp]; exact hL) hf hx
      rw [readBytes_congr hu, BitVec.ofNat_toNat, BitVec.setWidth_eq, zero_add] at hbody
      exact hbody) (by rw [statusReads_dataReads, length_readBytes]; exact he)
  rw [exec_read_ready hl hr]
  exact congrArg (fun r => Host.Outcome.next (s.done _ _ r)) hres

theorem exitCode_timeout (p : Params) (own : PollCond) (e : Byte) :
    exitCode p own e .handshakeTimeout = .handshakeTimeout := ite_self _

/-- A `WRITE` whose poll before byte `k` takes its whole budget of `z`, after `y` at the entry and `x` before each byte
moved; the exit is told `e`. -/
theorem exec_write_told_stops {n : BitVec 16} {payload : List Byte} {k : Nat} {s : State} {f : Nat → Byte}
    {y x z e : Byte} (hn : payload.length = n.toNat) (hk : k < payload.length) (hl : s.regs.life = .ready)
    (h : s.bus.peer.Tells f) (hL : s.params.retryLimit ≠ 0) (h0 : f 0 = y) (hy : meets .commandReady y = true)
    (hf : ∀ i, i < k → f (i + 1) = x) (hx : meets .autoWriteReady x = true)
    (hz : ∀ i, i < s.params.retryLimit.toNat → f (i + k + 1) = z) (hz' : meets .autoWriteReady z = false)
    (he : ∀ i, f (i + (k + s.params.retryLimit.toNat) + 1) = e) :
    exec (.write n payload) s = .next (s.done s.regs
      ([.statusRead y, .commandWrite 0xB0] ++
        (((payload.take k).flatMap fun b => [.statusRead x, .dataWrite (sentByte (s.regs.entryMode == .text) b)]) ++
          List.replicate s.params.retryLimit.toNat (.statusRead z)) ++
        exitCycles s.params .autoWriteReady e) ⟨.handshakeTimeout, BitVec.ofNat 16 k, []⟩) := by
  have htake : (payload.take k).length = k := List.length_take_of_le (Nat.le_of_lt hk)
  have hdrop : payload.drop k ≠ [] := List.ne_nil_of_length_pos (by rw [List.length_drop]; omega)
  obtain ⟨hr, hres⟩ := burstWrite_told (text := s.regs.entryMode == .text) (s := s.acquire) (k := BitVec.ofNat 16 k)
    (bytes := payload) (List.ne_nil_of_length_pos (by omega)) h hL h0 hy (fun t hp ht hburst => by
      have hbody := writeBody_told_stops (text := s.regs.entryMode == .text) (moved := payload.take k) hburst ht
        (by rw [hp]; exact hL) (by rw [htake]; exact hf) hx hdrop (by rw [htake, hp]; exact hz) hz'
      rw [List.take_append_drop, htake, hp, zero_add] at hbody
      exact hbody) (by rw [statusReads_append, statusReads_dataWrites, statusReads_replicate, htake]; exact he)
  rw [exitCode_timeout] at hres
  rw [exec_write_ready hn hl hr]
  exact congrArg (fun r => Host.Outcome.next (s.done _ _ r)) hres

theorem exec_read_told_stops {n : BitVec 16} {k : Nat} {s : State} {f : Nat → Byte} {y x z e : Byte}
    (hk : k < n.toNat) (hl : s.regs.life = .ready)
    (h : s.bus.peer.Tells f) (hL : s.params.retryLimit ≠ 0) (h0 : f 0 = y) (hy : meets .commandReady y = true)
    (hf : ∀ i, i < k → f (i + 1) = x) (hx : meets .autoReadReady x = true)
    (hz : ∀ i, i < s.params.retryLimit.toNat → f (i + k + 1) = z) (hz' : meets .autoReadReady z = false)
    (he : ∀ i, f (i + (k + s.params.retryLimit.toNat) + 1) = e) :
    exec (.read n) s = .next (s.done s.regs
      ([.statusRead y, .commandWrite 0xB1] ++
        (((readBytes k (s.bus.peer.afterCommandWrite 0xB1)).flatMap fun v => [.statusRead x, .dataRead v]) ++
          List.replicate s.params.retryLimit.toNat (.statusRead z)) ++
        exitCycles s.params .autoReadReady e)
      ⟨.handshakeTimeout, BitVec.ofNat 16 k, readBytes k (s.bus.peer.afterCommandWrite 0xB1)⟩) := by
  obtain ⟨m, hm⟩ : ∃ m, n.toNat = k + m := ⟨n.toNat - k, by omega⟩
  obtain ⟨hr, hres⟩ := burstRead_told (n := n.toNat) (s := s.acquire) (k := BitVec.ofNat 16 k) (by omega) h hL h0 hy
    (fun t hp ht hburst hu => by
      have hbody := readBody_told_stops (n := m) hburst ht (by rw [hp]; exact hL) hf hx (by omega)
        (by rw [hp]; exact hz) hz'
      rw [readBytes_congr hu, hp, zero_add, ← hm] at hbody
      exact hbody) (by
        rw [statusReads_append, statusReads_dataReads, statusReads_replicate, length_readBytes]; exact he)
  rw [exitCode_timeout] at hres
  rw [exec_read_ready hl hr]
  exact congrArg (fun r => Host.Outcome.next (s.done _ _ r)) hres

/-! ### The scripts of the obligations -/

theorem readyCycles_dataWrites (bytes : List Byte) :
    readyCycles (bytes.map .dataWrite) = bytes.flatMap fun v => [.statusRead 0x0F, .dataWrite v] :=
  List.flatMap_map ..

theorem readyCycles_dataReads (bytes : List Byte) :
    readyCycles (bytes.map .dataRead) = bytes.flatMap fun v => [.statusRead 0x0F, .dataRead v] :=
  List.flatMap_map ..

/-- The payload's cycles, written from the bytes as sent. -/
theorem flatMap_sent (payload : List Byte) (m : EntryMode) (x : Byte) :
    (payload.flatMap fun b => [BusCycle.statusRead x, .dataWrite (sentByte (m == .text) b)]) =
      (payload.map fun b => if m = .text then b - 0x20 else b).flatMap fun v => [.statusRead x, .dataWrite v] := by
  rw [← map_sentByte, List.flatMap_map]

theorem getD_replicate_append (a m i : Nat) (x z e : Byte) :
    (List.replicate a x ++ List.replicate m z).getD i e = if i < a then x else if i < a + m then z else e := by
  rw [List.getD_eq_getElem?_getD, List.getElem?_append, List.length_replicate]
  split
  · rename_i h
    rw [List.getElem?_replicate_of_lt h]
    rfl
  · rename_i h
    rw [List.getElem?_replicate]
    by_cases h' : i < a + m
    · rw [if_pos h', if_pos (by omega)]
      rfl
    · rw [if_neg h', if_neg (by omega)]
      rfl

/-- The script of a burst that stops before byte `k` (95_test_vectors.md L2.4). -/
def stoppingScript (k m : Nat) : List Byte := List.replicate (k + 1) 0x0F ++ List.replicate m 0x03

/-- Settles O34: the stream is 0x0F up to byte `k`, a budget of 0x03, and then `e` (`exec_write_told_stops`,
`exec_read_told_stops`). -/
theorem midBurstTimeoutStillExits : Obligations.MidBurstTimeoutStillExits := by
  intro n payload k m e s hn hk hl hL hscript hconst hm sent data budget exit
  have h := tells_script (script := stoppingScript k m) hscript hconst
  have h0 : ∀ i, i ≤ k → (stoppingScript k m).getD i e = 0x0F := fun i hi => by
    rw [stoppingScript, getD_replicate_append, if_pos (by omega)]
  have hz : ∀ i, i < s.params.retryLimit.toNat → (stoppingScript k m).getD (i + k + 1) e = 0x03 := fun i hi => by
    rw [stoppingScript, getD_replicate_append, if_neg (by omega)]
    rcases hm with ⟨-, rfl⟩ | rfl
    · exact ite_self _
    · exact if_pos (by omega)
  have he : ∀ i, (stoppingScript k m).getD (i + (k + s.params.retryLimit.toNat) + 1) e = e := fun i => by
    rw [stoppingScript, getD_replicate_append, if_neg (by omega)]
    rcases hm with ⟨-, rfl⟩ | rfl
    · exact ite_self _
    · exact if_neg (by omega)
  have hexit : ∀ own, exit own = exitCycles s.params own e := fun own => rfl
  have hw := exec_write_told_stops (x := 0x0F) (z := 0x03) hn hk hl h hL (h0 0 (by omega)) (by decide)
    (fun i hi => h0 (i + 1) (by omega)) (by decide) hz (by decide) he
  have hr := exec_read_told_stops (x := 0x0F) (z := 0x03) (hn ▸ hk) hl h hL (h0 0 (by omega)) (by decide)
    (fun i hi => h0 (i + 1) (by omega)) (by decide) hz (by decide) he
  refine ⟨?_, ?_⟩
  · rw [hw, hexit, readyCycles_cons, readyCycles_dataWrites, flatMap_sent, List.map_take]
    simp [sent, budget]
  · rw [hr, hexit, readyCycles_cons, readyCycles_dataReads]
    simp [data, budget]

/-- An exit whose poll never meets its condition is a budget of status reads, and the burst's code (R189). -/
theorem exitCycles_never {p : Params} {own : PollCond} {e : Byte} (h : meets (exitCond p.exitPoll own) e = false) :
    exitCycles p own e = List.replicate p.retryLimit.toNat (.statusRead e) := by
  rw [exitCycles, h]
  rfl

theorem exitCode_never {p : Params} {own : PollCond} {e : Byte} (h : meets (exitCond p.exitPoll own) e = false)
    (c : Code) : exitCode p own e c = .handshakeTimeout := by
  rw [exitCode, h]
  rfl

theorem exitCycles_met {p : Params} {own : PollCond} {e : Byte} (h : meets (exitCond p.exitPoll own) e = true) :
    exitCycles p own e = [.statusRead e, .commandWrite 0xB2] := by
  rw [exitCycles, h]
  rfl

theorem exitCode_met {p : Params} {own : PollCond} {e : Byte} (h : meets (exitCond p.exitPoll own) e = true)
    (c : Code) : exitCode p own e c = c := by
  rw [exitCode, h]
  rfl

/-- Settles O35: the stream is 0x0F up to the last byte and then 0x00, which meets no exit's condition. -/
theorem exitFailureReportsTheBytesMoved : Obligations.ExitFailureReportsTheBytesMoved := by
  rintro n payload s hn hn0 hl ⟨hscript, hconst, hL⟩ sent data budget
  have h := tells_script hscript hconst
  have h0 : ∀ i, i ≤ payload.length → (List.replicate (payload.length + 1) (0x0F : Byte)).getD i 0x00 = 0x0F :=
    fun i hi => by rw [List.getD_replicate _ (by omega)]
  have he : ∀ i, (List.replicate (payload.length + 1) (0x0F : Byte)).getD (i + payload.length + 1) 0x00 = 0x00 :=
    fun i => List.getD_eq_default _ _ (by rw [List.length_replicate]; omega)
  have hnever : ∀ own, meets (exitCond s.params.exitPoll own) 0x00 = false := fun own => by
    generalize exitCond s.params.exitPoll own = c
    cases c <;> decide
  refine ⟨?_, ?_⟩
  · rw [exec_write_told (x := 0x0F) hn hn0 hl h hL (h0 0 (by omega)) (by decide) (fun i hi => h0 (i + 1) (by omega))
      (by decide) he, exitCycles_never (hnever _), exitCode_never (hnever _), readyCycles_cons, readyCycles_dataWrites,
      flatMap_sent]
    simp [sent, budget]
  · rw [exec_read_told (x := 0x0F) hn0 hl h hL (h0 0 (by omega)) (by decide) (fun i hi => h0 (i + 1) (by omega))
      (by decide) (by rw [← hn]; exact he), exitCycles_never (hnever _), exitCode_never (hnever _), readyCycles_cons,
      readyCycles_dataReads]
    simp [data, budget]

/-- Settles O36: the stream is 0x03 and then the one constant, which meets the burst's own condition and not
ready-for-command. -/
theorem exitPollFollowsItsParameter : Obligations.ExitPollFollowsItsParameter := by
  intro n payload s hn hn0 hl hscript hL sent written data taken
  refine ⟨fun hconst => ?_, fun hconst => ?_⟩
  · have hw := exec_write_told (y := 0x03) (x := 0x08) (e := 0x08) hn hn0 hl (tells_script hscript hconst) hL rfl (by decide)
      (fun _ _ => rfl) (by decide) (fun _ => rfl)
    rw [flatMap_sent] at hw
    refine ⟨fun hp => ?_, fun hp => ?_⟩
    · have hmet : meets (exitCond s.params.exitPoll .autoWriteReady) 0x08 = true := by rw [hp]; decide
      rw [hw, exitCycles_met hmet, exitCode_met hmet]
    · have hnever : meets (exitCond s.params.exitPoll .autoWriteReady) 0x08 = false := by rw [hp]; decide
      rw [hw, exitCycles_never hnever, exitCode_never hnever]
  · have hr := exec_read_told (y := 0x03) (x := 0x04) (e := 0x04) hn0 hl (tells_script hscript hconst) hL rfl (by decide)
      (fun _ _ => rfl) (by decide) (fun _ => rfl)
    refine ⟨fun hp => ?_, fun hp => ?_⟩
    · have hmet : meets (exitCond s.params.exitPoll .autoReadReady) 0x04 = true := by rw [hp]; decide
      rw [hr, exitCycles_met hmet, exitCode_met hmet]
    · have hnever : meets (exitCond s.params.exitPoll .autoReadReady) 0x04 = false := by rw [hp]; decide
      rw [hr, exitCycles_never hnever, exitCode_never hnever]

end Sys2Proof.Machine
end

section
/-! Proofs of the display-memory family (20_memory.md §2 and §3): memory changes only where a data write meets a controller
in auto-write mode. -/

namespace Sys2Proof.Machine

/-! ### Cycles that write no data -/

/-- A list of cycles without a data write. -/
def NoDataWrite (l : List BusCycle) : Prop := ∀ v, .dataWrite v ∉ l

theorem dataWrite_mem_transfers {v : Byte} {l : List BusCycle} : .dataWrite v ∈ transfers l ↔ .dataWrite v ∈ l := by
  simp [transfers, BusCycle.isTransfer]

theorem noDataWrite_of_transfers {l : List BusCycle} (h : NoDataWrite (transfers l)) : NoDataWrite l :=
  fun v hm => h v (dataWrite_mem_transfers.2 hm)

theorem NoDataWrite.prefix {l w : List BusCycle} (h : NoDataWrite w) (hp : l <+: w) : NoDataWrite l :=
  fun v hm => h v (hp.subset hm)

theorem mem_run_noDataWrite (b : Bus) {l : List BusCycle} (h : NoDataWrite l) :
    (b.run l).peer.device.mem = b.peer.device.mem := by
  induction l generalizing b with
  | nil => rfl
  | cons c l ih =>
    have hc : (b.peer.after c).device.mem = b.peer.device.mem := by
      rcases after_mem b.peer c with e | ⟨v, rfl, -⟩
      · exact e
      · exact absurd (List.mem_cons_self ..) (h v)
    exact (ih (b.cycle c) fun v hm => h v (List.mem_cons_of_mem _ hm)).trans hc

theorem displayByte_noDataWrite {s t : State} {l : List BusCycle} (hb : t.bus = s.bus.run l) (h : NoDataWrite l)
    (x : Nat) : displayByte t x = displayByte s x := by
  rw [displayByte, displayByte, hb, mem_run_noDataWrite _ h]

/-- A request that needs `Ready` issues the cycles of its rule, or none. -/
theorem answer_whenReady_done {body : State → State × Response} {Q : List BusCycle → Prop}
    (h : ∀ t, ∃ l regs, Did t (body t).1 regs l ∧ Q l) (h0 : Q []) (s : State) :
    ∃ regs l r, answer (whenReady body) s = .next (s.done regs l r) ∧ Q l := by
  by_cases hl : s.regs.life = .ready
  · obtain ⟨l, regs, hd, hq⟩ := h s.acquire
    exact ⟨regs, l, _, answer_ready hl hd, hq⟩
  · exact ⟨_, _, _, answer_notReady hl, h0⟩

theorem noDataWrite_nil : NoDataWrite [] := fun _ => List.not_mem_nil

theorem burstRead_noDataWrite (n : Nat) (s : State) :
    ∃ l regs, Did s (burstRead n s).1 regs l ∧ NoDataWrite l := by
  by_cases hn : n = 0
  · subst hn
    exact ⟨[], _, (Ran.refl s).did, noDataWrite_nil⟩
  · obtain ⟨l, hr, hw⟩ := burstRead_spec n s hn
    refine ⟨l, _, hr.did, noDataWrite_of_transfers fun v hm => ?_⟩
    cases hw with
    | entryFailed ht hr' => rw [ht] at hm; cases hm
    | moved exit hk ht hx hr' hc =>
      rw [ht] at hm
      rcases hx with rfl | ⟨rfl, -⟩ <;> simp at hm

theorem setDisplayFlag_noDataWrite (f : Flag) (on : Bool) (s : State) :
    ∃ l regs, Did s (setDisplayFlag f on s).1 regs l ∧ NoDataWrite l := by
  obtain ⟨l, regs, hd, -, hc⟩ := spec_setDisplayFlag f on s
  refine ⟨l, regs, hd, noDataWrite_of_transfers ?_⟩
  rcases hc with ⟨-, -, ht⟩ | ⟨-, -, hst⟩
  · rw [ht]
    simp [NoDataWrite]
  · rw [stopped_singleton hst]
    exact noDataWrite_nil

/-- What a bus command sends, whole or stopped, is a part of its transfers from the first on. -/
theorem Sent.prefix {w l : List BusCycle} {c : Code} (h : Sent w l c) : transfers l <+: w := by
  cases c with
  | ok => exact h ▸ List.prefix_refl _
  | handshakeTimeout => exact h.trans (List.dropLast_prefix _)
  | notReady => exact h.elim
  | unsupportedOperation => exact h.elim
  | invalidLayout => exact h.elim

theorem exec_plainCommand_noDataWrite {i : Instr} (hi : isRequest i = false) (hn : NoDataWrite (commandTransfers i))
    (s : State) : ∃ t l, exec i s = .next t ∧ t.bus = s.bus.run l ∧ NoDataWrite l := by
  obtain ⟨l, c, hx, -, hs⟩ := exec_command_done hi s
  exact ⟨_, l, hx, rfl, noDataWrite_of_transfers (hn.prefix hs.prefix)⟩

/-- A request that leaves cycles without a data write. -/
theorem next_of_done {i : Instr} {s : State} (h : ∃ regs l r, exec i s = .next (s.done regs l r) ∧ NoDataWrite l) :
    ∃ t l, exec i s = .next t ∧ t.bus = s.bus.run l ∧ NoDataWrite l := by
  obtain ⟨regs, l, r, hx, hn⟩ := h
  exact ⟨_, l, hx, rfl, hn⟩

/-- Settles O39: none of these instructions writes data (`NoDataWrite`). -/
theorem requestsThatStoreNothing : Obligations.RequestsThatStoreNothing := by
  intro i s t hi h x
  have key : ∃ t l, exec i s = .next t ∧ t.bus = s.bus.run l ∧ NoDataWrite l := by
    rcases hi with ⟨n, rfl⟩ | ⟨m, rfl⟩ | ⟨f, on, rfl⟩ | rfl | rfl | ⟨m, rfl⟩ | rfl | rfl | ⟨c, rfl⟩ | ⟨rfl, hl⟩
    · exact next_of_done (answer_whenReady_done (burstRead_noDataWrite n.toNat) noDataWrite_nil s)
    · exact next_of_done (answer_whenReady_done (body := plainResult (writing (Regs.setEntry m)))
        (fun t => ⟨[], _, ⟨rfl, rfl, rfl, rfl⟩, noDataWrite_nil⟩) noDataWrite_nil s)
    · exact next_of_done (answer_whenReady_done (body := plainResult (setDisplayFlag f on))
        (setDisplayFlag_noDataWrite f on) noDataWrite_nil s)
    · exact next_of_done (answer_whenReady_done (body := statusRule)
        (fun t => ⟨_, _, (statusRule_ran t).did, by simp [NoDataWrite]⟩) noDataWrite_nil s)
    · exact exec_plainCommand_noDataWrite rfl (by simp [NoDataWrite, commandTransfers]) s
    · exact exec_plainCommand_noDataWrite rfl (by simp [NoDataWrite, commandTransfers]) s
    · exact exec_plainCommand_noDataWrite rfl (by simp [NoDataWrite, commandTransfers]) s
    · exact exec_plainCommand_noDataWrite rfl (by simp [NoDataWrite, commandTransfers]) s
    · exact exec_plainCommand_noDataWrite rfl (by simp [NoDataWrite, commandTransfers]) s
    · exact ⟨_, [], answer_unchanged (openBody_ready (s := s.acquire) hl), rfl, noDataWrite_nil⟩
  obtain ⟨t', l, hx, hb, hn⟩ := key
  obtain rfl := Host.Outcome.next.inj (hx.symm.trans h)
  exact displayByte_noDataWrite hb hn x

/-! ### Argument bytes (R189, R70) -/

/-- A step stopped short of the end of transfers without a burst has sent a part of them (R185). -/
theorem Stopped.prefix {w l : List BusCycle} (h : Stopped w l) (hw : .commandWrite 0xB0 ∉ w) : transfers l <+: w := by
  obtain ⟨p, hp, -, ht | ⟨⟨q, sent, hq⟩, -⟩⟩ := h
  · exact ht ▸ hp
  · exact absurd (hp.subset (by rw [hq]; simp)) hw

theorem addrCycles_eq_append (op : Byte) (a : Addr) :
    addrCycles op a = [lo8 a, hi8 a].map .dataWrite ++ [.commandWrite op] := rfl

/-- A part of data bytes and a strobe is a part of the data bytes, or all of it. -/
theorem prefix_command {p : List BusCycle} {bytes : List Byte} {op : Byte}
    (h : p <+: bytes.map .dataWrite ++ [.commandWrite op]) :
    (∃ sent, sent <+: bytes ∧ p = sent.map .dataWrite) ∨ p = bytes.map .dataWrite ++ [.commandWrite op] := by
  rcases List.prefix_concat_iff.1 h with h | h
  · exact .inr h
  · refine .inl ⟨bytes.take p.length, List.take_prefix _ _, ?_⟩
    rw [List.map_take]
    exact List.prefix_iff_eq_take.1 h

/-- Data writes store only at the pointer of a controller in auto-write mode and after it. -/
theorem dataWrites_mem (b : Bus) {l : List BusCycle} {bytes : List Byte} (ht : transfers l = bytes.map .dataWrite)
    (hm : Memory.wf b.peer.device.mem = true) (hn : bytes.length ≤ 0x10000) :
    (¬ b.stores → (b.run l).peer.device.mem = b.peer.device.mem) ∧
    ∀ x, (∀ i, i < bytes.length → x ≠ (b.peer.device.adp + BitVec.ofNat 16 i).toNat) →
      Memory.read (b.run l).peer.device.mem x = Memory.read b.peer.device.mem x := by
  have hno : ¬ b.stores → (b.run l).peer.device.mem = b.peer.device.mem := fun hs => by
    obtain ⟨y, hy⟩ := device_latches b ht hs
    rw [hy]
  refine ⟨hno, fun x hx => ?_⟩
  by_cases hs : b.stores
  · obtain ⟨m, h1, -, -, h4⟩ := storeAll_spec b.peer.device bytes hs.2 hm hn
    rw [(device_dataWrites b ht hs.1).1, h1]
    exact h4 x hx
  · rw [hno hs]

/-- An address command, whole or stopped, stores at most its two bytes, and none where the controller does not store. -/
theorem addrCommand_mem (b : Bus) {l : List BusCycle} {op : Byte} {a : Addr} (ht : transfers l <+: addrCycles op a)
    (hm : Memory.wf b.peer.device.mem = true) :
    (¬ b.stores → (b.run l).peer.device.mem = b.peer.device.mem) ∧
    ∀ x, x ≠ (b.peer.device.adp + BitVec.ofNat 16 0).toNat → x ≠ (b.peer.device.adp + BitVec.ofNat 16 1).toNat →
      Memory.read (b.run l).peer.device.mem x = Memory.read b.peer.device.mem x := by
  obtain ⟨l1, l2, bytes, rfl, h1, hlen, h2⟩ : ∃ l1 l2, ∃ bytes : List Byte, l = l1 ++ l2 ∧
      transfers l1 = bytes.map .dataWrite ∧ bytes.length ≤ 2 ∧ NoDataWrite l2 := by
    rw [addrCycles_eq_append] at ht
    rcases prefix_command ht with ⟨sent, hsent, hl⟩ | hl
    · exact ⟨l, [], sent, by simp, hl, hsent.length_le, noDataWrite_nil⟩
    · obtain ⟨l1, l2, rfl, h1, h2⟩ := split_transfers hl
      exact ⟨l1, l2, _, rfl, h1, le_rfl, noDataWrite_of_transfers (by rw [h2]; simp [NoDataWrite])⟩
  obtain ⟨hno, hat⟩ := dataWrites_mem b h1 hm (by omega)
  rw [run_append, mem_run_noDataWrite _ h2]
  refine ⟨hno, fun x h0 h1' => hat x fun i hi => ?_⟩
  have : i = 0 ∨ i = 1 := by omega
  rcases this with rfl | rfl
  · exact h0
  · exact h1'

/-- What the seven instructions with a 16-bit argument send is a part of an address command, or nothing. -/
theorem setAddressPointer_prefix (a : Addr) (s : State) :
    ∃ l regs, Did s (setAddressPointer a s).1 regs l ∧ ∃ op a, transfers l <+: addrCycles op a := by
  obtain ⟨l, regs, hd, -, hc⟩ := spec_setAddressPointer a s
  refine ⟨l, regs, hd, 0x24, a, ?_⟩
  rcases hc with ⟨-, -, ht⟩ | ⟨-, -, hst⟩
  · exact ht ▸ List.prefix_refl _
  · exact hst.prefix (by simp [addrCycles])

theorem setBaseAddress_prefix (r : Region) (a : Addr) (s : State) :
    ∃ l regs, Did s (setBaseAddress r a s).1 regs l ∧ ∃ op a, transfers l <+: addrCycles op a := by
  by_cases hv : BaseValid s r a
  · rw [setBaseAddress, if_pos hv]
    obtain ⟨l, regs, hd, -, hc⟩ := spec_setBase r a s
    refine ⟨l, regs, hd, homeByte r, a, ?_⟩
    rcases hc with ⟨-, -, ht⟩ | ⟨-, -, hst⟩
    · exact ht ▸ List.prefix_refl _
    · exact hst.prefix (by cases r <;> simp [addrCycles, homeByte])
  · rw [setBaseAddress_invalid hv]
    exact ⟨[], _, (Ran.refl s).did, 0, 0, List.nil_prefix⟩

theorem exec_argument {i : Instr} (s : State)
    (hi : (∃ a, i = .ctrlSetAdp a) ∨ (∃ r a, i = .ctrlSetBase r a) ∨ (∃ a, i = .setAdp a) ∨ (∃ a, i = .txtHome a) ∨
      (∃ p, i = .txtArea p) ∨ (∃ a, i = .gfxHome a) ∨ (∃ p, i = .gfxArea p)) :
    ∃ t l op a, exec i s = .next t ∧ t.bus = s.bus.run l ∧ transfers l <+: addrCycles op a := by
  have command : ∀ i op a, isRequest i = false → commandTransfers i = addrCycles op a →
      ∃ t l op a, exec i s = .next t ∧ t.bus = s.bus.run l ∧ transfers l <+: addrCycles op a := fun i op a hi ht => by
    obtain ⟨l, c, hx, -, hs⟩ := exec_command_done hi s
    exact ⟨_, l, op, a, hx, rfl, ht ▸ hs.prefix⟩
  rcases hi with ⟨a, rfl⟩ | ⟨r, a, rfl⟩ | ⟨a, rfl⟩ | ⟨a, rfl⟩ | ⟨a, rfl⟩ | ⟨a, rfl⟩ | ⟨a, rfl⟩
  · obtain ⟨regs, l, r, hx, op, b, hp⟩ := answer_whenReady_done (body := plainResult (setAddressPointer a))
      (setAddressPointer_prefix a) ⟨0, 0, List.nil_prefix⟩ s
    exact ⟨_, l, op, b, hx, rfl, hp⟩
  · obtain ⟨regs, l, r, hx, op, b, hp⟩ := answer_whenReady_done (body := plainResult (setBaseAddress r a))
      (setBaseAddress_prefix r a) ⟨0, 0, List.nil_prefix⟩ s
    exact ⟨_, l, op, b, hx, rfl, hp⟩
  · exact command _ 0x24 a rfl rfl
  · exact command _ 0x40 a rfl rfl
  · exact command _ 0x41 a rfl rfl
  · exact command _ 0x42 a rfl rfl
  · exact command _ 0x43 a rfl rfl

/-- Settles O40: each sends a part of an address command (`exec_argument`), whose bytes are stored only by a controller in
auto-write mode (`addrCommand_mem`). -/
theorem argumentBytesStoreOnlyInAutoWrite : Obligations.ArgumentBytesStoreOnlyInAutoWrite := by
  intro i s t hi hp h
  obtain ⟨t', l, op, a, hx, hb, ht⟩ := exec_argument s hi
  obtain rfl := Host.Outcome.next.inj (hx.symm.trans h)
  obtain ⟨hno, hat⟩ := addrCommand_mem s.bus ht hp.1
  unfold displayByte
  rw [hb]
  exact ⟨fun hs x => by rw [hno hs], hat⟩

/-! ### A `WRITE` on the attached controller (R177) -/

/-- Settles O38: a burst that moved `k` bytes has stored them at the pointer (`device_burst`); one whose entry failed, or
of no byte, has moved none. -/
theorem writeStoresAtThePointer : Obligations.WriteStoresAtThePointer := by
  intro n payload s hn hl hp ha sent
  have hsent : sent = payload.map (sentByte (s.regs.entryMode == .text)) := (map_sentByte _ _).symm
  have nothing : ∀ t : State, t.bus.peer.device = s.bus.peer.device →
      t.bus.peer.device.adp = s.bus.peer.device.adp + BitVec.ofNat 16 0 ∧
      (∀ i, i < 0 → sent[i]? = some (displayByte t (pointerAfter s i))) ∧
      ∀ x, (∀ i, i < 0 → x ≠ pointerAfter s i) → displayByte t x = displayByte s x := fun t ht =>
    ⟨by rw [ht]; simp, fun i hi => absurd hi (Nat.not_lt_zero i), fun x _ => by rw [displayByte, ht]; rfl⟩
  by_cases h0 : n = 0
  · subst h0
    obtain rfl : payload = [] := List.length_eq_zero_iff.1 hn
    exact ⟨_, _, 0, exec_write_empty hl, le_rfl, rfl, nothing _ rfl⟩
  obtain ⟨l, hr, hw⟩ := burstWrite_spec payload (s.regs.entryMode == .text) s.acquire (payload_ne_nil hn h0)
  have hx := exec_write_ready hn hl hr
  have hrule : writeRule payload s.acquire = burstWrite payload (s.regs.entryMode == .text) s.acquire := rfl
  rw [hrule] at hx
  generalize (burstWrite payload (s.regs.entryMode == .text) s.acquire).2 = r at hw hx
  cases hw with
  | entryFailed ht hr' =>
    subst hr'
    exact ⟨_, _, 0, hx, Nat.zero_le _, rfl, nothing _ (device_run_idle s.bus l ht).1⟩
  | moved k exit hk ht hexit hr' hc =>
    obtain ⟨c, count, data⟩ := r
    obtain ⟨rfl, rfl⟩ : count = BitVec.ofNat 16 k ∧ data = [] := hr'
    rw [map_take_sent, ← hsent] at ht
    have hlen : (sent.take k).length = k := List.length_take_of_le (by rw [hsent, List.length_map]; exact hk)
    have hfit : k ≤ 0x10000 := by have := n.isLt; omega
    obtain ⟨m, auto, hd, -, -, -, hst, hfr⟩ := device_burst s.bus (hexit.imp id And.left) ht ha hp.1 (by rw [hlen]; exact hfit)
    rw [hlen] at hd hfr
    have hdev : (s.done s.regs l ⟨c, BitVec.ofNat 16 k, []⟩).bus.peer.device = _ := hd
    refine ⟨_, c, k, hx, hk, rfl, by rw [hdev], fun i hi => ?_, fun x hx' => ?_⟩
    · have hi' : i < (sent.take k).length := hlen.symm ▸ hi
      rw [displayByte, hdev]
      have hget := List.getElem?_eq_getElem hi'
      rw [← List.getElem?_take_of_lt hi, hget]
      exact congrArg some (hst i _ hget).symm
    · rw [displayByte, hdev]
      exact hfr x hx'

/-! ### A clear (R214) -/

/-- A region of a valid layout lies in display memory (R205). -/
theorem region_fits {s : State} (h : LayoutInv s) (hl : s.regs.life = .ready) (r : Region) :
    (regionBase s.regs r).toNat + regionLen s.regs r ≤ 0x10000 := by
  obtain ⟨-, -, -, hrw, -, -, h3, h4, h5⟩ := h hl
  have hspace := s.params.addrSpace.isLt
  cases r with
  | text =>
    show s.regs.textBase.toNat + textLen _ _ ≤ _
    omega
  | graphics =>
    show s.regs.gfxBase.toNat + gfxLen _ _ ≤ _
    rw [hrw]
    omega

/-- A clear on a `Ready` engine, whatever the peer answers (R214). -/
theorem exec_ctrlClear_ready {r : Region} {s : State} (hl : s.regs.life = .ready) :
    ∃ regs l res, exec (.ctrlClear r) s = .next (s.done regs l res) ∧
      ClearRun (regionBase s.regs r) (regionLen s.regs r) l res ∧
      ((regs = s.regs ∧ res = ⟨.handshakeTimeout, 0, []⟩ ∧ ∀ op, .commandWrite op ∉ l) ∨
        (regs = Regs.setShadow (regionBase s.regs r) s.regs ∧ .commandWrite 0x24 ∈ l)) := by
  obtain ⟨l, regs, hd, hrun, hc⟩ := clearRegion_spec r s.acquire
  exact ⟨regs, l, _, answer_ready (body := clearRegion r) hl hd, hrun, hc⟩

theorem exec_ctrlClear_oracle {r : Region} {s : State} (hl : s.regs.life = .ready) (h : ReadyOracle s) :
    exec (.ctrlClear r) s = .next (s.done (Regs.setShadow (regionBase s.regs r) s.regs)
      (readyCycles (clearCycles (regionBase s.regs r) (regionLen s.regs r)))
      ⟨.ok, BitVec.ofNat 16 (regionLen s.regs r), []⟩) := by
  obtain ⟨hd, hres⟩ := clearRegion_ready r s.acquire h
  exact (answer_ready (body := clearRegion r) hl hd).trans (by rw [hres]; rfl)

/-- Settles O41: `device_clear`, with the region inside display memory by the layout. -/
theorem clearZeroesItsRegion : Obligations.ClearZeroesItsRegion := by
  intro r s hl hlay hp hs base len
  have hbase : base = (regionBase s.regs r).toNat := by cases r <;> rfl
  have hlen : len = regionLen s.regs r := by cases r <;> rfl
  obtain ⟨regs, l, res, hx, hrun, -⟩ := exec_ctrlClear_ready (r := r) hl
  obtain ⟨hout, hin⟩ := device_clear s.bus hrun (region_fits hlay hl r) hp.1 hs
  rw [hbase, hlen]
  refine ⟨fun t ht x hx' => ?_, fun hready ha => ⟨_, hx, ?_⟩⟩
  · obtain rfl := Host.Outcome.next.inj (hx.symm.trans ht)
    exact hout x hx'
  · have hres : res.code = .ok := by
      have := congrArg State.port (Host.Outcome.next.inj (hx.symm.trans (exec_ctrlClear_oracle hl hready)))
      have hlog := List.append_cancel_left (congrArg Port.log this)
      cases hlog
      rfl
    obtain ⟨hadp, hzero⟩ := (hin hres).2 ha
    refine ⟨hadp.trans ?_, hzero⟩
    apply BitVec.eq_of_toNat_eq
    simp

end Sys2Proof.Machine
end

section
/-! Writing and reading back (42_auto_burst.md R192): what the attached controller in auto-read mode answers, and the four
requests one after the other under `READY`. -/

namespace Sys2Proof.Machine

theorem dataRead_reading {d : RefDevice} (h : d.auto = .read) : d.dataRead = { d with adp := d.adp + 1 } := by
  unfold RefDevice.dataRead
  split
  · rfl
  · next hd => exact nomatch hd.symm.trans h
  · next hd => exact nomatch hd.symm.trans h

/-- In auto-read mode the attached controller answers the bytes at its pointer and the addresses after it (R70). -/
theorem readBytes_device {n : Nat} {p : Peer} (ha : p.attached = true) (hr : p.device.auto = .read) :
    readBytes n p = (List.range n).map fun i => Memory.read p.device.mem (p.device.adp + BitVec.ofNat 16 i).toNat := by
  induction n generalizing p with
  | zero => rfl
  | succ n ih =>
    have hreads : p.deviceReads = true := by simp [Peer.deviceReads, ha, hr]
    have hans : p.dataAnswer = Memory.read p.device.mem p.device.adp.toNat := if_pos hreads
    have hnext : p.afterDataRead = { p with device := { p.device with adp := p.device.adp + 1 } } := by
      rw [Peer.afterDataRead, if_pos hreads, dataRead_reading hr]
    rw [readBytes, hans, ih (by rw [hnext]; exact ha) (by rw [hnext]; exact hr), List.range_succ_eq_map, List.map_cons,
      List.map_map, hnext]
    refine congrArg₂ List.cons (by simp) (List.map_congr_left fun i _ => ?_)
    simp only [Function.comp_apply, ofNat_succ_add]

theorem ready_done {s : State} (h : ReadyOracle s) (regs : Regs) (l : List BusCycle) (r : Response) :
    ReadyOracle (s.done regs l r) :=
  ready_did h (t := { s.done regs l r with port := s.port }) ⟨rfl, rfl, rfl, rfl⟩

/-- `CTRL.SETADP` under `READY` (R256). -/
theorem exec_ctrlSetAdp_oracle {a : Addr} {s : State} (hl : s.regs.life = .ready) (h : ReadyOracle s) :
    exec (.ctrlSetAdp a) s =
      .next (s.done (Regs.setShadow a s.regs) (readyCycles (addrCycles 0x24 a)) ⟨.ok, 0, []⟩) :=
  answer_plain_ready hl h (readySpec_setAddressPointer a)

/-- Its pointer, in a controller that is not in auto-write mode. -/
theorem device_setAdp {s : State} {a : Addr} (ha : s.bus.peer.attached = true) (hw : s.bus.peer.device.auto ≠ .write) :
    (s.bus.run (readyCycles (addrCycles 0x24 a))).peer.device = { s.bus.peer.device with adp := a, latch := [] } ∧
      (s.bus.run (readyCycles (addrCycles 0x24 a))).peer.attached = true :=
  device_addrCycles s.bus (transfers_readyCycles isTransfer_addrCycles) ha hw

theorem toNat_ofNat_length {bs : List Byte} (h : bs.length < 0x10000) :
    (BitVec.ofNat 16 bs.length).toNat = bs.length := by
  rw [BitVec.toNat_ofNat, Nat.mod_eq_of_lt h]

/-- A raw `WRITE` under `READY` (R252) leaves the controller with the bytes stored from its pointer on, out of auto mode. -/
theorem exec_write_raw {bs : List Byte} {s : State} (hn : bs.length < 0x10000) (hl : s.regs.life = .ready)
    (hm : s.regs.entryMode = .graphics) (h : ReadyOracle s) (hp : PeerInv s) (ha : s.bus.peer.attached = true)
    (hw : s.bus.peer.device.auto ≠ .write) :
    ∃ t l, exec (.write (BitVec.ofNat 16 bs.length) bs) s = .next t ∧ t.params = s.params ∧ t.regs = s.regs ∧
      t.bus = s.bus.run l ∧ t.bus.peer.device.auto ≠ .write ∧
      ∀ i v, bs[i]? = some v → Memory.read t.bus.peer.device.mem (s.bus.peer.device.adp + BitVec.ofNat 16 i).toNat = v := by
  have hx := writeCompletes (BitVec.ofNat 16 bs.length) bs s (toNat_ofNat_length hn).symm hl h
  rw [hm] at hx
  simp only [reduceCtorEq, if_false, List.map_id'] at hx
  refine ⟨_, _, hx, rfl, rfl, rfl, ?_⟩
  rcases List.eq_nil_or_concat bs with rfl | ⟨init, last, hlast⟩
  · exact ⟨hw, fun i v hv => nomatch hv⟩
  · have hne : bs ≠ [] := by rw [hlast]; simp
    have ht : transfers (readyCycles (burstCycles bs)) =
        .commandWrite 0xB0 :: bs.map .dataWrite ++ [.commandWrite 0xB2] := by
      rw [transfers_readyCycles fun c hc => isTransfer_of_isWrite (isWrite_burstCycles hc), burstCycles, if_neg hne]
    obtain ⟨m, auto, hd, -, -, hauto, hst, -⟩ := device_burst s.bus (.inl rfl) ht ha hp.1 (by omega)
    have hdev : (s.bus.run (readyCycles (burstCycles bs))).peer.device = _ := hd
    refine ⟨?_, fun i v hv => ?_⟩
    · show (s.bus.run _).peer.device.auto ≠ _
      rw [hdev]
      simp [hauto]
    · show Memory.read (s.bus.run _).peer.device.mem _ = v
      rw [hdev]
      exact hst i v hv

/-- A `READ` under `READY` from a controller whose memory holds `bs` from its pointer on answers `bs` (R253). -/
theorem exec_read_device {bs : List Byte} {s : State} (hn : bs.length < 0x10000) (hl : s.regs.life = .ready)
    (h : ReadyOracle s) (ha : s.bus.peer.attached = true)
    (hmem : ∀ i v, bs[i]? = some v → Memory.read s.bus.peer.device.mem (s.bus.peer.device.adp + BitVec.ofNat 16 i).toNat = v) :
    ∃ t, exec (.read (BitVec.ofNat 16 bs.length)) s = .next t ∧
      t.port.log = s.port.log ++ [.response ⟨.ok, BitVec.ofNat 16 bs.length, bs⟩] := by
  by_cases hb : bs = []
  · subst hb
    exact ⟨_, exec_read_zero hl, rfl⟩
  have h0 : BitVec.ofNat 16 bs.length ≠ 0 := fun e => hb (List.length_eq_zero_iff.1 (by
    rw [← toNat_ofNat_length hn, e]
    rfl))
  refine ⟨_, readCompletes _ s h0 hl h, ?_⟩
  have hdev : (s.bus.peer.afterCommandWrite 0xB1).device = { s.bus.peer.device with auto := .read, latch := [] } :=
    device_commandWrite ha 0xB1
  have hatt : (s.bus.peer.afterCommandWrite 0xB1).attached = true :=
    (after_attached s.bus.peer (.commandWrite 0xB1)).trans ha
  have hdata : readBytes bs.length (s.bus.peer.afterCommandWrite 0xB1) = bs := by
    rw [readBytes_device hatt (by rw [hdev]), hdev]
    refine List.ext_getElem (by simp) fun i hi hi' => ?_
    rw [List.getElem_map, List.getElem_range]
    exact hmem i _ (List.getElem?_eq_getElem hi')
  show s.port.log ++ _ = _
  rw [toNat_ofNat_length hn, hdata]

/-- Settles O37: the `WRITE` stores the bytes at the pointer (`exec_write_raw`), and the `READ` from the same pointer
answers them (`exec_read_device`). -/
theorem writeThenReadReturnsTheBytes : Obligations.WriteThenReadReturnsTheBytes := by
  intro a bs s hn hl hm h hp ha hw
  obtain ⟨hd1, ha1⟩ := device_setAdp (a := a) ha hw
  have h1 := ready_done h (Regs.setShadow a s.regs) (readyCycles (addrCycles 0x24 a)) ⟨.ok, 0, []⟩
  have hx1 := exec_ctrlSetAdp_oracle (a := a) hl h
  generalize ht1 : s.done (Regs.setShadow a s.regs) (readyCycles (addrCycles 0x24 a)) ⟨.ok, 0, []⟩ = t1 at h1 hx1
  have hl1 : t1.regs.life = .ready := by rw [← ht1]; exact hl
  have hdev1 : t1.bus.peer.device = { s.bus.peer.device with adp := a, latch := [] } := by rw [← ht1]; exact hd1
  obtain ⟨t2, l, hx2, hp2, hr2, hb2, hw2, hmem⟩ := exec_write_raw hn hl1 (by rw [← ht1]; exact hm) h1
    (by rw [PeerInv, hdev1]; exact ⟨hp.1, Nat.zero_le _⟩) (by rw [← ht1]; exact ha1) (by rw [hdev1]; exact hw)
  have ha2 : t2.bus.peer.attached = true := by rw [hb2, run_attached, ← ht1]; exact ha1
  have h2 : ReadyOracle t2 := ready_did h1 (t := { t2 with port := t1.port }) ⟨hp2, rfl, rfl, hb2⟩
  have hl2 : t2.regs.life = .ready := by rw [hr2]; exact hl1
  obtain ⟨hd3, ha3⟩ := device_setAdp (a := a) ha2 hw2
  rw [hdev1] at hmem
  obtain ⟨t4, hx4, hlog⟩ := exec_read_device (bs := bs)
    (s := t2.done (Regs.setShadow a t2.regs) (readyCycles (addrCycles 0x24 a)) ⟨.ok, 0, []⟩) hn hl2
    (ready_done h2 _ _ _) ha3 (fun i v hv => by
      show Memory.read (t2.bus.run _).peer.device.mem ((t2.bus.run _).peer.device.adp + _).toNat = v
      rw [hd3]
      exact hmem i v hv)
  exact ⟨t1, t2, _, t4, hx1, hx2, exec_ctrlSetAdp_oracle hl2 h2, hx4, hlog⟩

end Sys2Proof.Machine
end

section
/-! A reset and display memory (43_layout_mode.md R221, 20_memory.md §3): step by step, what each leaves in the memory and
at the pointer of a controller that the reset's first command has taken out of auto mode. -/

namespace Sys2Proof.Machine

/-! ### Steps with a postcondition for success and one for failure (R296) -/

/-- From a state that meets `P` the step succeeds into `Q` or fails into `E`. -/
def Triple (P : State → Prop) (a : Action) (Q E : State → Prop) : Prop :=
  ∀ s, P s → ((a s).2 = .ok → Q (a s).1) ∧ ((a s).2 ≠ .ok → E (a s).1)

theorem Triple.andThen {P Q R E : State → Prop} {a b : Action} (ha : Triple P a Q E) (hb : Triple Q b R E) :
    Triple P (Action.andThen a b) R E := by
  intro s hs
  by_cases hok : (a s).2 = .ok
  · rw [andThen_ok hok]
    exact hb _ ((ha s hs).1 hok)
  · rw [andThen_err hok]
    exact ⟨fun h => absurd h hok, (ha s hs).2⟩

theorem triple_nil {P E : State → Prop} : Triple P (inOrder []) P E := fun _ h => ⟨fun _ => h, fun h' => absurd rfl h'⟩

/-! ### Commands outside auto mode -/

/-- A command byte that neither sets the pointer nor starts an auto mode. -/
def Benign (op : Byte) : Prop := op ≠ 0x24 ∧ op ≠ 0xB0 ∧ op ≠ 0xB1

theorem carryOut_benign {op : Byte} (h : Benign op) (a : Addr) (d : RefDevice) :
    (RefDevice.carryOut op a d).adp = d.adp ∧
      ((RefDevice.carryOut op a d).auto = d.auto ∨ (RefDevice.carryOut op a d).auto = .off) := by
  obtain ⟨h1, h2, h3⟩ := h
  unfold RefDevice.carryOut
  rw [if_neg h1, if_neg h2, if_neg h3]
  split_ifs <;> simp

/-- An attached controller is out of auto mode. -/
def Bus.off (b : Bus) : Prop := b.peer.attached = true → b.peer.device.auto = .off

theorem Bus.off.not_stores {b : Bus} (h : b.off) : ¬ b.stores := fun ⟨ha, hw⟩ => nomatch (h ha).symm.trans hw

/-- Data bytes and such a command, whole or stopped, leave memory, pointer and auto mode. -/
theorem command_quiet (b : Bus) {l : List BusCycle} {bytes : List Byte} {op : Byte}
    (ht : transfers l <+: bytes.map .dataWrite ++ [.commandWrite op]) (hop : Benign op) (hoff : b.off) :
    (b.run l).peer.device.mem = b.peer.device.mem ∧ (b.run l).peer.device.adp = b.peer.device.adp ∧ (b.run l).off := by
  by_cases ha : b.peer.attached = true
  swap
  · rw [device_run_unattached b l (by simpa using ha)]
    exact ⟨rfl, rfl, fun h => absurd ((run_attached b l).symm.trans h) ha⟩
  rcases prefix_command ht with ⟨sent, -, hl⟩ | hl
  · obtain ⟨x, hx⟩ := device_latches b hl hoff.not_stores
    rw [Bus.off, hx]
    exact ⟨rfl, rfl, fun _ => hoff ha⟩
  · obtain ⟨l1, l2, rfl, h1, h2⟩ := split_transfers hl
    obtain ⟨x, hx⟩ := device_latches b h1 hoff.not_stores
    obtain ⟨-, a, hd⟩ := device_command (b.run l1) h2 ((run_attached b l1).trans ha)
    obtain ⟨hadp, hauto⟩ := carryOut_benign hop a (b.run l1).peer.device
    rw [Bus.off, run_append, hd]
    refine ⟨(commandWrite_mem ..).trans (by rw [hx]), hadp.trans (by rw [hx]), fun _ => ?_⟩
    rcases hauto with h | h
    · exact h.trans (by rw [hx]; exact hoff ha)
    · exact h

/-- A clear that succeeds leaves the controller out of auto mode. -/
theorem clear_off (b : Bus) {base : Addr} {len : Nat} {l : List BusCycle} {r : Response} (hrun : ClearRun base len l r)
    (hok : r.code = .ok) (hlen : len ≤ 0x10000) (hm : Memory.wf b.peer.device.mem = true) (hoff : b.off) :
    (b.run l).off := by
  intro ha
  rw [run_attached] at ha
  have hauto : b.peer.device.auto ≠ .write := fun h => hoff.not_stores ⟨ha, h⟩
  cases hrun with
  | addressFailed ht hr => rw [hr] at hok; cases hok
  | empty hl ht hr =>
    rw [(device_addrCycles b ht ha hauto).1]
    exact hoff ha
  | burst l1 l2 hl ht hw =>
    subst hl
    obtain ⟨hd1, ha1⟩ := device_addrCycles b ht ha hauto
    rw [run_append]
    cases hw with
    | entryFailed ht2 hr => rw [hr] at hok; cases hok
    | moved k exit hk ht2 hx hr hc =>
      obtain ⟨-, -, rfl⟩ | ⟨hcode, -⟩ := hc
      · rw [map_take_sent] at ht2
        obtain ⟨m, auto, hd, -, -, hoff', -⟩ := device_burst (b.run l1) (.inl rfl) ht2 ha1
          (by rw [hd1]; exact (carryOut_mem ..).symm ▸ hm)
          ((List.length_take_le' ..).trans (by simpa [zeros] using hlen))
        rw [hd]
        exact hoff'
      · exact nomatch hcode.symm.trans hok

/-! ### The regions -/

/-- The address lies outside the region that the registers `k` describe. -/
def Outside (k : Regs) (r : Region) (x : Nat) : Prop :=
  x < (regionBase k r).toNat ∨ (regionBase k r).toNat + regionLen k r ≤ x

/-- Every byte of the region is zero. -/
def Zeroed (k : Regs) (r : Region) (m : Memory) : Prop :=
  ∀ x, (regionBase k r).toNat ≤ x → x < (regionBase k r).toNat + regionLen k r → Memory.read m x = 0

/-- Outside both regions the memory `m` is as in `m0`. -/
def Framed (k : Regs) (m0 m : Memory) : Prop :=
  ∀ x, Outside k .text x → Outside k .graphics x → Memory.read m x = Memory.read m0 x

theorem ResetKeeps.regionBase {k r : Regs} (h : ResetKeeps k r) (region : Region) :
    regionBase r region = Machine.regionBase k region := by
  cases region with
  | text => exact h.textBase
  | graphics => exact h.gfxBase

theorem ResetKeeps.regionLen {k r : Regs} (h : ResetKeeps k r) (region : Region) :
    regionLen r region = Machine.regionLen k region := by
  cases region with
  | text => rw [Machine.regionLen, Machine.regionLen, h.rows, h.cols]
  | graphics => rw [Machine.regionLen, Machine.regionLen, h.rows, h.rowWidth]

/-! ### The steps of the reset -/

/-- The layout registers are those of `k`, an attached controller (`a` says whether one is) is out of auto mode, and its
memory and pointer meet `P`. -/
structure Settled (k : Regs) (a : Bool) (P : Memory → Addr → Prop) (s : State) : Prop where
  regs : ResetKeeps k s.regs
  attached : s.bus.peer.attached = a
  off : s.bus.off
  wf : Memory.wf s.bus.peer.device.mem = true
  holds : P s.bus.peer.device.mem s.bus.peer.device.adp

theorem wf_run (b : Bus) (l : List BusCycle) (h : Memory.wf b.peer.device.mem = true) :
    Memory.wf (b.run l).peer.device.mem = true := by
  induction l generalizing b with
  | nil => exact h
  | cons c l ih =>
    refine ih (b.cycle c) ?_
    show Memory.wf (b.peer.after c).device.mem = true
    rcases after_mem b.peer c with e | ⟨v, -, -, -, e⟩
    · rw [e]; exact h
    · rw [e]; exact wf_write _ h _ (by have := b.peer.device.adp.isLt; omega) _

section
variable {k : Regs} {a : Bool} {P Q : Memory → Addr → Prop} {F : Memory → Prop}

/-- A command that neither sets the pointer nor starts an auto mode keeps what is settled. -/
theorem settled_command {act : Action} {f : Regs → Regs} {bytes : List Byte} {op : Regs → Byte}
    (hspec : Spec act f (fun r => bytes.map .dataWrite ++ [.commandWrite (op r)]) (fun r r' => r' = r))
    (hf : ∀ r, ResetKeeps r (f r)) (hop : ∀ r, Benign (op r)) (hF : ∀ m adp, P m adp → F m) :
    Triple (Settled k a P) act (Settled k a P) (fun t => F t.bus.peer.device.mem) := by
  intro s hs
  obtain ⟨l, regs, hd, -, hc⟩ := hspec s
  have ht : transfers l <+: bytes.map .dataWrite ++ [.commandWrite (op s.regs)] := by
    rcases hc with ⟨-, -, ht⟩ | ⟨-, -, hst⟩
    · exact ht ▸ List.prefix_refl _
    · exact hst.prefix (by simpa using fun h => (hop s.regs).2.1 h.symm)
  obtain ⟨hmem, hadp, hoff⟩ := command_quiet s.bus ht (hop s.regs) hs.off
  rw [← hd.bus] at hmem hadp hoff
  have hkeep : ResetKeeps k (act s).1.regs := by
    rw [hd.regs]
    rcases hc with ⟨-, rfl, -⟩ | ⟨-, rfl, -⟩
    · exact hs.regs.trans (hf _)
    · exact hs.regs
  refine ⟨fun _ => ⟨hkeep, ?_, hoff, hmem ▸ hs.wf, ?_⟩, fun _ => ?_⟩
  · rw [hd.bus, run_attached, hs.attached]
  · rw [hmem, hadp]
    exact hs.holds
  · show F _
    rw [hmem]
    exact hF _ _ hs.holds

/-- A clear (R214): its region zeroed and the pointer at its end where it succeeds, and nothing else of memory changed. -/
theorem settled_clear {r : Region} (hfit : (regionBase k r).toNat + regionLen k r ≤ 0x10000)
    (hQ : ∀ m adp m' adp', P m adp → (∀ x, Outside k r x → Memory.read m' x = Memory.read m x) →
      (a = true → adp' = regionBase k r + BitVec.ofNat 16 (regionLen k r) ∧ Zeroed k r m') → Q m' adp')
    (hF : ∀ m adp m', P m adp → (∀ x, Outside k r x → Memory.read m' x = Memory.read m x) → F m') :
    Triple (Settled k a P) (clearStep r) (Settled k a Q) (fun t => F t.bus.peer.device.mem) := by
  intro s hs
  obtain ⟨l, regs, hd, hrun, hc⟩ := clearRegion_spec r s
  rw [hs.regs.regionBase, hs.regs.regionLen] at hrun
  obtain ⟨hout, hin⟩ := device_clear s.bus hrun hfit hs.wf hs.off.not_stores
  have hbus : (clearStep r s).1.bus = s.bus.run l := hd.bus
  have hkeep : ResetKeeps k (clearStep r s).1.regs := by
    show ResetKeeps k (clearRegion r s).1.regs
    rw [hd.regs]
    rcases hc with ⟨rfl, -⟩ | ⟨rfl, -⟩
    · exact hs.regs
    · exact hs.regs.trans (keeps_setShadow _ _)
  refine ⟨fun hok => ⟨hkeep, ?_, ?_, ?_, ?_⟩, fun _ => ?_⟩
  · rw [hbus, run_attached, hs.attached]
  · rw [hbus]
    exact clear_off s.bus hrun hok (by omega) hs.wf hs.off
  · rw [hbus]
    exact wf_run _ _ hs.wf
  · rw [hbus]
    exact hQ _ _ _ _ hs.holds hout fun ha => (hin hok).2 (hs.attached.trans ha)
  · show F _
    rw [hbus]
    exact hF _ _ _ hs.holds hout

/-- The reset's first command takes an attached controller out of auto mode, and stores nothing (R216). -/
theorem settled_autoReset {m0 : Memory} (hF : F m0) :
    Triple (fun s => ResetKeeps k s.regs ∧ s.bus.peer.attached = a ∧ Memory.wf s.bus.peer.device.mem = true ∧
        s.bus.peer.device.mem = m0)
      (sendCommand 0xB2 .none .commandReady) (Settled k a fun m _ => F m) (fun t => F t.bus.peer.device.mem) := by
  rintro s ⟨hk, ha, hwf, rfl⟩
  obtain ⟨l, hr, hs⟩ := sendCommand_spec 0xB2 .none .commandReady s
  have hmem : (s.bus.run l).peer.device.mem = s.bus.peer.device.mem :=
    mem_run_noDataWrite _ (noDataWrite_of_transfers
      (NoDataWrite.prefix (w := [.commandWrite 0xB2]) (by simp [NoDataWrite]) hs.prefix))
  rw [← hr.bus] at hmem
  refine ⟨fun hok => ⟨?_, ?_, fun hatt => ?_, hmem ▸ hwf, ?_⟩, fun _ => ?_⟩
  · rw [hr.regs]; exact hk
  · rw [hr.bus, run_attached, ha]
  · rw [hok] at hs
    rw [hr.bus, run_attached] at hatt
    obtain ⟨-, x, hd⟩ := device_command s.bus (hs : transfers l = [.commandWrite 0xB2]) hatt
    rw [hr.bus, hd]
    rfl
  · rw [hmem]; exact hF
  · show F _
    rw [hmem]; exact hF

end

/-- What the steps of a reset leave in memory, from the committed layout `k` on: outside the two regions the memory is as it
was; and where they succeed, both regions of an attached controller are zero and its pointer is at the end of the graphics
region (R221). -/
theorem settled_reset {k : Regs} {a : Bool} {m0 : Memory} (gb rw tb c : BitVec 16)
    (ht : (regionBase k .text).toNat + regionLen k .text ≤ (regionBase k .graphics).toNat)
    (hg : (regionBase k .graphics).toNat + regionLen k .graphics ≤ 0x10000) :
    Triple (fun s => ResetKeeps k s.regs ∧ s.bus.peer.attached = a ∧ Memory.wf s.bus.peer.device.mem = true ∧
        s.bus.peer.device.mem = m0)
      (inOrder ((describedReset gb rw tb c).map Described.act))
      (Settled k a fun m adp => Framed k m0 m ∧ (a = true → Zeroed k .text m ∧ Zeroed k .graphics m ∧
        adp = regionBase k .graphics + BitVec.ofNat 16 (regionLen k .graphics)))
      (fun t => Framed k m0 t.bus.peer.device.mem) := by
  have command : ∀ {P : Memory → Addr → Prop} (op : Byte) (data : CommandData), op ∈ emittedBytes → Benign op →
      (∀ m adp, P m adp → Framed k m0 m) →
      Triple (Settled k a P) (sendCommand op data .commandReady) (Settled k a P)
        (fun t => Framed k m0 t.bus.peer.device.mem) := fun op data he hb hF =>
    settled_command (op := fun _ => op) (spec_sendCommand op data .commandReady he) ResetKeeps.refl (fun _ => hb) hF
  have benign_mode : ∀ m : BitVec 4, Benign (modeCommand m) := by unfold Benign; decide
  have flag : ∀ {P : Memory → Addr → Prop} (f : Flag) (on : Bool), (∀ m adp, P m adp → Framed k m0 m) →
      Triple (Settled k a P) (setDisplayFlag f on) (Settled k a P)
        (fun t => Framed k m0 t.bus.peer.device.mem) := fun f on hF =>
    settled_command (bytes := []) (op := fun r => modeCommand ((flaggedMode r f on).extractLsb' 0 4))
      (spec_setDisplayFlag f on) (fun r => keeps_setMode _ r) (fun _ => benign_mode _) hF
  have framed : ∀ (m : Memory) (adp : Addr), Framed k m0 m → Framed k m0 m := fun _ _ h => h
  have clearText : Triple (Settled k a fun m _ => Framed k m0 m) (clearStep .text)
      (Settled k a fun m _ => Framed k m0 m ∧ (a = true → Zeroed k .text m))
      (fun t => Framed k m0 t.bus.peer.device.mem) :=
    settled_clear (by omega)
      (fun m adp m' adp' hP hout hz => ⟨fun x hx hx' => (hout x hx).trans (hP x hx hx'), fun ha => (hz ha).2⟩)
      (fun m adp m' hP hout x hx hx' => (hout x hx).trans (hP x hx hx'))
  have clearGraphics : Triple (Settled k a fun m _ => Framed k m0 m ∧ (a = true → Zeroed k .text m))
      (clearStep .graphics)
      (Settled k a fun m adp => Framed k m0 m ∧ (a = true → Zeroed k .text m ∧ Zeroed k .graphics m ∧
        adp = regionBase k .graphics + BitVec.ofNat 16 (regionLen k .graphics)))
      (fun t => Framed k m0 t.bus.peer.device.mem) :=
    settled_clear hg
      (fun m adp m' adp' hP hout hz => ⟨fun x hx hx' => (hout x hx').trans (hP.1 x hx hx'), fun ha =>
        ⟨fun x h1 h2 => (hout x (.inl (by omega))).trans (hP.2 ha x h1 h2), (hz ha).2, (hz ha).1⟩⟩)
      (fun m adp m' hP hout x hx hx' => (hout x hx').trans (hP.1 x hx hx'))
  exact (settled_autoReset fun _ _ _ => rfl).andThen <|
    (settled_command (bytes := []) (op := fun _ => 0x90) (spec_setMode 0x00) (fun r => keeps_setMode _ r)
      (fun _ => benign_mode 0) framed).andThen <|
    (command 0x42 (.addr gb) (by decide) (by unfold Benign; decide) framed).andThen <|
    (command 0x43 (.addr rw) (by decide) (by unfold Benign; decide) framed).andThen <|
    (command 0x40 (.addr tb) (by decide) (by unfold Benign; decide) framed).andThen <|
    (command 0x41 (.addr c) (by decide) (by unfold Benign; decide) framed).andThen <|
    (command 0x81 .none (by decide) (by unfold Benign; decide) framed).andThen <|
    clearText.andThen <| clearGraphics.andThen <|
    (flag .cursor true fun _ _ h => h.1).andThen <| (flag .blink false fun _ _ h => h.1).andThen <|
    (flag .text false fun _ _ h => h.1).andThen <| (flag .graphics true fun _ _ h => h.1).andThen triple_nil

/-! ### The request -/

theorem regionLen_committed (rows cols : Byte) (r : Regs) :
    regionLen (committed rows cols r) .text = textLen rows.toNat cols.toNat ∧
      regionLen (committed rows cols r) .graphics = gfxLen rows.toNat (rowWidthOf cols.toNat) :=
  ⟨rfl, congrArg (gfxLen rows.toNat) (rowWidth_toNat cols)⟩

/-- What a reset with a valid layout leaves in display memory, by its code (R221). -/
theorem resetEngine_memory {rows cols : Byte} {s : State} (hv : ResetValid s.params rows cols)
    (hm : Memory.wf s.bus.peer.device.mem = true) :
    let k := committed rows cols s.regs
    let d := (resetEngine rows cols s).1.bus.peer.device
    Framed k s.bus.peer.device.mem d.mem ∧
      ((resetEngine rows cols s).2 = .ok → s.bus.peer.attached = true → d.auto = .off ∧ Zeroed k .text d.mem ∧
        Zeroed k .graphics d.mem ∧ d.adp = regionBase k .graphics + BitVec.ofNat 16 (regionLen k .graphics)) := by
  intro k d
  obtain ⟨-, -, htext, -, hfit⟩ := id hv
  have hspace := s.params.addrSpace.isLt
  have hbase : (regionBase k .graphics).toNat = gfxBaseOf rows.toNat cols.toNat := gfxBase_toNat hv
  have hlen : regionLen k .graphics = gfxLen rows.toNat (rowWidthOf cols.toNat) := (regionLen_committed ..).2
  have hwrite : Triple (Settled k s.bus.peer.attached fun m adp => Framed k s.bus.peer.device.mem m ∧
        (s.bus.peer.attached = true → Zeroed k .text m ∧ Zeroed k .graphics m ∧
          adp = regionBase k .graphics + BitVec.ofNat 16 (regionLen k .graphics)))
      (writing (Regs.setLife .ready))
      (fun t => Framed k s.bus.peer.device.mem t.bus.peer.device.mem ∧ (s.bus.peer.attached = true →
        t.bus.peer.device.auto = .off ∧ Zeroed k .text t.bus.peer.device.mem ∧
          Zeroed k .graphics t.bus.peer.device.mem ∧
          t.bus.peer.device.adp = regionBase k .graphics + BitVec.ofNat 16 (regionLen k .graphics)))
      (fun t => Framed k s.bus.peer.device.mem t.bus.peer.device.mem) := fun t ht =>
    ⟨fun _ => ⟨ht.holds.1, fun ha => ⟨ht.off (ht.attached.trans ha), ht.holds.2 ha⟩⟩, fun h => absurd rfl h⟩
  have hall := ((settled_reset (a := s.bus.peer.attached) (m0 := s.bus.peer.device.mem)
    (BitVec.ofNat 16 (gfxBaseOf rows.toNat cols.toNat)) (BitVec.ofNat 16 (rowWidthOf cols.toNat)) Config.textBase
    (cols.setWidth 16) (by rw [hbase]; exact htext) (by rw [hbase, hlen]; omega)).andThen hwrite)
    (s.commit rows cols) ⟨ResetKeeps.refl _, rfl, hm, rfl⟩
  rw [← resetEngine_valid hv] at hall
  by_cases hok : (resetEngine rows cols s).2 = .ok
  · exact ⟨(hall.1 hok).1, fun _ => (hall.1 hok).2⟩
  · exact ⟨hall.2 hok, fun h => absurd h hok⟩

/-- Settles O42: the request leaves the bus that its reset leaves (`resetEngine_memory`), which succeeds under `READY`. -/
theorem resetClearsBothRegions : Obligations.ResetClearsBothRegions := by
  intro rows cols s hp hv r c gb glen
  obtain ⟨l, regs, hd, -⟩ := resetEngine_spec (s := s.acquire) hv
  have hx := answer_did (body := plainResult (resetEngine rows cols)) hd
  have hbus : (resetEngine rows cols s.acquire).1.bus = s.bus.run l := hd.bus
  have hmem := resetEngine_memory (s := s.acquire) hv hp.1
  simp only [hbus, acquire_regs, acquire_bus] at hmem
  obtain ⟨hframe, hok⟩ := hmem
  have hbase : (regionBase (committed rows cols s.regs) .graphics).toNat = gb := gfxBase_toNat hv
  have hlen : regionLen (committed rows cols s.regs) .graphics = glen := by
    rw [(regionLen_committed ..).2, gfxLen, rowWidthOf_eq]
  refine ⟨fun t ht x htext hgfx => ?_, fun h ha => ⟨_, hx, ?_⟩⟩
  · obtain rfl := Host.Outcome.next.inj (hx.symm.trans ht)
    refine hframe x htext ?_
    rw [Outside, hbase, hlen]
    exact hgfx
  · obtain ⟨hauto, htext, hgfx, hadp⟩ := hok (resetEngine_ready (s := s.acquire) h hv).2 ha
    rw [Zeroed, hbase, hlen] at hgfx
    refine ⟨hadp.trans ?_, hauto, htext, hgfx⟩
    apply BitVec.eq_of_toNat_eq
    rw [hlen, ← hbase]
    simp

end Sys2Proof.Machine
end

section
/-! Proofs of the reset and of `OPEN` (43_layout_mode.md §5, 44_control_surface.md R251 and R254). -/

namespace Sys2Proof.Machine

/-- A reset with a valid layout under `READY`, as the request (R215, R36). -/
theorem exec_ctrlReset_oracle {rows cols : Byte} {s : State} (h : ReadyOracle s) (hv : ResetValid s.params rows cols) :
    exec (.ctrlReset rows cols) s =
      .next (s.done (resetRegs rows cols s.regs) (readyCycles (resetCycles rows cols)) ⟨.ok, 0, []⟩) := by
  obtain ⟨hd, hc⟩ := resetEngine_ready (s := s.acquire) h hv
  exact (answer_did (body := plainResult (resetEngine rows cols)) hd).trans (by rw [plainResult, hc]; rfl)

/-- Settles O45: `resetEngine_ready`, as the request. -/
theorem resetCompletes : Obligations.ResetCompletes := fun _ _ _ => exec_ctrlReset_oracle

/-- Settles O47: the registers and cycles of a reset whatever the peer answers (`resetEngine_spec`), with `DISPLAY_MODE` and
`ADP_SHADOW` as its strobed commands say (`resetEngine_follows`). -/
theorem timedOutResetStaysConfiguring : Obligations.TimedOutResetStaysConfiguring := by
  intro rows cols s hv gb
  obtain ⟨l, regs, hd, -, hc⟩ := resetEngine_spec (s := s.acquire) hv
  obtain ⟨l', regs', hd', hmode, hshadow⟩ := resetEngine_follows (s := s.acquire) hv
  obtain ⟨rfl, rfl⟩ := hd.unique hd'
  refine ⟨regs, l, _, answer_did (body := plainResult (resetEngine rows cols)) hd, hmode, hshadow, ?_⟩
  rcases hc with hok | ⟨herr, hk, p, hp, hlen, ht⟩
  · exact .inl hok
  · refine .inr ⟨herr, hk.life, hk.rows, hk.cols, ?_, hk.textBase, ?_, hk.layoutHeld, hk.entryMode, p, hp, ?_, ht⟩
    · rw [hk.rowWidth, ← rowWidthOf_eq]
      exact rowWidth_toNat cols
    · rw [hk.gfxBase]
      exact gfxBase_toNat hv
    · exact fun e => absurd hlen (by rw [e]; exact Nat.lt_irrefl _)

/-- `OPEN` on an engine that is not `Ready` leaves its reset's state and answers by its code (R251). -/
theorem openBody_reset {s : State} (hl : s.regs.life ≠ .ready) :
    openBody s = ((resetEngine s.params.cfgRows s.params.cfgCols s).1,
      ⟨if (resetEngine s.params.cfgRows s.params.cfgCols s).2 = .ok then .ok else .notReady, 0, []⟩) := by
  rw [openBody, if_neg hl]
  rcases resetEngine s.params.cfgRows s.params.cfgCols s with ⟨t, c⟩
  cases c <;> rfl

/-- Settles O49: the two requests run the same reset from the same state (`openBody_reset`). -/
theorem openReportsAnyFailureAsNotReady : Obligations.OpenReportsAnyFailureAsNotReady := by
  intro s hl
  obtain ⟨l, regs, hd, -⟩ := resetEngine_did s.params.cfgRows s.params.cfgCols s.acquire
  have hopen := openBody_reset (s := s.acquire) hl
  refine ⟨regs, l, _, answer_did (body := plainResult (resetEngine s.params.cfgRows s.params.cfgCols)) hd, ?_⟩
  refine (answer_did (body := openBody) (regs := regs) (l := l) ?_).trans ?_
  · rw [hopen]
    exact hd
  · rw [hopen]
    rfl

/-- Settles O48: a `Ready` engine has nothing to do (`openBody_ready`), any other runs the reset (`openBody_reset`). -/
theorem openCompletes : Obligations.OpenCompletes := by
  intro s
  refine ⟨fun hl => answer_unchanged (openBody_ready (s := s.acquire) hl), fun hl h hv => ?_⟩
  obtain ⟨hd, hc⟩ := resetEngine_ready (s := s.acquire) h hv
  have hopen := openBody_reset (s := s.acquire) hl
  refine (answer_did (body := openBody) (l := readyCycles (resetCycles s.params.cfgRows s.params.cfgCols))
    (regs := resetRegs s.params.cfgRows s.params.cfgCols s.regs) ?_).trans ?_
  · rw [hopen]
    exact hd
  · rw [hopen, acquire_params, if_pos hc]

end Sys2Proof.Machine
end

section
/-! Proofs of the control surface (44_control_surface.md): the prologue, the responses and the control requests. -/

namespace Sys2Proof.Machine

/-- Settles O50: each of the eight makes the prologue's check first (`answer_notReady`). -/
theorem requestsBeforeReadyAreTurnedAway : Obligations.RequestsBeforeReadyAreTurnedAway := by
  intro i s hw hi hopen hreset hl
  cases i with
  | openReq => exact absurd rfl hopen
  | ctrlReset rows cols => exact absurd rfl (hreset rows cols)
  | write n payload => exact (if_pos (beq_iff_eq.1 hw)).trans (answer_notReady hl)
  | read n => exact answer_notReady hl
  | ctrlSetEntry m => exact answer_notReady hl
  | ctrlSetAdp a => exact answer_notReady hl
  | ctrlSetFlag f on => exact answer_notReady hl
  | ctrlSetBase r a => exact answer_notReady hl
  | ctrlClear r => exact answer_notReady hl
  | ctrlGetStatus => exact answer_notReady hl
  | setAdp | txtHome | txtArea | gfxHome | gfxArea | modeXor | displayMode | autoWrite | autoRead | autoReset => cases hi

/-! ### `CTRL.SETADP` and `CTRL.SETBASE` -/

/-- An address command that timed out has strobed nothing (R165). -/
theorem stopped_addrCycles {op : Byte} {a : Addr} {l : List BusCycle} (h : Stopped (addrCycles op a) l) (o : Byte) :
    .commandWrite o ∉ l := by
  obtain ⟨p, hp, hlen, ht⟩ := h
  have hno : ∀ o, .commandWrite o ∉ p := fun o hm => by
    rw [addrCycles_eq_append] at hp hlen
    rcases prefix_command hp with ⟨sent, -, rfl⟩ | rfl
    · simp at hm
    · exact Nat.lt_irrefl _ hlen
  rw [← strobe_mem_transfers]
  rcases ht with ht | ⟨⟨q, sent, hq⟩, -⟩
  · rw [ht]
    exact hno o
  · exact absurd (by rw [hq]; simp) (hno 0xB0)

theorem strobe_of_addrCycles {op : Byte} {a : Addr} {l : List BusCycle} (h : transfers l = addrCycles op a) :
    .commandWrite op ∈ l := by
  rw [← strobe_mem_transfers, h]
  simp [addrCycles]

/-- Settles O53: under `READY` the step's cycles, and otherwise its two outcomes (`spec_setAddressPointer`). -/
theorem setAdpCompletes : Obligations.SetAdpCompletes := by
  intro a s hl
  refine ⟨fun h => ?_, ?_⟩
  · rw [← addrCycles_eq]
    exact exec_ctrlSetAdp_oracle hl h
  · obtain ⟨l, regs, c, hx, -, hc⟩ := answer_plain hl (spec_setAddressPointer a)
    refine ⟨regs, l, c, hx, ?_⟩
    rcases hc with ⟨rfl, rfl, ht⟩ | ⟨rfl, rfl, hst⟩
    · exact .inl ⟨rfl, strobe_of_addrCycles ht, rfl⟩
    · exact .inr ⟨rfl, stopped_addrCycles hst, rfl⟩

/-- A request is its rule at the state it takes. -/
theorem answer_congr {body body' : State → State × Response} {s : State} (h : body s.acquire = body' s.acquire) :
    answer body s = answer body' s := by
  rw [answer, answer, h]

/-- `CTRL.SETBASE` past its check (R212). -/
theorem exec_ctrlSetBase_valid {r : Region} {a : Addr} {s : State} (hv : BaseValid s r a) :
    exec (.ctrlSetBase r a) s =
      answer (whenReady (plainResult (Action.andThen (muxHome r a) (writing (Regs.setBase r a))))) s := by
  have hbase : setBaseAddress r a s.acquire = Action.andThen (muxHome r a) (writing (Regs.setBase r a)) s.acquire :=
    if_pos hv
  refine answer_congr (body := whenReady (plainResult (setBaseAddress r a))) ?_
  rw [whenReady, whenReady, plainResult, plainResult, hbase]

theorem setBase_eq (r : Region) (a : Addr) (regs : Regs) :
    regs.setBase r a = { regs with
      textBase := match r with | .text => a | .graphics => regs.textBase
      gfxBase := match r with | .text => regs.gfxBase | .graphics => a } := by
  cases r <;> rfl

/-- Settles O56: a failed check does nothing; past it the step's cycles under `READY`, and otherwise its two outcomes
(`spec_setBase`). -/
theorem setBaseWritesOneBase : Obligations.SetBaseWritesOneBase := by
  intro r a s hl tb gb op new valid
  have hnew : new = s.regs.setBase r a := (setBase_eq r a s.regs).symm
  have hop : op = homeByte r := by cases r <;> rfl
  have hvalid : valid ↔ BaseValid s r a := by cases r <;> exact Iff.rfl
  rw [hvalid, hnew, hop]
  refine ⟨exec_ctrlSetBase_invalid hl, fun hv h => ?_, fun hv => ?_⟩
  · rw [exec_ctrlSetBase_valid hv, ← addrCycles_eq]
    exact answer_plain_ready hl h (readySpec_setBase r a)
  · obtain ⟨l, regs, c, hx, -, hc⟩ := answer_plain hl (spec_setBase r a)
    refine ⟨regs, l, c, (exec_ctrlSetBase_valid hv).trans hx, ?_⟩
    rcases hc with ⟨rfl, rfl, ht⟩ | ⟨rfl, rfl, hst⟩
    · exact .inl ⟨rfl, strobe_of_addrCycles ht, rfl⟩
    · exact .inr ⟨rfl, stopped_addrCycles hst, rfl⟩

/-! ### `CTRL.SETFLAG` (R257) -/

theorem modeCommand_modeByte (m : Byte) : modeCommand (m.extractLsb' 0 4) = 0x90 ||| modeByte m := by
  revert m; decide

/-- Settles O54: the mode written is the flagged one, whose bits are `getLsbD_flaggedMode`'s. -/
theorem setFlagCompletes : Obligations.SetFlagCompletes := by
  intro f on s hl h bit
  have hbit : bit = flagBit f := by cases f <;> rfl
  refine ⟨modeByte (flaggedMode s.regs f on), fun i _ => ?_, ?_⟩
  · rw [getLsbD_flaggedMode, hbit, getLsbD_modeByte]
    by_cases hi : i = flagBit f
    · rw [if_pos hi, if_pos hi.symm]
    · rw [if_neg hi, if_neg (Ne.symm hi)]
      by_cases h4 : i < 4 <;> simp [h4]
  · rw [← modeCommand_modeByte]
    exact answer_plain_ready hl h (readySpec_setDisplayFlag f on)

/-! ### `CTRL.CLEAR` (R259) -/

/-- A region of a valid layout has a length of 16 bits: both regions lie past address 0 or below the other (R205). -/
theorem regionLen_lt {s : State} (h : LayoutInv s) (hl : s.regs.life = .ready) (r : Region) :
    regionLen s.regs r < 0x10000 := by
  obtain ⟨-, -, -, hrw, -, h2, h3, h4, h5⟩ := h hl
  have hspace := s.params.addrSpace.isLt
  cases r with
  | text =>
    show textLen _ _ < _
    omega
  | graphics =>
    show gfxLen _ _ < _
    rw [hrw]
    omega

theorem burstCycles_zeros (n : Nat) :
    burstCycles (List.replicate n 0) =
      if n = 0 then [] else .commandWrite 0xB0 :: List.replicate n (.dataWrite 0) ++ [.commandWrite 0xB2] := by
  simp [burstCycles]

/-- Settles O57: the cycles of a clear under `READY` (`exec_ctrlClear_oracle`); its length fits by the layout. -/
theorem clearCompletes : Obligations.ClearCompletes := by
  intro r s hl hlay h base len
  have hbase : base = regionBase s.regs r := by cases r <;> rfl
  have hlen : len = regionLen s.regs r := by cases r <;> rfl
  rw [hbase, hlen]
  refine ⟨regionLen_lt hlay hl r, ?_⟩
  rw [← burstCycles_zeros]
  exact exec_ctrlClear_oracle hl h

theorem ClearRun.code {base : Addr} {len : Nat} {l : List BusCycle} {r : Response} (h : ClearRun base len l r) :
    r.code = .ok ∨ r.code = .handshakeTimeout := by
  cases h with
  | addressFailed ht hr => exact .inr (by rw [hr])
  | empty hl ht hr => exact .inl (by rw [hr])
  | burst l1 l2 hl ht hw =>
    cases hw with
    | entryFailed ht hr => exact .inr (by rw [hr])
    | moved k exit hk ht hx hr hc => exact hc.imp And.left And.left

/-- Settles O58: the two outcomes of the clear's address-set (`exec_ctrlClear_ready`). -/
theorem clearMovesOnlyTheShadow : Obligations.ClearMovesOnlyTheShadow := by
  intro r s hl base
  have hbase : base = regionBase s.regs r := by cases r <;> rfl
  obtain ⟨regs, l, res, hx, hrun, hc⟩ := exec_ctrlClear_ready (r := r) hl
  rw [hbase]
  exact ⟨regs, l, res, hx, hrun.code, hc.symm⟩

end Sys2Proof.Machine
end

section
/-! Proofs of the response every request ends with (30_encoding.md R98, 60_exceptions.md R305 and R306). -/

namespace Sys2Proof.Machine

/-- A request that is one step of the engine responds with a code alone. -/
theorem answer_plainResult_done {a : Action} (ha : ∀ s, ∃ l regs, Did s (a s).1 regs l ∧ OnlyEmitted l) (s : State) :
    ∃ regs l c, answer (plainResult a) s = .next (s.done regs l ⟨c, 0, []⟩) := by
  obtain ⟨l, regs, hd, -⟩ := ha s.acquire
  exact ⟨regs, l, _, answer_did (body := plainResult a) hd⟩

theorem answer_whenReady_plainResult_done {a : Action} (ha : ∀ s, ∃ l regs, Did s (a s).1 regs l ∧ OnlyEmitted l) (s : State) :
    ∃ regs l c, answer (whenReady (plainResult a)) s = .next (s.done regs l ⟨c, 0, []⟩) := by
  by_cases hl : s.regs.life = .ready
  · obtain ⟨l, regs, hd, -⟩ := ha s.acquire
    exact ⟨regs, l, _, answer_ready (body := plainResult a) hl hd⟩
  · exact ⟨_, _, _, answer_notReady hl⟩

theorem exec_openReq_done (s : State) : ∃ regs l c, exec .openReq s = .next (s.done regs l ⟨c, 0, []⟩) := by
  by_cases hl : s.regs.life = .ready
  · exact ⟨_, _, _, answer_unchanged (openBody_ready (s := s.acquire) hl)⟩
  · obtain ⟨regs, l, c, -, hopen⟩ := openReportsAnyFailureAsNotReady s hl
    exact ⟨regs, l, _, hopen⟩

/-- A `WRITE` counts its data writes. -/
theorem exec_write_done {n : BitVec 16} {payload : List Byte} {s : State} (hn : payload.length = n.toNat) :
    ∃ l c k, exec (.write n payload) s = .next (s.done s.regs l ⟨c, k, []⟩) ∧ k.toNat = (bytesWritten l).length := by
  by_cases hl : s.regs.life = .ready
  · by_cases h0 : n = 0
    · subst h0
      obtain rfl : payload = [] := List.length_eq_zero_iff.1 hn
      exact ⟨[], _, _, exec_write_empty hl, rfl⟩
    · obtain ⟨l, c, k, hx, hk, hbytes, -⟩ := writeReportsTheBytesMoved n payload s hn h0 hl
      refine ⟨l, c, _, hx, ?_⟩
      rw [hbytes, List.length_take_of_le (by rw [List.length_map]; exact hk), BitVec.toNat_ofNat,
        Nat.mod_eq_of_lt (by have := n.isLt; omega)]
  · exact ⟨[], _, _, (if_pos hn).trans (answer_notReady hl), rfl⟩

/-- A `READ` returns its data reads and counts them. -/
theorem exec_read_done (n : BitVec 16) (s : State) :
    ∃ l c k, exec (.read n) s = .next (s.done s.regs l ⟨c, k, bytesRead l⟩) ∧ k.toNat = (bytesRead l).length := by
  by_cases hl : s.regs.life = .ready
  · by_cases h0 : n = 0
    · subst h0
      exact ⟨[], _, _, exec_read_zero hl, rfl⟩
    · obtain ⟨l, c, data, hx, hk, hbytes, -⟩ := readReportsTheBytesRead n s h0 hl
      refine ⟨l, c, _, hbytes ▸ hx, ?_⟩
      rw [hbytes, BitVec.toNat_ofNat, Nat.mod_eq_of_lt (by have := n.isLt; omega)]
  · exact ⟨[], _, _, answer_notReady hl, rfl⟩

theorem length_bytesWritten_le {p w : List BusCycle} (h : p <+: w) : (bytesWritten p).length ≤ (bytesWritten w).length :=
  (h.filterMap _).length_le

/-- A clear counts its data writes past the two of its address, and returns nothing. -/
theorem ClearRun.response {base : Addr} {len : Nat} {l : List BusCycle} {r : Response} (h : ClearRun base len l r)
    (hlen : len < 0x10000) : r.count.toNat = (bytesWritten l).length - 2 ∧ r.data = [] := by
  cases h with
  | addressFailed ht hr =>
    have hle : (bytesWritten l).length ≤ 2 := by
      rw [← bytesWritten_transfers]
      exact length_bytesWritten_le ht
    rw [hr, Nat.sub_eq_zero_of_le hle]
    exact ⟨rfl, rfl⟩
  | empty hl ht hr =>
    rw [hr, ← bytesWritten_transfers, ht]
    exact ⟨rfl, rfl⟩
  | burst l1 l2 hl ht hw =>
    have htwo : (bytesWritten l1).length = 2 := by
      rw [← bytesWritten_transfers, ht]
      rfl
    rw [hl, bytesWritten_append, List.length_append, htwo, Nat.add_sub_cancel_left]
    cases hw with
    | entryFailed ht' hr =>
      rw [hr, ← bytesWritten_transfers, ht']
      exact ⟨rfl, rfl⟩
    | moved k exit hk ht' hx hr hc =>
      rw [map_take_sent] at ht'
      have hz : (zeros len).length = len := List.length_replicate
      refine ⟨?_, hr.2⟩
      rw [bytesWritten_moved ht' (hx.imp id And.left), List.length_take_of_le (by rw [List.length_map]; exact hk), hr.1,
        BitVec.toNat_ofNat, Nat.mod_eq_of_lt (by omega)]

theorem exec_ctrlClear_done {r : Region} {s : State} (hlay : LayoutInv s) :
    ∃ regs l res, exec (.ctrlClear r) s = .next (s.done regs l res) ∧
      res.count.toNat = (bytesWritten l).length - 2 ∧ res.data = [] := by
  by_cases hl : s.regs.life = .ready
  · obtain ⟨regs, l, res, hx, hrun, -⟩ := exec_ctrlClear_ready (r := r) hl
    exact ⟨regs, l, res, hx, hrun.response (regionLen_lt hlay hl r)⟩
  · exact ⟨_, _, _, answer_notReady hl, rfl, rfl⟩

/-- Settles O51: the requests that move bytes by their lemmas above, the others respond with a code alone. -/
theorem everyRequestHasOneResponse : Obligations.EveryRequestHasOneResponse := by
  intro i s hi hw hlay
  have plain : ∀ {i : Instr}, (∃ regs l c, exec i s = .next (s.done regs l ⟨c, 0, []⟩)) →
      ∃ regs l r, exec i s = .next (s.done regs l r) ∧ r.count.toNat = 0 ∧ r.data = [] :=
    fun ⟨regs, l, c, hx⟩ => ⟨regs, l, _, hx, rfl, rfl⟩
  cases i with
  | openReq => exact plain (exec_openReq_done s)
  | write n payload =>
    obtain ⟨l, c, k, hx, hk⟩ := exec_write_done (s := s) (beq_iff_eq.1 hw)
    exact ⟨_, l, _, hx, hk, rfl⟩
  | read n =>
    obtain ⟨l, c, k, hx, hk⟩ := exec_read_done n s
    exact ⟨_, l, _, hx, hk, rfl⟩
  | ctrlReset rows cols => exact plain (answer_plainResult_done (resetEngine_did rows cols) s)
  | ctrlSetEntry m =>
    exact plain (answer_whenReady_plainResult_done (spec_writing (Regs.setEntry m) fun _ _ => True).did s)
  | ctrlSetAdp a => exact plain (answer_whenReady_plainResult_done (spec_setAddressPointer a).did s)
  | ctrlSetFlag f on => exact plain (answer_whenReady_plainResult_done (spec_setDisplayFlag f on).did s)
  | ctrlSetBase r a => exact plain (answer_whenReady_plainResult_done (setBaseAddress_did r a) s)
  | ctrlClear r => exact exec_ctrlClear_done hlay
  | ctrlGetStatus =>
    by_cases hl : s.regs.life = .ready
    · exact ⟨_, _, _, exec_ctrlGetStatus_ready hl, rfl, fun _ => ⟨_, rfl, rfl⟩⟩
    · exact ⟨_, _, _, answer_notReady hl, rfl, fun h => absurd h hl⟩
  | setAdp | txtHome | txtArea | gfxHome | gfxArea | modeXor | displayMode | autoWrite | autoRead | autoReset => cases hi

end Sys2Proof.Machine
end

section
/-! Proofs of the bounds on bus cycles (70_reset_and_hazards.md R331). -/

namespace Sys2Proof.Machine

/-- With a retry limit of `L`, `t` is reached from `s` by at most `n` bus cycles, the limit kept. -/
def Within (L n : Nat) (s t : State) : Prop :=
  s.params.retryLimit.toNat = L → t.params.retryLimit.toNat = L ∧ t.bus.trace.length ≤ s.bus.trace.length + n

theorem Within.refl (L n : Nat) (s : State) : Within L n s s := fun h => ⟨h, Nat.le_add_right _ _⟩

theorem Within.trans {L m n : Nat} {s t u : State} (h : Within L m s t) (h' : Within L n t u) :
    Within L (m + n) s u := fun hs => by
  obtain ⟨ht, hlen⟩ := h hs
  obtain ⟨hu, hlen'⟩ := h' ht
  exact ⟨hu, by omega⟩

theorem Within.mono {L m n : Nat} {s t : State} (h : Within L m s t) (hmn : m ≤ n) : Within L n s t := fun hs => by
  obtain ⟨ht, hlen⟩ := h hs
  exact ⟨ht, by omega⟩

theorem within_cycle (L : Nat) (c : BusCycle) (s : State) : Within L 1 s (s.cycle c) := fun h =>
  ⟨h, by simp [Bus.cycle]⟩

theorem Within.issued {n : Nat} {s t : State} (h : Within s.params.retryLimit.toNat n s t) :
    t.bus.trace.length - s.bus.trace.length ≤ n := by
  obtain ⟨-, hlen⟩ := h rfl
  omega

theorem Ran.issued {s t : State} {l : List BusCycle} (h : Ran s t l) :
    t.bus.trace.length = s.bus.trace.length + l.length := by
  rw [h.bus, run_trace, List.length_append]

theorem PollReads.length_le {c : PollCond} {limit : Nat} {bs : List Byte} {e : Code} (h : PollReads c limit bs e) :
    bs.length ≤ limit := by
  cases e with
  | ok =>
    obtain ⟨-, -, -, -, -, hlen⟩ := h
    exact hlen
  | handshakeTimeout => exact h.1.le
  | notReady | unsupportedOperation | invalidLayout => exact h.elim

/-- A poll reads at least once, but for a limit of 0. -/
theorem PollReads.length_pos {c : PollCond} {limit : Nat} {bs : List Byte} {e : Code} (h : PollReads c limit bs e)
    (h0 : limit ≠ 0) : 1 ≤ bs.length := by
  cases e with
  | ok =>
    obtain ⟨early, last, rfl, -⟩ := h
    simp
  | handshakeTimeout =>
    obtain ⟨hlen, -⟩ := h
    omega
  | notReady | unsupportedOperation | invalidLayout => exact h.elim

theorem within_pollUntil (L : Nat) (c : PollCond) (s : State) : Within L L s (pollUntil c s).1 := fun h => by
  obtain ⟨bs, hr, hb⟩ := pollUntil_spec c s
  have hlen := hb.length_le
  rw [h] at hlen
  refine ⟨by rw [hr.params]; exact h, ?_⟩
  rw [hr.issued, List.length_map]
  omega

theorem within_andThen {L m n : Nat} {f g : Action} (hf : ∀ s, Within L m s (f s).1) (hg : ∀ s, Within L n s (g s).1)
    (s : State) : Within L (m + n) s (Action.andThen f g s).1 := by
  rcases andThen_cases f g s with ⟨-, h⟩ | ⟨-, h⟩ <;> rw [h]
  · exact (hf s).trans (hg _)
  · exact (hf s).mono (Nat.le_add_right _ _)

theorem within_writeByte (L : Nat) (v : Byte) (s : State) : Within L (L + 1) s (writeByte v s).1 :=
  within_andThen (within_pollUntil L _) (fun s => within_cycle L (.dataWrite v) s) s

theorem within_strobeCommand (L : Nat) (op : Byte) (cond : PollCond) (s : State) :
    Within L (L + 1) s (strobeCommand op cond s).1 :=
  within_andThen (within_pollUntil L _) (fun s => within_cycle L (.commandWrite op) s) s

/-- Steps of at most `m` cycles each. -/
theorem within_inOrder {L m : Nat} {fs : List Action} (h : ∀ f ∈ fs, ∀ s, Within L m s (f s).1) (s : State) :
    Within L (fs.length * m) s (inOrder fs s).1 := by
  induction fs generalizing s with
  | nil => exact .refl L _ s
  | cons f fs ih =>
    refine (within_andThen (h f (by simp)) (ih fun g hg => h g (by simp [hg])) s).mono ?_
    rw [List.length_cons, Nat.succ_mul, Nat.add_comm]

theorem within_sendCommand (L : Nat) (op : Byte) (data : CommandData) (cond : PollCond) (s : State) :
    Within L ((data.bytes.length + 1) * (L + 1)) s (sendCommand op data cond s).1 := by
  have hsteps : ∀ f ∈ data.bytes.map writeByte ++ [strobeCommand op cond], ∀ s, Within L (L + 1) s (f s).1 := by
    intro f hf
    rcases List.mem_append.1 hf with hf | hf
    · obtain ⟨v, -, rfl⟩ := List.mem_map.1 hf
      exact within_writeByte L v
    · rw [List.mem_singleton.1 hf]
      exact within_strobeCommand L op cond
  have h := within_inOrder hsteps s
  rwa [List.length_append, List.length_map] at h

theorem within_writeBody (L : Nat) (text : Bool) (bytes : List Byte) (s : State) :
    Within L (bytes.length * (L + 1)) s (writeBody text bytes s).1 := by
  induction bytes generalizing s with
  | nil => exact .refl L _ s
  | cons b bytes ih =>
    have hpoll := within_pollUntil L .autoWriteReady s
    rw [List.length_cons, Nat.succ_mul, Nat.add_comm]
    by_cases h : (pollUntil .autoWriteReady s).2 = .ok
    · rw [writeBody_cons_ok h]
      exact (hpoll.trans (within_cycle L (.dataWrite (sentByte text b)) _)).trans
        (ih (busDataWrite (sentByte text b) (pollUntil .autoWriteReady s).1).countByte)
    · rw [writeBody_cons_err h]
      exact hpoll.mono (by omega)

theorem within_readBody (L n : Nat) (s : State) : Within L (n * (L + 1)) s (readBody n s).1 := by
  induction n generalizing s with
  | zero => exact .refl L _ s
  | succ n ih =>
    have hpoll := within_pollUntil L .autoReadReady s
    rw [Nat.succ_mul, Nat.add_comm]
    by_cases h : (pollUntil .autoReadReady s).2 = .ok
    · rw [readBody_succ_ok h]
      exact (hpoll.trans (within_cycle L (.dataRead _) _)).trans
        (ih (busDataRead (pollUntil .autoReadReady s).1).1.countByte)
    · rw [readBody_succ_err h]
      exact hpoll.mono (by omega)

theorem within_burstExit (L : Nat) (own : PollCond) (e : Code) (out : List Byte) (s : State) :
    Within L (L + 1) s (burstExit own e out s).1 := by
  have h := within_sendCommand L 0xB2 .none (exitCond s.params.exitPoll own) s
  rw [show (CommandData.none.bytes.length + 1) * (L + 1) = L + 1 from Nat.one_mul _] at h
  unfold burstExit muxAutoReset
  rcases hcmd : sendCommand 0xB2 .none (exitCond s.params.exitPoll own) s with ⟨t, c⟩
  rw [hcmd] at h
  cases c <;> exact h

/-- A burst's entry, its body of `n` bytes and its exit. -/
theorem Within.burst {L n : Nat} {s t u v : State} (h1 : Within L ((0 + 1) * (L + 1)) s t)
    (h2 : Within L (n * (L + 1)) t u) (h3 : Within L (L + 1) u v) : Within L ((L + 1) * (n + 2)) s v :=
  ((h1.trans h2).trans h3).mono (by rw [Nat.mul_comm (L + 1)]; simp only [Nat.add_mul]; omega)

theorem within_burstWrite (L : Nat) {bytes : List Byte} (text : Bool) (s : State) (hb : bytes ≠ []) :
    Within L ((L + 1) * (bytes.length + 2)) s (burstWrite bytes text s).1 := by
  have hentry := within_sendCommand L 0xB0 .none .commandReady s
  rcases sendCommand_code 0xB0 .none .commandReady s with h | h
  · rw [burstWrite_entry_ok hb h]
    exact hentry.burst (within_writeBody L text bytes (muxAutoWrite s).1.startBurst) (within_burstExit L _ _ _ _)
  · rw [burstWrite_entry_err hb h]
    exact hentry.burst (.refl L _ _) (.refl L _ _)

theorem within_burstRead (L : Nat) {n : Nat} (s : State) (hn : n ≠ 0) :
    Within L ((L + 1) * (n + 2)) s (burstRead n s).1 := by
  have hentry := within_sendCommand L 0xB1 .none .commandReady s
  rcases sendCommand_code 0xB1 .none .commandReady s with h | h
  · rw [burstRead_entry_ok hn h]
    exact hentry.burst (within_readBody L n (muxAutoRead s).1.startBurst) (within_burstExit L _ _ _ _)
  · rw [burstRead_entry_err hn h]
    exact hentry.burst (.refl L _ _) (.refl L _ _)

/-- Settles O60: each part is a number of polls of at most `L` status reads, each with one cycle after it (`Within`). -/
theorem cycleBounds : Obligations.CycleBounds := by
  intro s L issued
  refine ⟨fun c => ⟨(within_pollUntil L c s).issued, fun h0 => ?_⟩, fun op => ?_, fun op a => ?_,
    fun bytes text hb => (within_burstWrite L text s hb).issued, fun n hn => (within_burstRead L s hn).issued,
    fun t hl hx => ?_⟩
  · obtain ⟨bs, hr, hb⟩ := pollUntil_spec c s
    have hpos := hb.length_pos h0
    show 1 ≤ (pollUntil c s).1.bus.trace.length - s.bus.trace.length
    rw [hr.issued, List.length_map]
    omega
  · exact ((within_sendCommand L op .none .commandReady s).mono (Nat.one_mul _).le).issued
  · exact ((within_sendCommand L op (.addr a) .commandReady s).mono (Nat.mul_add 3 L 1).le).issued
  · obtain rfl := Host.Outcome.next.inj ((exec_ctrlGetStatus_ready hl).symm.trans hx)
    have hone : (s.bus.trace ++ [BusCycle.statusRead s.bus.peer.statusAnswer]).length - s.bus.trace.length = 1 := by simp
    exact hone

end Sys2Proof.Machine
end
